-- ==== Sys2Proof/Word.lean ====
section
/-! DEFINITION. The word types of GLME and the floor arithmetic of the notation rule (00_scope.md R8, R11). -/

namespace Sys2Proof

/-- A 32-bit word: one register, or one word of matrix memory (R8, R61). -/
abbrev Word := BitVec 32

/-- One byte lane of a word (20_memory.md R67). -/
abbrev Byte := BitVec 8

/-- `ceil_div(a, b) = (a + b − 1) div b` (R11). -/
def ceilDiv (a b : Nat) : Nat := (a + b - 1) / b

end Sys2Proof
end

