-- ==== Sys2Proof/Syntax.lean ====
section
/-! DEFINITION. The commands of GLME: one constructor for each row of the opcode map (30_encoding.md R93). -/

namespace Sys2Proof

/-- A descriptor operand: one of MD0 to MD7 (R94). -/
abbrev DescIx := Fin 8

/-- The parameter word as PERM reads it (R92, R101): the size code, the permutation index, and whether any reserved bit is
set. A code that selects nothing (MCODE 7, KIDX 0 or above 26) is kept: it is refused when the command is validated, not
when it is decoded (R95, R96; log 17). -/
structure PermParam where
  mcode : BitVec 3
  kidx : BitVec 5
  reserved : Bool
deriving DecidableEq, Repr

/-- The parameter word as ASMH reads it (R92, R101): the size code, the rate code, and whether any reserved bit is set. MCODE
7 and RATE 3 are kept until validation (R95, R97; log 17). -/
structure AsmhParam where
  mcode : BitVec 3
  rate : BitVec 2
  reserved : Bool
deriving DecidableEq, Repr

/-- A command with the operands it reads (R93). A field a command does not read is no operand (R101). -/
inductive Instr where
  | nop
  | perm (d : DescIx) (x : Bool) (p : PermParam)
  | asmh (d : DescIx) (p : AsmhParam)
  | inv (d a sc : DescIx)
  | mul (d a b : DescIx) (x t : Bool)
  | zero (d : DescIx)
  | ident (d : DescIx) (x : Bool)
  | copy (d a : DescIx) (t : Bool)
  | add (d a b : DescIx)
deriving DecidableEq, Repr

end Sys2Proof
end

