-- ==== Sys2Proof/WellFormed.lean ====
section
/-! DEFINITION. Which commands an encoding exists for. -/

namespace Sys2Proof

/-- A command is well formed when the parameter word it reads has no reserved bit set ("must be 0 when read",
30_encoding.md R92, R102). Every other operand fits its field by its type. -/
def Instr.wellFormed : Instr → Bool
  | .nop => true
  | .perm _ _ p => !p.reserved
  | .asmh _ p => !p.reserved
  | .inv _ _ _ => true
  | .mul _ _ _ _ _ => true
  | .zero _ => true
  | .ident _ _ => true
  | .copy _ _ _ => true
  | .add _ _ _ => true

end Sys2Proof
end

