-- ==== Sys2Proof/Decode.lean ====
section
/-! DEFINITION. Decoding and encoding of command words (30_encoding.md R90 to R107). GLME fetches no bytes (20_memory.md
R67): a command is the pair of words CMD and PARAM, and the decoder is total on every pair. -/

namespace Sys2Proof

/-- The nine assigned opcodes (R93). -/
inductive Opcode where
  | nop | perm | asmh | inv | mul | zero | ident | copy | add
deriving DecidableEq, Repr

/-- Why a command word does not decode (R99, R100). The machine reports each as BAD_OPCODE(0). -/
inductive DecodeError where
  | reservedBit         -- one of bits 31:26, 23, 19, 15, 11 is set
  | unassignedOpcode    -- OPC is 0x09 to 0xFF (R103)
  | accumulateForbidden -- X is set and the opcode does not allow it
  | transposeForbidden  -- T is set and the opcode does not allow it
deriving DecidableEq, Repr

/-- The OPC value of an opcode (R93). -/
def Opcode.code : Opcode → BitVec 8
  | .nop => 0x00 | .perm => 0x01 | .asmh => 0x02 | .inv => 0x03 | .mul => 0x04
  | .zero => 0x05 | .ident => 0x06 | .copy => 0x07 | .add => 0x08

/-- The opcode an OPC value selects; none for the reserved values (R93, R103). -/
def Opcode.ofCode (c : BitVec 8) : Option Opcode :=
  match c.toNat with
  | 0 => some .nop | 1 => some .perm | 2 => some .asmh | 3 => some .inv | 4 => some .mul
  | 5 => some .zero | 6 => some .ident | 7 => some .copy | 8 => some .add
  | _ => none

/-- Whether the opcode allows the accumulate flag X (R91, R93). -/
def Opcode.allowsX : Opcode → Bool
  | .perm | .mul | .ident => true
  | .nop | .asmh | .inv | .zero | .copy | .add => false

/-- Whether the opcode allows the transpose flag T (R91, R93). -/
def Opcode.allowsT : Opcode → Bool
  | .mul | .copy => true
  | .nop | .perm | .asmh | .inv | .zero | .ident | .add => false

/-- The 3-bit descriptor field whose lowest bit is `lo` (R91, R94). -/
def descField (w : Word) (lo : Nat) : DescIx := (w.extractLsb' lo 3).toFin

/-- Whether a reserved bit of the command word is set (R91: the mask 0xFC888800). -/
def cmdReserved (w : Word) : Bool :=
  w.extractLsb' 26 6 != 0 || w.getLsbD 23 || w.getLsbD 19 || w.getLsbD 15 || w.getLsbD 11

/-- Whether a reserved bit of the parameter word is set (R92: the mask 0xFFFCE0F8). -/
def paramReserved (w : Word) : Bool :=
  w.extractLsb' 3 5 != 0 || w.extractLsb' 13 3 != 0 || w.extractLsb' 18 14 != 0

/-- The parameter word's fields that PERM reads: MCODE and KIDX, not RATE (R92, R93, R101). -/
def decodePermParam (w : Word) : PermParam :=
  { mcode := w.extractLsb' 0 3, kidx := w.extractLsb' 8 5, reserved := paramReserved w }

/-- The parameter word's fields that ASMH reads: MCODE and RATE, not KIDX (R92, R93, R101). -/
def decodeAsmhParam (w : Word) : AsmhParam :=
  { mcode := w.extractLsb' 0 3, rate := w.extractLsb' 16 2, reserved := paramReserved w }

/-- The command of an opcode with the operands it reads (R93, R101). DEDUCED (log 18): INV reads S, its scratch operand, as
R91, R93, R105 and 43_invert.md R200 say; the example in R101 that counts S of INV among the unread fields is not
followed. -/
def buildCommand (o : Opcode) (cmd param : Word) : Instr :=
  let d := descField cmd 8
  let a := descField cmd 12
  let b := descField cmd 16
  let sc := descField cmd 20
  let x := cmd.getLsbD 24
  let t := cmd.getLsbD 25
  match o with
  | .nop => .nop
  | .perm => .perm d x (decodePermParam param)
  | .asmh => .asmh d (decodeAsmhParam param)
  | .inv => .inv d a sc
  | .mul => .mul d a b x t
  | .zero => .zero d
  | .ident => .ident d x
  | .copy => .copy d a t
  | .add => .add d a b

/-- Decoding of a command (R99): only the command word decides whether it is legal (R104). -/
def decode (cmd param : Word) : Except DecodeError Instr :=
  if cmdReserved cmd then .error .reservedBit
  else
    match Opcode.ofCode (cmd.extractLsb' 0 8) with
    | none => .error .unassignedOpcode
    | some o =>
      if cmd.getLsbD 24 && !o.allowsX then .error .accumulateForbidden
      else if cmd.getLsbD 25 && !o.allowsT then .error .transposeForbidden
      else .ok (buildCommand o cmd param)

/-- The decoder on the bits of an opcode-table row: bits 31..0 are CMD and bits 63..32 are PARAM (R90), and every bit at
or above `nbits` is 0. -/
def decodeTableWord (nbits w : Nat) : Option Instr :=
  let bits := w % 2 ^ nbits
  (decode (BitVec.ofNat 32 bits) (BitVec.ofNat 32 (bits >>> 32))).toOption

/-- A command word from its fields, from bit 31 down (R91, R105); the bits between the fields are 0. -/
def cmdWord (o : Opcode) (d a b sc : DescIx) (x t : Bool) : Word :=
  0#6 ++ BitVec.ofBool t ++ BitVec.ofBool x ++ 0#1 ++ BitVec.ofFin (w := 3) sc ++ 0#1 ++ BitVec.ofFin (w := 3) b ++ 0#1 ++
    BitVec.ofFin (w := 3) a ++ 0#1 ++ BitVec.ofFin (w := 3) d ++ o.code

/-- A parameter word from its fields (R92). DESIGN CHOICE (log 17): a set `reserved`, which R105 has no word for, is written
as bit 31, so that the word is refused as the command is. -/
def paramWord (mcode : BitVec 3) (kidx : BitVec 5) (rate : BitVec 2) (reserved : Bool) : Word :=
  BitVec.ofBool reserved ++ 0#13 ++ rate ++ 0#3 ++ kidx ++ 0#5 ++ mcode

/-- The two words of a command, CMD then PARAM, with every field the command does not read 0: RATE of PERM and KIDX of ASMH
among them (R105). -/
def encode : Instr → Word × Word
  | .nop => (cmdWord .nop 0 0 0 0 false false, 0)
  | .perm d x p => (cmdWord .perm d 0 0 0 x false, paramWord p.mcode p.kidx 0 p.reserved)
  | .asmh d p => (cmdWord .asmh d 0 0 0 false false, paramWord p.mcode 0 p.rate p.reserved)
  | .inv d a sc => (cmdWord .inv d a 0 sc false false, 0)
  | .mul d a b x t => (cmdWord .mul d a b 0 x t, 0)
  | .zero d => (cmdWord .zero d 0 0 0 false false, 0)
  | .ident d x => (cmdWord .ident d 0 0 0 x false, 0)
  | .copy d a t => (cmdWord .copy d a 0 0 false t, 0)
  | .add d a b => (cmdWord .add d a b 0 false false, 0)

end Sys2Proof
end

