-- ==== Sys2Proof/Machine/BitMat.lean ====
section
/-! DEFINITION. Bit matrices over GF(2) (00_scope.md R13), one number a row: bit c of the number is column c, as the packed
rows of 20_memory.md R62 are. -/

namespace Sys2Proof.Machine

/-- A matrix as its rows, row 0 first. -/
abbrev BitMat := List Nat

/-- Row r; a row outside the matrix is zero. -/
def BitMat.row (X : BitMat) (r : Nat) : Nat := X.getD r 0

/-- The element X[r][c] (R13). -/
def BitMat.at (X : BitMat) (r c : Nat) : Bool := (BitMat.row X r).testBit c

/-- A row of `n` columns from its elements. -/
def rowOf (f : Nat → Bool) : Nat → Nat
  | 0 => 0
  | n + 1 => (f 0).toNat + 2 * rowOf (fun c => f (c + 1)) n

/-- The matrix of m rows and n columns with the elements f r c. -/
def BitMat.ofFn (m n : Nat) (f : Nat → Nat → Bool) : BitMat := (List.range m).map fun r => rowOf (f r) n

/-- The zero matrix of m rows (R13). -/
def BitMat.zero (m : Nat) : BitMat := List.replicate m 0

/-- The identity matrix I_n (R13). -/
def BitMat.ident (n : Nat) : BitMat := (List.range n).map fun r => 1 <<< r

/-- `X ⊕ Y`, for two matrices of one shape (R13). -/
def BitMat.xor (X Y : BitMat) : BitMat := List.zipWith (· ^^^ ·) X Y

/-- The XOR of the rows t of B whose bit t of `a` is set (44_multiply.md R222). -/
def BitMat.mulRow (a : Nat) : BitMat → Nat
  | [] => 0
  | b :: bs => (if a.testBit 0 then b else 0) ^^^ BitMat.mulRow (a / 2) bs

/-- `X · Y`: row i of the product is the XOR of the rows of Y that row i of X selects (R13, 44_multiply.md R222). -/
def BitMat.mul (X Y : BitMat) : BitMat := X.map fun a => BitMat.mulRow a Y

/-- Column c as a row. -/
def BitMat.column (X : BitMat) (c : Nat) : Nat :=
  match X with
  | [] => 0
  | x :: xs => (x.testBit c).toNat + 2 * BitMat.column xs c

/-- The transpose of a matrix of n columns (R13). -/
def BitMat.transpose (X : BitMat) (n : Nat) : BitMat := (List.range n).map fun c => BitMat.column X c

end Sys2Proof.Machine
end

