-- ==== Sys2Proof/Config.lean ====
section
/-! DEFINITION. What an implementation of GLME fixes (00_scope.md R9) and the values the spec leaves free. -/

namespace Sys2Proof

/-- A free bit (93_implementation_defined.md U1 to U5): bit number `bit` of matrix memory as the draw number `draw`
left it. It has no body, so no proof can know its value (log 4). -/
opaque Config.anyBit (draw bit : Nat) : Bool

/-- An entry of THETA_TABLE the source does not give (91_not_in_source.md N2); no body (log 6). -/
opaque Config.openTheta (index : Nat) : Nat

/-- An entry of PHI_TABLE the source does not give (91_not_in_source.md N1); no body (log 6). -/
opaque Config.openPhi (j mcode index : Nat) : Nat

/-- The open parameters of R9 that a rule depends on: the size of matrix memory in words and the two shift tables.
`theta` is indexed by k − 1 and `phi` by the quadrant j, then MCODE, then k − 1 (41_permutation.md R161).
A state carries its parameters and no step changes them. -/
structure Params where
  mmemWords : Nat
  theta : List Nat
  phi : List (List (List Nat))
deriving DecidableEq, Repr

/-- The ranges R9 gives: MMEM_WORDS in [1, 2^31], 26 entries of theta in {0, 1, 2, 3}, and 4 × 7 × 26 entries of phi,
those of MCODE m in [0, M/4) with M = 128·2^m. -/
abbrev Params.inRange (p : Params) : Prop :=
  (1 ≤ p.mmemWords ∧ p.mmemWords ≤ 2 ^ 31) ∧
  (p.theta.length = 26 ∧ ∀ t ∈ p.theta, t < 4) ∧
  p.phi.length = 4 ∧
  ∀ byM ∈ p.phi, byM.length = 7 ∧
    ∀ m < 7, (byM.getD m []).length = 26 ∧ ∀ v ∈ byM.getD m [], v < 32 * 2 ^ m

/-- The two table entries the source fixes: theta[0] = 3 and phi[0][128][0] = 1 (R9, 41_permutation.md R161). -/
abbrev Params.sourced (p : Params) : Prop :=
  p.theta.getD 0 0 = 3 ∧ ((p.phi.getD 0 []).getD 0 []).getD 0 0 = 1

/-- THETA_TABLE of the reset state: the sourced entry, then 25 open entries kept in range (log 6). -/
def Params.openThetaTable : List Nat :=
  3 :: (List.range 25).map (fun n => Config.openTheta (n + 1) % 4)

/-- PHI_TABLE of the reset state: the sourced entry phi[0][128][0] = 1, every other entry open and kept in range (log 6). -/
def Params.openPhiTable : List (List (List Nat)) :=
  (List.range 4).map fun j => (List.range 7).map fun m => (List.range 26).map fun n =>
    if j = 0 ∧ m = 0 ∧ n = 0 then 1 else Config.openPhi j m n % (32 * 2 ^ m)

/-- The parameters of the reset state: 1024 words, the size the spec's test vectors use (DESIGN CHOICE, log 5), and the
open tables. -/
def Params.default : Params :=
  { mmemWords := 1024, theta := Params.openThetaTable, phi := Params.openPhiTable }

/-- The default THETA_TABLE of 41_permutation.md R167, from general knowledge and not from the source: a named premise
for tests, never used by the machine (log 6). -/
def Params.recalledTheta : List Nat :=
  [3, 0, 1, 2, 2, 3, 0, 1, 0, 1, 2, 0, 2, 3, 0, 1, 2, 0, 1, 2, 0, 1, 2, 1, 2, 3]

end Sys2Proof
end

