-- ==== Sys2Proof/Machine/State.lean ====
section
/-! DEFINITION. The state of GLME as plain data (10_state.md R20), the reasons a step can stop, and the reset state
(70_reset_and_hazards.md R300, R301). -/

namespace Sys2Proof.Machine

/-- A matrix descriptor (R35 to R38): BASE has 32 bits, ROWS, COLS and STRIDE have 24. -/
structure Desc where
  base : BitVec 32
  rows : BitVec 24
  cols : BitVec 24
  stride : BitVec 24
deriving DecidableEq, Repr

/-- What START latches (R41): CMD, PARAM and the 32 descriptor fields. -/
structure Snap where
  cmd : Word
  param : Word
  md : Vector Desc 8
deriving DecidableEq, Repr

/-- The engine state ENG (R41). -/
inductive Engine where
  | idle
  | busy (snap : Snap)
deriving DecidableEq, Repr

/-- The outcome codes STATUS.ERRCODE reports (60_exceptions.md R270); the reserved codes 7 to 15 are never reported. -/
inductive ErrCode where
  | none | badOpcode | invalidParam | badDesc | shapeMismatch | overlap | singular
deriving DecidableEq, Repr

/-- The width of a host access (20_memory.md R68). -/
inductive Width where
  | w8 | w16 | w32
deriving DecidableEq, Repr

/-- What reaches the machine from outside, and the engine's turn (00_scope.md R15, R19; log 1). A host access names a byte
offset of the 4096-byte register window (R23). -/
inductive Input where
  | read (w : Width) (off : BitVec 12)
  | write (w : Width) (off : BitVec 12) (v : Word)
  | complete
  | powerOn
deriving DecidableEq, Repr

/-- The bus response to an access: the data of a read (none for a write) and whether the response is the error response
SLVERR (20_memory.md R68, 40_host_interface.md R120; log 2). -/
structure Response where
  data : Option Word
  slverr : Bool
deriving DecidableEq, Repr

/-- Matrix memory as bytes: byte lane b of word a at key 4·a + b (20_memory.md R67), listed once it is written (log 3). -/
abbrev Memory := List Host.Cell

/-- The state of GLME (R20), with the model's own fields at the end (log 1, log 2, log 4). -/
structure State where
  /-- CTRL.IRQEN (R26). -/
  irqen : Bool
  /-- STATUS.DONE (R27). -/
  done : Bool
  /-- STATUS.OVR (R27). -/
  ovr : Bool
  /-- STATUS.AERR (R27). -/
  aerr : Bool
  /-- STATUS.ERRCODE (R27, R270). -/
  errcode : ErrCode
  /-- ERRINFO (R30). -/
  errinfo : Word
  /-- CMD (R28). -/
  cmd : Word
  /-- PARAM (R29). -/
  param : Word
  /-- MADDR (R31). -/
  maddr : Word
  /-- The descriptor file MD0 to MD7 (R22, R35 to R38). -/
  md : Vector Desc 8
  /-- Matrix memory MM (R39). -/
  mm : Memory
  /-- MMEM_WORDS, THETA_TABLE and PHI_TABLE (00_scope.md R9, R33, R40); no step changes them. -/
  cfg : Params
  /-- The engine state ENG (R41). -/
  eng : Engine
  /-- The model's own: what still arrives from outside, in order (log 1). -/
  inputs : List Input
  /-- The model's own: the response to the last access (log 2). -/
  resp : Option Response
  /-- The model's own: the draw that gave MM its power-on contents (log 4). -/
  powerDraw : Nat
  /-- The model's own: the number of the next free draw (log 4). -/
  draws : Nat
deriving DecidableEq, Repr

/-- Reasons the machine stops with a fault. No error stops GLME (60_exceptions.md R271). -/
inductive Fault where
  /-- The engine formed a word address at or above MMEM_WORDS. 20_memory.md R61 says it never does, and no meaning of this
  model raises it: validation refuses such a descriptor first (R134). Safe (log 14). -/
  | engineAddressOutsideMemory (wordAddress : Nat)
deriving DecidableEq, Repr

/-- Reasons the model gives an instruction no meaning. -/
inductive Refusal where
  /-- Raised by an arm of `exec` whose instruction has no meaning yet. Safe: the machine stops where the hardware goes on.
  No arm raises it in this model (log 14). -/
  | notModelled (mnemonic : String)
deriving DecidableEq, Repr

/-- A descriptor after reset: every field 0 (R301). -/
def Desc.zero : Desc := { base := 0, rows := 0, cols := 0, stride := 0 }

/-- The state after power-on reset (R300, R301) with given parameters and nothing arriving from outside. Matrix memory
lists nothing: every word is unspecified. -/
def State.powerOnWith (cfg : Params) : State :=
  { irqen := false
    done := false
    ovr := false
    aerr := false
    errcode := .none
    errinfo := 0
    cmd := 0
    param := 0
    maddr := 0
    md := Vector.replicate 8 Desc.zero
    mm := []
    cfg := cfg
    eng := .idle
    inputs := []
    resp := none
    powerDraw := 0
    draws := 1 }

/-- The machine right after power-on reset (R300, R301). -/
def State.reset : State := State.powerOnWith Params.default

end Sys2Proof.Machine
end

