-- ==== Sys2Proof/Machine/Ops.lean ====
section
/-! DEFINITION. The named operations over memory and registers, and the one operation that ends a command, in error or not
(00_scope.md R12, R14; 40_host_interface.md R131; 60_exceptions.md R277). -/

namespace Sys2Proof.Machine

/-! Matrix memory -/

/-- The value listed for a byte address, if any. -/
def Memory.lookup : Memory → Nat → Option Byte
  | [], _ => none
  | (k, b) :: m, a => bif Nat.beq k a then some b else Memory.lookup m a

/-- The entries below an address. -/
def Memory.below (m : Memory) (a : Nat) : Memory := m.takeWhile fun c => Nat.blt c.1 a

/-- The entries at or above an address. -/
def Memory.above (m : Memory) (a : Nat) : Memory := m.dropWhile fun c => Nat.blt c.1 a

/-- Go once through the `n` addresses from `a` up and list the byte `f` gives for an address, keeping the entry that stands
there where `f` gives none. -/
def Memory.patch (f : Nat → Option Byte) : Nat → Nat → Memory → Memory
  | 0, _, m => m
  | n + 1, a, m =>
    match f a with
    | some v => m.below a ++ (a, v) :: Memory.patch f n (a + 1) (m.above (a + 1))
    | none => m.below (a + 1) ++ Memory.patch f n (a + 1) (m.above (a + 1))

/-- The canonical form: addresses strictly rising and inside MM. An unlisted byte reads as no listed value at all, so no
entry can equal it and every entry stands for a written byte (log 3). -/
abbrev Memory.wf (words : Nat) (m : Memory) : Prop :=
  m.Pairwise (fun x y => x.1 < y.1) ∧ ∀ c ∈ m, c.1 < 4 * words

/-- Eight bits as a byte, bit i from `f i`. -/
def byteOf (f : Nat → Bool) : Byte :=
  BitVec.ofNat 8 ((f 0).toNat + 2 * ((f 1).toNat + 2 * ((f 2).toNat + 2 * ((f 3).toNat + 2 * ((f 4).toNat +
    2 * ((f 5).toNat + 2 * ((f 6).toNat + 2 * (f 7).toNat)))))))

/-- What an unlisted byte of MM reads as: the free bits of the draw that gave MM its power-on contents
(70_reset_and_hazards.md R300, 93_implementation_defined.md U1; log 3, log 4). -/
def powerOnByte (draw a : Nat) : Byte := byteOf fun i => Config.anyBit draw (8 * a + i)

/-- One byte of matrix memory. -/
def State.readByte (s : State) (a : Nat) : Byte :=
  match Memory.lookup s.mm a with
  | some b => b
  | none => powerOnByte s.powerDraw a

/-- Store the bytes `f` gives among the `n` byte addresses from `a` up. Outside MM there is no cell to store to
(20_memory.md R61; log 11). -/
def State.patch (s : State) (a n : Nat) (f : Nat → Option Byte) : State :=
  { s with mm := Memory.patch f (min n (4 * s.cfg.mmemWords - a)) a s.mm }

/-- `MemRead(a, 1)`: the word at word address a, byte lane 0 lowest (00_scope.md R12, 20_memory.md R67). -/
def State.readWord (s : State) (a : Nat) : Word :=
  s.readByte (4 * a + 3) ++ s.readByte (4 * a + 2) ++ s.readByte (4 * a + 1) ++ s.readByte (4 * a)

/-- Byte lane `k` of a word (20_memory.md R67). -/
def lane (v : Word) (k : Nat) : Byte := v.extractLsb' (8 * k) 8

/-- `MemWrite(a, 1, v)` (00_scope.md R12, 20_memory.md R67). -/
def State.writeWord (s : State) (a : Nat) (v : Word) : State :=
  s.patch (4 * a) 4 fun k => some (lane v (k - 4 * a))

/-! The latched command -/

/-- What a command reads: the snapshot START latched. An engine that is idle has none; there it is what a START would
latch now (10_state.md R41, 40_host_interface.md R130; log 9). -/
def State.latched (s : State) : Snap :=
  match s.eng with
  | .busy snap => snap
  | .idle => { cmd := s.cmd, param := s.param, md := s.md }

/-- The descriptor operand an index field names: the latched copy (30_encoding.md R94). -/
def State.operand (s : State) (i : DescIx) : Desc := s.latched.md[i]

/-! Ending a command -/

/-- An outcome other than success: the code and its ERRINFO (60_exceptions.md R270). -/
structure ErrorReport where
  code : ErrCode
  info : Word
deriving DecidableEq, Repr

/-- The completion step's record (R131, R277): ERRCODE, ERRINFO, BUSY = 0, DONE = 1. -/
def State.finish (s : State) (code : ErrCode) (info : Word) : State :=
  { s with errcode := code, errinfo := info, eng := .idle, done := true }

/-- `raise <Error>(info)`: the one operation every command error goes through (R14, R271, R277). Nothing else is saved, no
mode changes and control goes nowhere; GLME has no return from an error (R278), only the host's clearing of DONE. -/
def State.raise (s : State) (e : ErrorReport) : State := s.finish e.code e.info

/-- `complete`: the command ends with code 0 and ERRINFO 0 (R14, R131). -/
def State.complete (s : State) : State := s.finish .none 0

/-! Start and reset -/

/-- `Start()` (R130). -/
def State.start (s : State) : State :=
  { s with eng := .busy { cmd := s.cmd, param := s.param, md := s.md }, done := false, errcode := .none, errinfo := 0 }

/-- Every register at its reset value and the engine idle (70_reset_and_hazards.md R301, R302). MM, the tables and what
arrives from outside stay. -/
def State.resetRegisters (s : State) : State :=
  { s with
    irqen := false
    done := false
    ovr := false
    aerr := false
    errcode := .none
    errinfo := 0
    cmd := 0
    param := 0
    maddr := 0
    md := Vector.replicate 8 Desc.zero
    eng := .idle }

/-- Power-on reset while the machine stands (R300): the registers at their reset values and every word of MM unspecified
anew, from a draw of its own (log 4, log 13). -/
def State.powerOnReset (s : State) : State :=
  { s.resetRegisters with mm := [], powerDraw := s.draws, draws := s.draws + 1, resp := none }

end Sys2Proof.Machine
end

