-- ==== Sys2Proof/Machine/Operands.lean ====
section
/-! DEFINITION. Operand forms: descriptors and the elements they name (20_memory.md R62 to R65), the codes of the parameter
word (30_encoding.md R95 to R97), and the checks every command goes through (40_host_interface.md R133 to R136). -/

namespace Sys2Proof.Machine

/-! Descriptors -/

/-- Words a row occupies: ceil_div(COLS, 32). -/
def Desc.rowWords (d : Desc) : Nat := ceilDiv d.cols.toNat 32

/-- `addr(d, r, c)` (R62). -/
def Desc.addr (d : Desc) (r c : Nat) : Nat := d.base.toNat + r * d.stride.toNat + c / 32

/-- The number of the bit of MM that holds element (r, c): bits of MM count from bit 0 of word 0 (R62). -/
def Desc.bitIndex (d : Desc) (r c : Nat) : Nat := 32 * d.addr r c + c % 32

/-- The end of the span (R63); its start is BASE. -/
def Desc.spanEnd (d : Desc) : Nat := d.base.toNat + (d.rows.toNat - 1) * d.stride.toNat + d.rowWords

/-- Two descriptors overlap when their spans share a word (R63). -/
def Desc.overlaps (d e : Desc) : Bool :=
  decide (max d.base.toNat e.base.toNat < min d.spanEnd e.spanEnd)

/-- Two descriptors are identical when all four fields are equal (R63). -/
def Desc.identical (d e : Desc) : Bool := decide (d = e)

/-- `DescValid(d)`, over unbounded naturals (R134). -/
def Desc.valid (words : Nat) (d : Desc) : Bool :=
  decide (1 ≤ d.rows.toNat) && decide (1 ≤ d.cols.toNat) && decide (d.rowWords ≤ d.stride.toNat) &&
    decide (d.spanEnd ≤ words)

/-- The descriptor of the block of `rows` × `cols` elements at row r0 and column c0 of a matrix, c0 a multiple of 32
(45_matrix_utility.md R245). -/
def Desc.block (d : Desc) (r0 c0 : Nat) (rows cols : BitVec 24) : Desc :=
  { base := BitVec.ofNat 32 (d.base.toNat + r0 * d.stride.toNat + c0 / 32), rows := rows, cols := cols, stride := d.stride }

/-! Elements -/

/-- `Bit(d, r, c)` (R62). -/
def State.bit (s : State) (d : Desc) (r c : Nat) : Bool := (s.readWord (d.addr r c)).getLsbD (c % 32)

/-- Row r of the matrix, from the bytes that hold it, without the bits above its last column (R62, R65, R67). -/
def State.readRow (s : State) (d : Desc) (r : Nat) : Nat :=
  (List.range (ceilDiv d.cols.toNat 8)).foldr
    (fun k acc => (s.readByte (4 * d.addr r 0 + k)).toNat + 256 * acc) 0 % 2 ^ d.cols.toNat

/-- `Mat(d)` (R65). -/
def State.mat (s : State) (d : Desc) : BitMat := (List.range d.rows.toNat).map (s.readRow d)

/-- The element of d that bit number `n` of MM holds, if any: the row is the last one that starts at or before the bit, and
the column is the distance from the start of that row (R62). In a valid descriptor no other row could hold it (R134). -/
def Desc.elementAt (d : Desc) (n : Nat) : Option (Nat × Nat) :=
  let start := 32 * d.base.toNat
  let pitch := 32 * d.stride.toNat
  let r := min (d.rows.toNat - 1) ((n - start) / pitch)
  let c := n - start - r * pitch
  if start ≤ n ∧ 1 ≤ d.rows.toNat ∧ c < d.cols.toNat then some (r, c) else none

/-- The byte `a` of MM after a store of x through d: each element it holds is new and every other bit old; none where it
holds no element (R64). -/
def State.storedByte (s : State) (d : Desc) (x : Nat → Nat → Bool) (a : Nat) : Option Byte :=
  if (List.range 8).any fun i => (d.elementAt (8 * a + i)).isSome then
    some (byteOf fun i =>
      match d.elementAt (8 * a + i) with
      | some (r, c) => x r c
      | none => (s.readByte a).getLsbD i)
  else none

/-- `Store(d, X)` (R64): every element of d becomes X[r][c] and no other bit of MM changes. -/
def State.store (s : State) (d : Desc) (x : Nat → Nat → Bool) : State :=
  s.patch (4 * d.base.toNat) (4 * (d.spanEnd - d.base.toNat)) (s.storedByte d x)

/-- Leave the elements of each listed descriptor unspecified, all from one new draw: `elements <- any` (R138; log 4). -/
def State.scramble (s : State) (ds : List Desc) : State :=
  let s' := ds.foldl (fun s' d => s'.store d fun r c => Config.anyBit s.draws (d.bitIndex r c)) s
  { s' with draws := s.draws + 1 }

/-! The codes of the parameter word -/

/-- M = 128 · 2^MCODE (R95); MCODE 7 selects no size and is refused before a size is used. -/
def matrixSize (mcode : BitVec 3) : Nat := 128 * 2 ^ mcode.toNat

/-- bigK, the number of information block columns of a rate (R97); RATE 3 selects none. -/
def bigK (rate : BitVec 2) : Option Nat :=
  match rate.toNat with
  | 0 => some 2
  | 1 => some 4
  | 2 => some 8
  | _ => none

/-- The PERM parameter check (41_permutation.md R162). -/
def permParamOk (p : PermParam) : Bool :=
  decide (p.mcode.toNat ≤ 6) && decide (1 ≤ p.kidx.toNat) && decide (p.kidx.toNat ≤ 26) && !p.reserved

/-- The supported pairs of size and rate: bigK · M is 1024, 4096 or 16384 (42_assembler.md R181). -/
def supportedPair (m k : Nat) : Bool := decide (k * m = 1024) || decide (k * m = 4096) || decide (k * m = 16384)

/-- The ASMH parameter check (42_assembler.md R182). -/
def asmhParamOk (p : AsmhParam) : Bool :=
  match bigK p.rate with
  | none => false
  | some k => decide (p.mcode.toNat ≤ 6) && supportedPair (matrixSize p.mcode) k && !p.reserved

/-! Validation -/

/-- The first of the listed descriptor operands that is not valid, in role order (R133). -/
def State.firstBadDesc (s : State) : List DescIx → Option DescIx
  | [] => none
  | i :: is => if (s.operand i).valid s.cfg.mmemWords then s.firstBadDesc is else some i

/-- The checks after decoding, in their fixed order; the first that fails is reported (R133, 60_exceptions.md R275). -/
def State.validate (s : State) (paramOk : Bool) (roles : List DescIx) (shapeOk overlapBad : Bool) : Option ErrorReport :=
  if !paramOk then some ⟨.invalidParam, 0⟩
  else
    match s.firstBadDesc roles with
    | some i => some ⟨.badDesc, BitVec.ofNat 32 i.val⟩
    | none =>
      if !shapeOk then some ⟨.shapeMismatch, 0⟩
      else if overlapBad then some ⟨.overlap, 0⟩
      else none

/-- A command that cannot fail after validation (R132): the error validation found, with MM unchanged (R137), or its effect
and completion. -/
def State.runChecked (s : State) (err : Option ErrorReport) (effect : State → State) : Host.Outcome State Fault Refusal :=
  match err with
  | some e => .next (s.raise e)
  | none => .next (effect s).complete

/-- The descriptors whose elements a command may write (R138). -/
def writeRoles : Instr → List DescIx
  | .nop => []
  | .perm d _ _ => [d]
  | .asmh d _ => [d]
  | .inv d _ sc => [d, sc]
  | .mul d _ _ _ _ => [d]
  | .zero d => [d]
  | .ident d _ => [d]
  | .copy d _ _ => [d]
  | .add d _ _ => [d]

/-- The descriptors of the write set of a latched command; a word that does not decode has none (R100, R138; log 11). -/
def Snap.writeSet (snap : Snap) : List Desc :=
  match decode snap.cmd snap.param with
  | .ok i => (writeRoles i).map fun k => snap.md[k]
  | .error _ => []

end Sys2Proof.Machine
end

