-- ==== Sys2Proof/Machine/Permutation.lean ====
section
/-! DEFINITION. The circulant permutation builder PERM (41_permutation.md). -/

namespace Sys2Proof.Machine

/-- theta[k − 1] (R161). -/
def thetaAt (p : Params) (k : Nat) : Nat := p.theta.getD (k - 1) 0

/-- phi[j][M][k − 1], stored under MCODE (R161). -/
def phiAt (p : Params) (j mcode k : Nat) : Nat := ((p.phi.getD j []).getD mcode []).getD (k - 1) 0

/-- `π_k(i)`, the column of the 1 in row i of the permutation sub-matrix of size M = 128 · 2^mcode (R160). -/
def permColumn (p : Params) (mcode k i : Nat) : Nat :=
  let m := 128 * 2 ^ mcode
  let j := 4 * i / m
  m / 4 * ((thetaAt p k + j) % 4) + (phiAt p j mcode k + i) % (m / 4)

/-- The permutation sub-matrix Π_k of size M = 128 · 2^mcode (R160). -/
def permMatrix (p : Params) (mcode k : Nat) : BitMat :=
  (List.range (128 * 2 ^ mcode)).map fun i => 1 <<< permColumn p mcode k i

/-- PERM (R163): D := Π_k, or D ⊕ Π_k with X. -/
def execPerm (d : DescIx) (x : Bool) (p : PermParam) (s : State) : Host.Outcome State Fault Refusal :=
  let dd := s.operand d
  let m := matrixSize p.mcode
  s.runChecked (s.validate (permParamOk p) [d] (decide (dd.rows.toNat = m) && decide (dd.cols.toNat = m)) false)
    fun s =>
      let pi := permMatrix s.cfg p.mcode.toNat p.kidx.toNat
      let out := if x then (s.mat dd).xor pi else pi
      s.store dd (BitMat.at out)

end Sys2Proof.Machine
end

