-- ==== Sys2Proof/Machine/Assembler.lean ====
section
/-! DEFINITION. The parity-check matrix assembler ASMH (42_assembler.md). The three templates are the spec's passages from
general knowledge (93_implementation_defined.md G2 to G4; log 7). -/

namespace Sys2Proof.Machine

/-- A term of a block's sum: I_M or Π_k (R180). -/
inductive BlockTerm where
  | ident
  | perm (k : Nat)
deriving DecidableEq, Repr

/-- A block as the sum of its terms; no term is the zero block (R180). -/
abbrev Block := List BlockTerm

/-- The zero block, the identity block, I ⊕ Π_k, and a sum of permutation blocks. -/
def zeroBlock : Block := []
def identBlock : Block := [.ident]
def identPlus (k : Nat) : Block := [.ident, .perm k]
def permSum (ks : List Nat) : Block := ks.map .perm

/-- The rate-1/2 template (R184), PRESUMED by the spec (G2; log 7). -/
def templateHalf : List (List Block) :=
  [[zeroBlock, zeroBlock, identBlock, zeroBlock, identPlus 1],
   [identBlock, identBlock, zeroBlock, identBlock, permSum [2, 3, 4]],
   [identBlock, permSum [5, 6], zeroBlock, permSum [7, 8], identBlock]]

/-- The block columns rate 2/3 puts before those of rate 1/2 (R185), PRESUMED by the spec (G3; log 7). -/
def extraTwoThirds : List (List Block) :=
  [[zeroBlock, zeroBlock],
   [permSum [9, 10, 11], identBlock],
   [identBlock, permSum [12, 13, 14]]]

/-- The block columns rate 4/5 puts before those of rate 2/3 (R186), PRESUMED by the spec (G4; log 7). -/
def extraFourFifths : List (List Block) :=
  [[zeroBlock, zeroBlock, zeroBlock, zeroBlock],
   [permSum [21, 22, 23], identBlock, permSum [15, 16, 17], identBlock],
   [identBlock, permSum [24, 25, 26], identBlock, permSum [18, 19, 20]]]

/-- Block columns side by side, row by row: `[X | Y]` of templates. -/
def besideBlocks (x y : List (List Block)) : List (List Block) := List.zipWith (· ++ ·) x y

/-- `[X_2/3 | H_1/2]` (R185). -/
def templateTwoThirds : List (List Block) := besideBlocks extraTwoThirds templateHalf

/-- `[X_4/5 | H_2/3]` (R186). -/
def templateFourFifths : List (List Block) := besideBlocks extraFourFifths templateTwoThirds

/-- The template of a rate (R187); RATE 3 selects none and is refused before a template is used. -/
def template (rate : BitVec 2) : List (List Block) :=
  match rate.toNat with
  | 0 => templateHalf
  | 1 => templateTwoThirds
  | 2 => templateFourFifths
  | _ => []

/-- The column of the 1 that a term puts in row i. -/
def BlockTerm.column (p : Params) (mcode i : Nat) : BlockTerm → Nat
  | .ident => i
  | .perm k => permColumn p mcode k i

/-- Row i of a block: the XOR of its terms (R187). -/
def blockRow (p : Params) (mcode i : Nat) (b : Block) : Nat :=
  b.foldr (fun t acc => (1 <<< t.column p mcode i) ^^^ acc) 0

/-- Row i of a block row: its blocks side by side, block bc at columns bc·M and up (R180). -/
def templateRow (p : Params) (mcode i : Nat) : List Block → Nat
  | [] => 0
  | b :: bs => blockRow p mcode i b ^^^ (templateRow p mcode i bs <<< (128 * 2 ^ mcode))

/-- The matrix H of a template at size M: row br·M + i is row i of block row br (R180, R183). -/
def assembleH (p : Params) (mcode : Nat) (t : List (List Block)) : BitMat :=
  t.flatMap fun blocks => (List.range (128 * 2 ^ mcode)).map fun i => templateRow p mcode i blocks

/-- Rows of H: 3M (00_scope.md R10, 90_conflicts.md C1). -/
def hRows (m : Nat) : Nat := 3 * m

/-- Columns of H: (bigK + 3)·M (00_scope.md R10, 90_conflicts.md C1). -/
def hCols (k m : Nat) : Nat := (k + 3) * m

/-- The code dimension kdim = bigK·M (00_scope.md R10). -/
def codeDimension (k m : Nat) : Nat := k * m

/-- The transmitted length n = (bigK + 2)·M (00_scope.md R10). -/
def codeLength (k m : Nat) : Nat := (k + 2) * m

/-- The descriptor of the parity block P, the last 3M columns of an H that `d` names (43_invert.md R206). -/
def Desc.parityBlock (d : Desc) (k m : Nat) : Desc :=
  d.block 0 (k * m) (BitVec.ofNat 24 (3 * m)) (BitVec.ofNat 24 (3 * m))

/-- ASMH (R183): D := H for the rate at size M. -/
def execAsmh (d : DescIx) (p : AsmhParam) (s : State) : Host.Outcome State Fault Refusal :=
  let dd := s.operand d
  let m := matrixSize p.mcode
  let k := (bigK p.rate).getD 0
  s.runChecked
    (s.validate (asmhParamOk p) [d] (decide (dd.rows.toNat = hRows m) && decide (dd.cols.toNat = hCols k m)) false)
    fun s => s.store dd (BitMat.at (assembleH s.cfg p.mcode.toNat (template p.rate)))

end Sys2Proof.Machine
end

