-- ==== Sys2Proof/Machine/Invert.lean ====
section
/-! DEFINITION. The GF(2) inverter INV (43_invert.md), by the spec's reference algorithm (R203; log 12). -/

namespace Sys2Proof.Machine

/-- A row of the augmented matrix `[A | I]`: its left and its right half. -/
abbrev AugRow := Nat × Nat

/-- The first column of a row that holds a 1: `min { j : L[i][j] = 1 }` (R203). -/
def firstOne (n x : Nat) : Option Nat := (List.range n).find? fun j => x.testBit j

/-- Eliminate pivot column c from every row but row i by XORing row i, `p`, onto it; the rows given count from `r` (R203). -/
def clearColumn (i c : Nat) (p : AugRow) : (r : Nat) → List AugRow → List AugRow
  | _, [] => []
  | r, x :: xs =>
    (bif Nat.beq r i || !x.1.testBit c then x else (x.1 ^^^ p.1, x.2 ^^^ p.2)) :: clearColumn i c p (r + 1) xs

/-- The loop of R203 over the rows i, i + 1, … for `fuel` rows: the row at which the left half is zero, or the final rows and
the pivot column of each row. -/
def eliminate (n : Nat) : Nat → Nat → List AugRow → List Nat → Except Nat (List AugRow × List Nat)
  | 0, _, rows, piv => .ok (rows, piv)
  | fuel + 1, i, rows, piv =>
    match firstOne n (rows.getD i (0, 0)).1 with
    | none => .error i
    | some c => eliminate n fuel (i + 1) (clearColumn i c (rows.getD i (0, 0)) 0 rows) (piv ++ [c])

/-- `Out[piv[i]] := R[i]` for every i (R203). -/
def reorderRows (n : Nat) (rows : List AugRow) (piv : List Nat) : BitMat :=
  (List.zip piv rows).foldl (fun out cr => out.set cr.1 cr.2.2) (BitMat.zero n)

/-- The inverse of an n × n matrix, or the index SINGULAR reports (R200, R202, R203). -/
def invertMatrix (n : Nat) (A : BitMat) : Except Nat BitMat :=
  match eliminate n n 0 (List.zip A (BitMat.ident n)) [] with
  | .error i => .error i
  | .ok (rows, piv) => .ok (reorderRows n rows piv)

/-- The shape check of INV: A, D and S are n × n for one n (R200). -/
def invShapeOk (dd da ds : Desc) : Bool :=
  decide (da.rows = da.cols) && decide (dd.rows = da.rows) && decide (dd.cols = da.rows) &&
    decide (ds.rows = da.rows) && decide (ds.cols = da.rows)

/-- INV (R200): D := A⁻¹ and S := any (R205), or SINGULAR(i) with D and S any (R138). -/
def execInv (d a sc : DescIx) (s : State) : Host.Outcome State Fault Refusal :=
  let dd := s.operand d
  let da := s.operand a
  let ds := s.operand sc
  match s.validate true [d, a, sc] (invShapeOk dd da ds) (dd.overlaps da || dd.overlaps ds || da.overlaps ds) with
  | some e => .next (s.raise e)
  | none =>
    match invertMatrix da.rows.toNat (s.mat da) with
    | .error i => .next ((s.scramble [dd, ds]).raise ⟨.singular, BitVec.ofNat 32 i⟩)
    | .ok inverse => .next ((s.store dd (BitMat.at inverse)).scramble [ds]).complete

end Sys2Proof.Machine
end

