-- ==== Sys2Proof/Machine/Multiply.lean ====
section
/-! DEFINITION. The binary matrix multiplier MUL (44_multiply.md). -/

namespace Sys2Proof.Machine

/-- The shape check of MUL (R220). -/
def mulShapeOk (t : Bool) (dd da db : Desc) : Bool :=
  decide (da.cols = db.rows) &&
    if t then decide (dd.rows = db.cols) && decide (dd.cols = da.rows)
    else decide (dd.rows = da.rows) && decide (dd.cols = db.cols)

/-- MUL (R220): D := A·B, transposed with T, added to the old D with X. -/
def execMul (d a b : DescIx) (x t : Bool) (s : State) : Host.Outcome State Fault Refusal :=
  let dd := s.operand d
  let da := s.operand a
  let db := s.operand b
  s.runChecked (s.validate true [d, a, b] (mulShapeOk t dd da db) (dd.overlaps da || dd.overlaps db))
    fun s =>
      let product := (s.mat da).mul (s.mat db)
      let result := if t then product.transpose db.cols.toNat else product
      let out := if x then (s.mat dd).xor result else result
      s.store dd (BitMat.at out)

end Sys2Proof.Machine
end

