-- ==== Sys2Proof/Machine/Utility.lean ====
section
/-! DEFINITION. The matrix utility commands NOP, ZERO, IDENT, COPY and ADD (45_matrix_utility.md). -/

namespace Sys2Proof.Machine

/-- NOP (R240): only the completion. -/
def execNop (s : State) : Host.Outcome State Fault Refusal := .next s.complete

/-- ZERO (R241): every element of D becomes 0. -/
def execZero (d : DescIx) (s : State) : Host.Outcome State Fault Refusal :=
  let dd := s.operand d
  s.runChecked (s.validate true [d] true false) fun s => s.store dd (BitMat.at (BitMat.zero dd.rows.toNat))

/-- IDENT (R242): D := I_n, or D ⊕ I_n with X. -/
def execIdent (d : DescIx) (x : Bool) (s : State) : Host.Outcome State Fault Refusal :=
  let dd := s.operand d
  s.runChecked (s.validate true [d] (decide (dd.rows = dd.cols)) false)
    fun s =>
      let one := BitMat.ident dd.rows.toNat
      let out := if x then (s.mat dd).xor one else one
      s.store dd (BitMat.at out)

/-- The shape check of COPY (R243). -/
def copyShapeOk (t : Bool) (dd da : Desc) : Bool :=
  if t then decide (dd.rows = da.cols) && decide (dd.cols = da.rows)
  else decide (dd.rows = da.rows) && decide (dd.cols = da.cols)

/-- The overlap check of COPY and of each source of ADD: an identical source is allowed unless it is transposed (40_host_interface.md R136). -/
def sourceClash (t : Bool) (dd da : Desc) : Bool :=
  if t then dd.overlaps da else dd.overlaps da && !dd.identical da

/-- COPY (R243): D := A, or the transpose of A with T. -/
def execCopy (d a : DescIx) (t : Bool) (s : State) : Host.Outcome State Fault Refusal :=
  let dd := s.operand d
  let da := s.operand a
  s.runChecked (s.validate true [d, a] (copyShapeOk t dd da) (sourceClash t dd da))
    fun s =>
      let out := if t then (s.mat da).transpose da.cols.toNat else s.mat da
      s.store dd (BitMat.at out)

/-- The shape check of ADD (R244). -/
def addShapeOk (dd da db : Desc) : Bool :=
  decide (da.rows = db.rows) && decide (db.rows = dd.rows) && decide (da.cols = db.cols) && decide (db.cols = dd.cols)

/-- ADD (R244): D := A ⊕ B. -/
def execAdd (d a b : DescIx) (s : State) : Host.Outcome State Fault Refusal :=
  let dd := s.operand d
  let da := s.operand a
  let db := s.operand b
  s.runChecked (s.validate true [d, a, b] (addShapeOk dd da db) (sourceClash false dd da || sourceClash false dd db))
    fun s => s.store dd (BitMat.at ((s.mat da).xor (s.mat db)))

end Sys2Proof.Machine
end

