-- ==== Sys2Proof/Machine/Dispatch.lean ====
section
/-! DEFINITION. The meaning of each command (40_host_interface.md R132), one arm a constructor. -/

namespace Sys2Proof.Machine

def exec (i : Instr) (s : State) : Host.Outcome State Fault Refusal :=
  match i with
  | .nop => Sys2Proof.Machine.execNop s
  | .perm d x p => Sys2Proof.Machine.execPerm d x p s
  | .asmh d p => Sys2Proof.Machine.execAsmh d p s
  | .inv d a sc => Sys2Proof.Machine.execInv d a sc s
  | .mul d a b x t => Sys2Proof.Machine.execMul d a b x t s
  | .zero d => Sys2Proof.Machine.execZero d s
  | .ident d x => Sys2Proof.Machine.execIdent d x s
  | .copy d a t => Sys2Proof.Machine.execCopy d a t s
  | .add d a b => Sys2Proof.Machine.execAdd d a b s

end Sys2Proof.Machine
end

