-- ==== Sys2Proof/Machine/Flags.lean ====
section
/-! DEFINITION. The status flags and the interrupt output (10_state.md R26, R27, R42, R43). GLME has no condition codes. -/

namespace Sys2Proof.Machine

/-- The number of an error code (60_exceptions.md R270). -/
def ErrCode.code : ErrCode → BitVec 4
  | .none => 0
  | .badOpcode => 1
  | .invalidParam => 2
  | .badDesc => 3
  | .shapeMismatch => 4
  | .overlap => 5
  | .singular => 6

/-- STATUS.BUSY: 1 exactly when ENG = Busy(_) (R27, R41). -/
def State.busy (s : State) : Bool :=
  match s.eng with
  | .idle => false
  | .busy _ => true

/-- STATUS.ERR: reads (ERRCODE ≠ 0) (R27). -/
def State.err (s : State) : Bool := decide (s.errcode ≠ .none)

/-- The interrupt output, a level: `irq = CTRL.IRQEN AND STATUS.DONE` (R42, 60_exceptions.md R274). -/
def State.irq (s : State) : Bool := s.irqen && s.done

/-- STATUS as it reads (R27, 40_host_interface.md R121). -/
def State.statusWord (s : State) : Word :=
  0#20 ++ s.errcode.code ++ 0#3 ++ BitVec.ofBool s.aerr ++ BitVec.ofBool s.ovr ++ BitVec.ofBool s.err ++
    BitVec.ofBool s.done ++ BitVec.ofBool s.busy

/-- CTRL as it reads: IRQEN in bit 2, START and SRST read 0 (R26, R121). -/
def State.ctrlWord (s : State) : Word := 0#29 ++ BitVec.ofBool s.irqen ++ 0#2

/-- A STATUS write: writing 1 clears DONE (bit 1), OVR (bit 3) and AERR (bit 4); nothing else changes (R27, R124). -/
def State.clearFlags (s : State) (v : Word) : State :=
  { s with
    done := s.done && !v.getLsbD 1
    ovr := s.ovr && !v.getLsbD 3
    aerr := s.aerr && !v.getLsbD 4 }

/-- The record of an access the busy lock refuses (R126, R43). -/
def State.refuseAccess (s : State) : State := { s with ovr := true }

/-- The record of an MDATA access outside MM (R127, R128, R43). -/
def State.addressError (s : State) : State := { s with aerr := true }

end Sys2Proof.Machine
end

