-- ==== Sys2Proof/Machine/HostPort.lean ====
section
/-! DEFINITION. The host's accesses to the register window (10_state.md R23; 40_host_interface.md R120 to R130). -/

namespace Sys2Proof.Machine

/-- The registers of the window (R23). -/
inductive Reg where
  | id | version | ctrl | status | cmd | param | errinfo | maddr | mdata | mmsize
  | base (i : DescIx) | rows (i : DescIx) | cols (i : DescIx) | stride (i : DescIx)
  | reserved
deriving DecidableEq, Repr

/-- The register of a descriptor whose offset in the descriptor file is `o` (R23, R35 to R38). -/
def descReg (o : Nat) : Reg :=
  let i : DescIx := ⟨o / 16 % 8, Nat.mod_lt _ (by decide)⟩
  match o % 16 with
  | 0 => .base i
  | 4 => .rows i
  | 8 => .cols i
  | 12 => .stride i
  | _ => .reserved

/-- The register at a byte offset (R23); every offset not named there is reserved (R34). -/
def regAt (off : BitVec 12) : Reg :=
  if 0x100 ≤ off.toNat ∧ off.toNat < 0x180 then descReg (off.toNat - 0x100)
  else
    match off.toNat with
    | 0x000 => .id
    | 0x004 => .version
    | 0x008 => .ctrl
    | 0x00C => .status
    | 0x010 => .cmd
    | 0x014 => .param
    | 0x018 => .errinfo
    | 0x020 => .maddr
    | 0x024 => .mdata
    | 0x028 => .mmsize
    | _ => .reserved

/-- MADDR advances by one word, modulo 2^32 (R127, R128, R129). -/
def State.advanceAddress (s : State) : State := { s with maddr := s.maddr + 1 }

/-- `MdataRead()`: refused while busy (R126), else the word at MADDR, or 0 and AERR outside MM (R127). -/
def State.mdataRead (s : State) : Word × State :=
  if s.busy then (0, s.refuseAccess)
  else if s.maddr.toNat < s.cfg.mmemWords then (s.readWord s.maddr.toNat, s.advanceAddress)
  else (0, s.addressError.advanceAddress)

/-- `MdataWrite(v)`: refused while busy (R126), else the word at MADDR is set, or the write is dropped with AERR (R128). -/
def State.mdataWrite (s : State) (v : Word) : State :=
  if s.busy then s.refuseAccess
  else if s.maddr.toNat < s.cfg.mmemWords then (s.writeWord s.maddr.toNat v).advanceAddress
  else s.addressError.advanceAddress

/-- A register's value and the state after the read (R121). -/
def State.readReg (s : State) : Reg → Word × State
  | .id => (0x4C445043, s)
  | .version => (0x00010000, s)
  | .ctrl => (s.ctrlWord, s)
  | .status => (s.statusWord, s)
  | .cmd => (s.cmd, s)
  | .param => (s.param, s)
  | .errinfo => (s.errinfo, s)
  | .maddr => (s.maddr, s)
  | .mdata => s.mdataRead
  | .mmsize => (BitVec.ofNat 32 s.cfg.mmemWords, s)
  | .base i => (s.md[i].base, s)
  | .rows i => (s.md[i].rows.setWidth 32, s)
  | .cols i => (s.md[i].cols.setWidth 32, s)
  | .stride i => (s.md[i].stride.setWidth 32, s)
  | .reserved => (0, s)

/-- A write the busy lock covers: refused with OVR while busy, else carried out (R125, R126). -/
def State.lockedWrite (s : State) (f : State → State) : State := if s.busy then s.refuseAccess else f s

/-- Change one descriptor of the file. -/
def State.setDesc (s : State) (i : DescIx) (f : Desc → Desc) : State := { s with md := s.md.set i (f s.md[i]) }

/-- `SoftReset()` (70_reset_and_hazards.md R302): the write set of a running command becomes unspecified, every register
takes its reset value, and the engine is idle with no completion recorded. -/
def State.softReset (s : State) : State :=
  match s.eng with
  | .idle => s.resetRegisters
  | .busy snap => (s.scramble snap.writeSet).resetRegisters

/-- A CTRL write: SRST first, else IRQEN takes bit 2 and START starts the command (R123). DEDUCED (log 15): the busy lock
refuses a write with START = 1 whole, so it sets OVR and changes nothing else, IRQEN included (R126). -/
def State.writeCtrl (s : State) (v : Word) : State :=
  if v.getLsbD 1 then s.softReset
  else if v.getLsbD 0 then s.lockedWrite fun s => { s with irqen := v.getLsbD 2 }.start
  else { s with irqen := v.getLsbD 2 }

/-- A register write (R122 to R126, R128). -/
def State.writeReg (s : State) (v : Word) : Reg → State
  | .id | .version | .errinfo | .mmsize | .reserved => s
  | .ctrl => s.writeCtrl v
  | .status => s.clearFlags v
  | .cmd => s.lockedWrite fun s => { s with cmd := v }
  | .param => s.lockedWrite fun s => { s with param := v }
  | .maddr => s.lockedWrite fun s => { s with maddr := v }
  | .mdata => s.mdataWrite v
  | .base i => s.lockedWrite fun s => s.setDesc i fun d => { d with base := v }
  | .rows i => s.lockedWrite fun s => s.setDesc i fun d => { d with rows := v.setWidth 24 }
  | .cols i => s.lockedWrite fun s => s.setDesc i fun d => { d with cols := v.setWidth 24 }
  | .stride i => s.lockedWrite fun s => s.setDesc i fun d => { d with stride := v.setWidth 24 }

/-- Only a 32-bit access to a multiple of 4 takes effect (20_memory.md R68). -/
def accessOk (w : Width) (off : BitVec 12) : Bool := decide (w = .w32) && decide (off.toNat % 4 = 0)

/-- A host read and the response it gets (R120, R121; log 2). -/
def State.busRead (s : State) (w : Width) (off : BitVec 12) : State :=
  if accessOk w off then
    let r := s.readReg (regAt off)
    { r.2 with resp := some ⟨some r.1, false⟩ }
  else { s with resp := some ⟨some 0, true⟩ }

/-- A host write and the response it gets (R120, R122 to R126; log 2). -/
def State.busWrite (s : State) (w : Width) (off : BitVec 12) (v : Word) : State :=
  if accessOk w off then { s.writeReg v (regAt off) with resp := some ⟨none, false⟩ }
  else { s with resp := some ⟨none, true⟩ }

end Sys2Proof.Machine
end

