-- ==== Sys2Proof/Machine/Engine.lean ====
section
/-! DEFINITION. The engine's completion step (40_host_interface.md R131, R132) and what one input does. -/

namespace Sys2Proof.Machine

/-- The engine's turn: a busy engine decodes and runs its latched command; a word that does not decode ends with
BAD_OPCODE(0) (R131 to R133). An idle engine does nothing (60_exceptions.md R285). -/
def State.engineTurn (s : State) : Host.Outcome State Fault Refusal :=
  match s.eng with
  | .idle => .next s
  | .busy snap =>
    match decode snap.cmd snap.param with
    | .error _ => .next (s.raise ⟨.badOpcode, 0⟩)
    | .ok i => exec i s

/-- One input (log 1): a host access, the engine's turn, or power-on reset. -/
def State.handle (s : State) : Input → Host.Outcome State Fault Refusal
  | .read w off => .next (s.busRead w off)
  | .write w off v => .next (s.busWrite w off v)
  | .complete => s.engineTurn
  | .powerOn => .next s.powerOnReset

/-- The state in which the command of the words `cmd` and `param` has just been issued and the engine's turn is next: the
two words written to CMD and PARAM, START accepted, and a completion turn put before what still arrives (log 10). -/
def State.issue (s : State) (cmd param : Word) : State :=
  { { s with cmd := cmd, param := param }.start with inputs := .complete :: s.inputs }

end Sys2Proof.Machine
end

