-- ==== Sys2Proof/Machine/Step.lean ====
section
/-! DEFINITION. One step of the machine (00_scope.md R15, R19; log 1). -/

namespace Sys2Proof.Machine

/-- One step: the next input in order; when nothing arrives any more, a busy engine takes its turn, which is the weak
fairness 70_reset_and_hazards.md R312 asks for, and an idle one does nothing (log 1). -/
def step (s : State) : Host.Outcome State Fault Refusal :=
  match s.inputs with
  | [] => s.engineTurn
  | i :: rest => { s with inputs := rest }.handle i

/-- The state whose very next step runs the command of an opcode-table word: bits 31..0 are CMD, bits 63..32 PARAM (log 10). -/
def State.withFetchWord (s : State) (nbits w : Nat) : State :=
  s.issue (BitVec.ofNat 32 (w % 2 ^ nbits)) (BitVec.ofNat 32 ((w % 2 ^ nbits) >>> 32))

end Sys2Proof.Machine
end

