-- ==== Sys2Proof/Machine/HostProgram.lean ====
section
/-! DEFINITION. What a host writes: the command syntax (30_encoding.md R105) and the pseudo-instructions that expand into
register accesses (R106). -/

namespace Sys2Proof.Machine

/-! Command syntax (R105) -/

/-- `MD0` to `MD7`. -/
def descText (i : DescIx) : String := "MD" ++ toString i.val

/-- `M=<128|256|...|8192>`; the code 7 has no written form. -/
def sizeText (mcode : BitVec 3) : Option String :=
  if mcode.toNat ≤ 6 then some ("M=" ++ toString (matrixSize mcode)) else none

/-- `k=<1..26>`; other values have no written form. -/
def indexText (kidx : BitVec 5) : Option String :=
  if 1 ≤ kidx.toNat ∧ kidx.toNat ≤ 26 then some ("k=" ++ toString kidx.toNat) else none

/-- `R=<1/2|2/3|4/5>`; the code 3 has no written form. -/
def rateText (rate : BitVec 2) : Option String :=
  match rate.toNat with
  | 0 => some "R=1/2"
  | 1 => some "R=2/3"
  | 2 => some "R=4/5"
  | _ => none

/-- A parameter with a reserved bit set has no written form. -/
def legalText (reserved : Bool) (text : String) : Option String := if reserved then none else some text

/-- A flag suffix. -/
def flagText (b : Bool) (suffix : String) : String := if b then suffix else ""

/-- Operands after the mnemonic, separated by commas. -/
def operandsText (ops : List String) : String := " " ++ String.intercalate ", " ops

/-- The written form of a command (R105), flag suffixes `.T` then `.X`; none where an operand has no written form. -/
def commandText : Instr → Option String
  | .nop => some "NOP"
  | .perm d x p => do
      let m ← sizeText p.mcode
      let k ← indexText p.kidx
      legalText p.reserved ("PERM" ++ flagText x ".X" ++ operandsText [descText d, m, k])
  | .asmh d p => do
      let m ← sizeText p.mcode
      let r ← rateText p.rate
      legalText p.reserved ("ASMH" ++ operandsText [descText d, m, r])
  | .inv d a sc => some ("INV" ++ operandsText [descText d, descText a, descText sc])
  | .mul d a b x t => some ("MUL" ++ flagText t ".T" ++ flagText x ".X" ++ operandsText [descText d, descText a, descText b])
  | .zero d => some ("ZERO" ++ operandsText [descText d])
  | .ident d x => some ("IDENT" ++ flagText x ".X" ++ operandsText [descText d])
  | .copy d a t => some ("COPY" ++ flagText t ".T" ++ operandsText [descText d, descText a])
  | .add d a b => some ("ADD" ++ operandsText [descText d, descText a, descText b])

/-! Pseudo-instructions (R106) -/

/-- `WR off, v`. -/
def hostWrite (off : Nat) (v : Word) : Input := .write .w32 (BitVec.ofNat 12 off) v

/-- `RD off`. -/
def hostRead (off : Nat) : Input := .read .w32 (BitVec.ofNat 12 off)

/-- `SETD i, base, rows, cols, stride`. -/
def setDescriptor (i : DescIx) (base rows cols stride : Word) : List Input :=
  [hostWrite (0x100 + 16 * i.val) base, hostWrite (0x104 + 16 * i.val) rows, hostWrite (0x108 + 16 * i.val) cols,
    hostWrite (0x10C + 16 * i.val) stride]

/-- `LOADM addr, w0, w1, ...`. -/
def loadMemory (addr : Word) (ws : List Word) : List Input := hostWrite 0x020 addr :: ws.map (hostWrite 0x024)

/-- `READM addr, n`. -/
def readMemory (addr : Word) (n : Nat) : List Input := hostWrite 0x020 addr :: List.replicate n (hostRead 0x024)

/-- `ISSUE <command>`, with the value CTRL.IRQEN is to keep. -/
def issueCommand (i : Instr) (irqen : Bool) : List Input :=
  [hostWrite 0x010 (encode i).1, hostWrite 0x014 (encode i).2, hostWrite 0x008 (if irqen then 0x5 else 0x1)]

/-- `WAIT`, in a run in which STATUS is read `n` times while the engine is busy and once after its completion turn. -/
def waitIdle (n : Nat) : List Input := List.replicate n (hostRead 0x00C) ++ [.complete, hostRead 0x00C]

/-- `ACK`: clear DONE, OVR and AERR. -/
def acknowledge : List Input := [hostWrite 0x00C 0x0000001A]

end Sys2Proof.Machine
end

