-- ==== Sys2Proof/Safety.lean ====
section
/-! DEFINITION. The terms claims about GLME are stated in: one bit of matrix memory, what a command keeps, and the invariant
every step keeps. -/

namespace Sys2Proof.Machine

/-- Bit number `n` of matrix memory, bits counted from bit 0 of word 0 (20_memory.md R62, R67). -/
def State.mmBit (s : State) (n : Nat) : Bool := (s.readByte (n / 8)).getLsbD (n % 8)

/-- Bit i of word a of MM holds an element of d (R62). -/
def Desc.holds (d : Desc) (a i : Nat) : Prop :=
  ∃ r c, r < d.rows.toNat ∧ c < d.cols.toNat ∧ d.addr r c = a ∧ c % 32 = i

/-- Every bit of every word of MM outside the elements of the listed descriptors is the same in both states (R64, R138). -/
def MemoryKept (s t : State) (ds : List Desc) : Prop :=
  ∀ a i, i < 32 → (∀ d ∈ ds, ¬ d.holds a i) → (t.readWord a).getLsbD i = (s.readWord a).getLsbD i

/-- What no completion changes (40_host_interface.md R131, R137; 60_exceptions.md R277): every register but ERRCODE, ERRINFO,
DONE and BUSY, the parameters and tables, and what arrives from outside. -/
def RegistersKept (s t : State) : Prop :=
  t.irqen = s.irqen ∧ t.ovr = s.ovr ∧ t.aerr = s.aerr ∧ t.cmd = s.cmd ∧ t.param = s.param ∧ t.maddr = s.maddr ∧
  t.md = s.md ∧ t.cfg = s.cfg ∧ t.inputs = s.inputs ∧ t.resp = s.resp ∧ t.powerDraw = s.powerDraw

/-- The completion record of R131: the code, its information value, BUSY = 0 and DONE = 1. -/
def Completed (t : State) (code : ErrCode) (info : Word) : Prop :=
  t.errcode = code ∧ t.errinfo = info ∧ t.eng = .idle ∧ t.done = true

/-- A command that ended with an error found by validation (R137): its record, and nothing else changed. -/
def Rejected (s t : State) (code : ErrCode) (info : Word) : Prop :=
  Completed t code info ∧ RegistersKept s t ∧ t.mm = s.mm ∧ t.draws = s.draws

/-- The XOR of the first n values of f (00_scope.md R13). -/
def xorSum : Nat → (Nat → Bool) → Bool
  | 0, _ => false
  | n + 1, f => xorSum n f ^^ f n

/-- ERRINFO holds the value R270 gives for the code. -/
def ErrCode.infoOk (e : ErrCode) (info : Word) : Prop :=
  match e with
  | .badDesc => info.toNat < 8
  | .singular => info.toNat < 2 ^ 24
  | .none | .badOpcode | .invalidParam | .shapeMismatch | .overlap => info = 0

/-- The invariant of the machine: the memory keeps its canonical form inside MM; the parameters stay in range; ERRINFO fits
its code; a busy engine runs what the locked registers still hold, with DONE, ERRCODE and ERRINFO clear (R41, R121, R126,
R130); and no draw to come has been used (log 4). -/
def State.Inv (s : State) : Prop :=
  Memory.wf s.cfg.mmemWords s.mm ∧ s.cfg.inRange ∧ s.cfg.sourced ∧ s.errcode.infoOk s.errinfo ∧
  (∀ snap, s.eng = .busy snap →
    snap = { cmd := s.cmd, param := s.param, md := s.md } ∧ s.done = false ∧ s.errcode = .none ∧ s.errinfo = 0) ∧
  s.powerDraw < s.draws

/-! The tables of validation (40_host_interface.md R133, R135, R136), as claims use them -/

/-- The descriptor roles a command uses, in check order (R133). -/
def rolesUsed : Instr → List DescIx
  | .nop => []
  | .perm d _ _ | .asmh d _ | .zero d | .ident d _ => [d]
  | .inv d a sc => [d, a, sc]
  | .mul d a b _ _ | .add d a b => [d, a, b]
  | .copy d a _ => [d, a]

/-- The parameter check of the command passes (41_permutation.md R162, 42_assembler.md R182); only PERM and ASMH have one. -/
def ParamPasses : Instr → Prop
  | .perm _ _ p => permParamOk p = true
  | .asmh _ p => asmhParamOk p = true
  | .nop | .inv _ _ _ | .mul _ _ _ _ _ | .zero _ | .ident _ _ | .copy _ _ _ | .add _ _ _ => True

/-- The descriptor operand is valid (R134). -/
def State.OperandValid (s : State) (k : DescIx) : Prop := (s.operand k).valid s.cfg.mmemWords = true

/-- ROWS and COLS of an operand, as numbers. -/
def State.rowsOf (s : State) (k : DescIx) : Nat := (s.operand k).rows.toNat
def State.colsOf (s : State) (k : DescIx) : Nat := (s.operand k).cols.toNat

/-- The shape check of the command passes (R135 and the command's own rule). -/
def ShapePasses (s : State) : Instr → Prop
  | .nop | .zero _ => True
  | .perm d _ p => s.rowsOf d = matrixSize p.mcode ∧ s.colsOf d = matrixSize p.mcode
  | .asmh d p => ∃ k, bigK p.rate = some k ∧ s.rowsOf d = 3 * matrixSize p.mcode ∧ s.colsOf d = (k + 3) * matrixSize p.mcode
  | .inv d a sc =>
    s.colsOf a = s.rowsOf a ∧ s.rowsOf d = s.rowsOf a ∧ s.colsOf d = s.rowsOf a ∧ s.rowsOf sc = s.rowsOf a ∧
      s.colsOf sc = s.rowsOf a
  | .mul d a b _ false => s.colsOf a = s.rowsOf b ∧ s.rowsOf d = s.rowsOf a ∧ s.colsOf d = s.colsOf b
  | .mul d a b _ true => s.colsOf a = s.rowsOf b ∧ s.rowsOf d = s.colsOf b ∧ s.colsOf d = s.rowsOf a
  | .ident d _ => s.rowsOf d = s.colsOf d
  | .copy d a false => s.rowsOf d = s.rowsOf a ∧ s.colsOf d = s.colsOf a
  | .copy d a true => s.rowsOf d = s.colsOf a ∧ s.colsOf d = s.rowsOf a
  | .add d a b => s.rowsOf a = s.rowsOf b ∧ s.rowsOf b = s.rowsOf d ∧ s.colsOf a = s.colsOf b ∧ s.colsOf b = s.colsOf d

/-- Two operands overlap, and two operands are identical (20_memory.md R63). -/
def State.Overlap (s : State) (j k : DescIx) : Prop := (s.operand j).overlaps (s.operand k) = true
def State.Identical (s : State) (j k : DescIx) : Prop := s.operand j = s.operand k

/-- The overlap check of the command fails (the table of R136). -/
def OverlapFails (s : State) : Instr → Prop
  | .nop | .perm _ _ _ | .asmh _ _ | .zero _ | .ident _ _ => False
  | .copy d a false => s.Overlap d a ∧ ¬ s.Identical d a
  | .copy d a true => s.Overlap d a
  | .add d a b => (s.Overlap d a ∧ ¬ s.Identical d a) ∨ (s.Overlap d b ∧ ¬ s.Identical d b)
  | .mul d a b _ _ => s.Overlap d a ∨ s.Overlap d b
  | .inv d a sc => s.Overlap d a ∨ s.Overlap d sc ∨ s.Overlap a sc

/-- Every check of validation passes (R133). -/
def ChecksPass (s : State) (i : Instr) : Prop :=
  ParamPasses i ∧ (∀ k ∈ rolesUsed i, s.OperandValid k) ∧ ShapePasses s i ∧ ¬ OverlapFails s i

/-- The descriptors whose elements the result of a command depends on (R139): the sources, and the old destination with X. -/
def sourceRoles : Instr → List DescIx
  | .nop | .asmh _ _ | .zero _ => []
  | .perm d x _ | .ident d x => if x then [d] else []
  | .inv _ a _ => [a]
  | .mul d a b x _ => [a, b] ++ if x then [d] else []
  | .copy _ a _ => [a]
  | .add _ a b => [a, b]

/-- The destination of a command (R93). -/
def destination : Instr → List DescIx
  | .nop => []
  | .perm d _ _ | .asmh d _ | .inv d _ _ | .mul d _ _ _ _ | .zero d | .ident d _ | .copy d _ _ | .add d _ _ => [d]

/-- A successful command (R131, R138): it completes with code 0, keeps every other register, and keeps MM outside the
elements of the listed descriptors. -/
def Succeeded (s t : State) (written : List Desc) : Prop :=
  Completed t .none 0 ∧ RegistersKept s t ∧ MemoryKept s t written

/-- Row i of an n-column matrix f is a GF(2) combination of the rows before it (43_invert.md R202). -/
def RowDependent (n : Nat) (f : Nat → Nat → Bool) (i : Nat) : Prop :=
  ∃ coeff : Nat → Bool, ∀ c < n, f i c = xorSum i fun t => coeff t && f t c

/-- X · Y = I_n (00_scope.md R13). -/
def IsInverse (n : Nat) (x y : Nat → Nat → Bool) : Prop :=
  ∀ i < n, ∀ j < n, (xorSum n fun t => x i t && y t j) = decide (i = j)

/-- Element (i, c) of a block: the XOR of its terms (42_assembler.md R187). -/
def blockElement (p : Params) (mcode : Nat) (b : Block) (i c : Nat) : Bool :=
  b.foldr (fun t acc => decide (c = t.column p mcode i) ^^ acc) false

/-- Element (r, c) of H for a rate: element (r mod M, c mod M) of block (r div M, c div M) (R180, R183). -/
def hElement (p : Params) (rate : BitVec 2) (mcode r c : Nat) : Bool :=
  blockElement p mcode (((template rate).getD (r / (128 * 2 ^ mcode)) []).getD (c / (128 * 2 ^ mcode)) [])
    (r % (128 * 2 ^ mcode)) (c % (128 * 2 ^ mcode))

/-- The rows of opcode_table.json: mask and match of each opcode (30_encoding.md R99). -/
def opcodeRow : Opcode → Word × Word
  | .nop => (0xFF8888FF, 0x00000000)
  | .perm => (0xFE8888FF, 0x00000001)
  | .asmh => (0xFF8888FF, 0x00000002)
  | .inv => (0xFF8888FF, 0x00000003)
  | .mul => (0xFC8888FF, 0x00000004)
  | .zero => (0xFF8888FF, 0x00000005)
  | .ident => (0xFE8888FF, 0x00000006)
  | .copy => (0xFD8888FF, 0x00000007)
  | .add => (0xFF8888FF, 0x00000008)

/-- The opcode a command is of. -/
def opcodeOf : Instr → Opcode
  | .nop => .nop | .perm _ _ _ => .perm | .asmh _ _ => .asmh | .inv _ _ _ => .inv | .mul _ _ _ _ _ => .mul
  | .zero _ => .zero | .ident _ _ => .ident | .copy _ _ _ => .copy | .add _ _ _ => .add

/-- Bits hi = lo + n − 1 down to lo of a word, as a number (00_scope.md R11). -/
def bitsOf (w : Word) (lo n : Nat) : Nat := w.toNat / 2 ^ lo % 2 ^ n

/-- The parameter has the fields of the word that PERM reads (30_encoding.md R92, R93). -/
def PermParamRead (w : Word) (p : PermParam) : Prop :=
  p.mcode.toNat = bitsOf w 0 3 ∧ p.kidx.toNat = bitsOf w 8 5 ∧ (p.reserved = true ↔ w &&& 0xFFFCE0F8 ≠ 0)

/-- The parameter has the fields of the word that ASMH reads (R92, R93). -/
def AsmhParamRead (w : Word) (p : AsmhParam) : Prop :=
  p.mcode.toNat = bitsOf w 0 3 ∧ p.rate.toNat = bitsOf w 16 2 ∧ (p.reserved = true ↔ w &&& 0xFFFCE0F8 ≠ 0)

/-- The command has the operands its words hold: D in bits 10:8, A in 14:12, B in 18:16, S in 22:20, X in 24, T in 25
(30_encoding.md R91, R99). -/
def FieldsRead (cmd param : Word) : Instr → Prop
  | .nop => True
  | .perm d x p => d.val = bitsOf cmd 8 3 ∧ x = cmd.getLsbD 24 ∧ PermParamRead param p
  | .asmh d p => d.val = bitsOf cmd 8 3 ∧ AsmhParamRead param p
  | .inv d a sc => d.val = bitsOf cmd 8 3 ∧ a.val = bitsOf cmd 12 3 ∧ sc.val = bitsOf cmd 20 3
  | .mul d a b x t =>
    d.val = bitsOf cmd 8 3 ∧ a.val = bitsOf cmd 12 3 ∧ b.val = bitsOf cmd 16 3 ∧ x = cmd.getLsbD 24 ∧ t = cmd.getLsbD 25
  | .zero d => d.val = bitsOf cmd 8 3
  | .ident d x => d.val = bitsOf cmd 8 3 ∧ x = cmd.getLsbD 24
  | .copy d a t => d.val = bitsOf cmd 8 3 ∧ a.val = bitsOf cmd 12 3 ∧ t = cmd.getLsbD 25
  | .add d a b => d.val = bitsOf cmd 8 3 ∧ a.val = bitsOf cmd 12 3 ∧ b.val = bitsOf cmd 16 3

/-- The registers the busy lock refuses a write to (40_host_interface.md R126). -/
def Reg.locked : Reg → Bool
  | .cmd | .param | .maddr | .mdata | .base _ | .rows _ | .cols _ | .stride _ => true
  | .id | .version | .ctrl | .status | .errinfo | .mmsize | .reserved => false

/-- Every register at its reset value (70_reset_and_hazards.md R301). -/
def RegistersReset (t : State) : Prop :=
  t.irqen = false ∧ t.done = false ∧ t.ovr = false ∧ t.aerr = false ∧ t.errcode = .none ∧ t.errinfo = 0 ∧ t.cmd = 0 ∧
  t.param = 0 ∧ t.maddr = 0 ∧ (∀ k : DescIx, t.md[k] = ⟨0, 0, 0, 0⟩) ∧ t.eng = .idle ∧ t.irq = false ∧ t.statusWord = 0

end Sys2Proof.Machine
end

