-- ==== Sys2Proof/Certificates/Slice0/Obligations.lean ====
section
/-! DEFINITION. The statements about GLME, each from the rule its docstring names. -/

open Sys2Proof Sys2Proof.Machine

/-! Reset -/

/-- 70_reset_and_hazards.md R301: after power-on reset every register holds its reset value, for every choice of the open
parameters; MM lists nothing, so no word has a known value. State.reset is this state for the parameters of log 5 and log 6. -/
def Obligations.ResetLeavesRegistersAtResetValues : Prop :=
  (∀ cfg : Params, RegistersReset (State.powerOnWith cfg) ∧ (State.powerOnWith cfg).mm = [] ∧
    (State.powerOnWith cfg).cfg = cfg) ∧
  State.reset = State.powerOnWith Params.default

/-- 10_state.md R23, R34 and 95_test_vectors.md HI-1: a read after reset gives ID, VERSION, MMEM_WORDS or 0. -/
def Obligations.ReadsAfterResetMatchRegisterMap : Prop :=
  ∀ (cfg : Params) (off : BitVec 12), off.toNat % 4 = 0 → off ≠ 0x024 →
    (State.powerOnWith cfg).readReg (regAt off) =
      (if off = 0x000 then 0x4C445043 else if off = 0x004 then 0x00010000
        else if off = 0x028 then BitVec.ofNat 32 cfg.mmemWords else 0, State.powerOnWith cfg)

/-- 70_reset_and_hazards.md R300: power-on reset at any time leaves every register at its reset value, the tables and
MMEM_WORDS as they are, and no word of MM listed; its contents come from a draw not used before (log 4, log 13). -/
def Obligations.PowerOnResetsAtAnyTime : Prop :=
  ∀ (s : State) (rest : List Input), s.inputs = .powerOn :: rest →
    ∃ t, step s = .next t ∧ RegistersReset t ∧ t.cfg = s.cfg ∧ t.mm = [] ∧ t.powerDraw = s.draws ∧
      t.draws = s.draws + 1 ∧ t.inputs = rest

/-- 70_reset_and_hazards.md R302: a CTRL write with bit 1 set resets every register at any time, whatever its other bits
(R123); an idle engine leaves MM as it is, its unwritten words included; an aborted command leaves every bit of MM outside its
write set as it was, and a word that does not decode has no write set (log 11). No completion is recorded. -/
def Obligations.SoftResetClearsRegistersAndKeepsMemoryOutsideWriteSet : Prop :=
  ∀ (s : State) (v : Word), Memory.wf s.cfg.mmemWords s.mm → v.getLsbD 1 = true →
    ∃ t, s.busWrite .w32 0x008 v = t ∧ RegistersReset t ∧ t.cfg = s.cfg ∧ t.inputs = s.inputs ∧
      (s.eng = .idle → t.mm = s.mm ∧ MemoryKept s t []) ∧
      (∀ snap i, s.eng = .busy snap → decode snap.cmd snap.param = .ok i →
        MemoryKept s t ((writeRoles i).map fun k => snap.md[k])) ∧
      (∀ snap e, s.eng = .busy snap → decode snap.cmd snap.param = .error e → t.mm = s.mm ∧ MemoryKept s t [])

/-! Register accesses -/

/-- 40_host_interface.md R120: an access of the wrong width or alignment has no effect, reads 0 and gets the error response;
every other access gets an OK response and does what the register's rule says. -/
def Obligations.BadAccessHasNoEffect : Prop :=
  ∀ (s : State) (w : Width) (off : BitVec 12) (v : Word),
    (w ≠ .w32 ∨ off.toNat % 4 ≠ 0 →
      s.busRead w off = { s with resp := some ⟨some 0, true⟩ } ∧ s.busWrite w off v = { s with resp := some ⟨none, true⟩ }) ∧
    (w = .w32 → off.toNat % 4 = 0 →
      s.busRead w off = { (s.readReg (regAt off)).2 with resp := some ⟨some (s.readReg (regAt off)).1, false⟩ } ∧
      s.busWrite w off v = { s.writeReg v (regAt off) with resp := some ⟨none, false⟩ })

/-- 40_host_interface.md R121: every register reads as the register map says, busy or idle, and a read of any but MDATA
changes nothing; an MDATA read is MdataRead. -/
def Obligations.ReadsGiveMappedValuesAndChangeNothing : Prop :=
  ∀ s : State,
    s.readReg (regAt 0x000) = (0x4C445043, s) ∧ s.readReg (regAt 0x004) = (0x00010000, s) ∧
    s.readReg (regAt 0x008) = (BitVec.ofNat 32 (4 * s.irqen.toNat), s) ∧
    s.readReg (regAt 0x00C) =
      (BitVec.ofNat 32 (256 * s.errcode.code.toNat + 16 * s.aerr.toNat + 8 * s.ovr.toNat +
        4 * (decide (s.errcode ≠ .none)).toNat + 2 * s.done.toNat + s.busy.toNat), s) ∧
    s.readReg (regAt 0x010) = (s.cmd, s) ∧ s.readReg (regAt 0x014) = (s.param, s) ∧
    s.readReg (regAt 0x018) = (s.errinfo, s) ∧ s.readReg (regAt 0x020) = (s.maddr, s) ∧
    s.readReg (regAt 0x024) = s.mdataRead ∧ s.readReg (regAt 0x028) = (BitVec.ofNat 32 s.cfg.mmemWords, s) ∧
    (∀ k : DescIx,
      s.readReg (regAt (BitVec.ofNat 12 (0x100 + 16 * k.val))) = (s.md[k].base, s) ∧
      s.readReg (regAt (BitVec.ofNat 12 (0x104 + 16 * k.val))) = (BitVec.ofNat 32 s.md[k].rows.toNat, s) ∧
      s.readReg (regAt (BitVec.ofNat 12 (0x108 + 16 * k.val))) = (BitVec.ofNat 32 s.md[k].cols.toNat, s) ∧
      s.readReg (regAt (BitVec.ofNat 12 (0x10C + 16 * k.val))) = (BitVec.ofNat 32 s.md[k].stride.toNat, s)) ∧
    (∀ off : BitVec 12, off.toNat = 0x01C ∨ (0x02C ≤ off.toNat ∧ off.toNat ≤ 0x0FC) ∨ 0x180 ≤ off.toNat →
      s.readReg (regAt off) = (0, s))

/-- 40_host_interface.md R122: writes to ID, VERSION, ERRINFO, MMSIZE and reserved offsets change nothing, busy or idle. -/
def Obligations.WritesToReadOnlyRegistersAreIgnored : Prop :=
  ∀ (s : State) (off : BitVec 12) (v : Word),
    off = 0x000 ∨ off = 0x004 ∨ off = 0x018 ∨ off = 0x028 ∨ off = 0x01C ∨ (0x02C ≤ off.toNat ∧ off.toNat ≤ 0x0FC) ∨
      0x180 ≤ off.toNat →
    s.writeReg v (regAt off) = s

/-- 40_host_interface.md R123, R126: SRST has priority over everything in the write; else IRQEN takes bit 2, and START starts an
idle engine; a START while busy is refused. That a refused START sets OVR and leaves IRQEN too is the model's deduction
(log 15: R126's 'changes nothing except' OVR, against the order of R123's pseudocode). -/
def Obligations.ControlWriteResetsEnablesOrStarts : Prop :=
  ∀ (s : State) (v : Word),
    (v.getLsbD 1 = true → s.writeReg v (regAt 0x008) = s.softReset) ∧
    (v.getLsbD 1 = false → v.getLsbD 0 = false → s.writeReg v (regAt 0x008) = { s with irqen := v.getLsbD 2 }) ∧
    (v.getLsbD 1 = false → v.getLsbD 0 = true →
      (∀ snap, s.eng = .busy snap → s.writeReg v (regAt 0x008) = { s with ovr := true }) ∧
      (s.eng = .idle → s.writeReg v (regAt 0x008) = { s with irqen := v.getLsbD 2 }.start))

/-- 40_host_interface.md R124: a STATUS write clears DONE, OVR and AERR where bits 1, 3 and 4 are 1 and changes nothing else,
busy or idle; clearing DONE lowers irq. -/
def Obligations.StatusWriteClearsOnlyItsFlags : Prop :=
  ∀ (s : State) (v : Word), ∃ t, s.writeReg v (regAt 0x00C) = t ∧
    t.done = (if v.getLsbD 1 then false else s.done) ∧ t.ovr = (if v.getLsbD 3 then false else s.ovr) ∧
    t.aerr = (if v.getLsbD 4 then false else s.aerr) ∧
    t = { s with done := t.done, ovr := t.ovr, aerr := t.aerr } ∧ (v.getLsbD 1 = true → t.irq = false)

/-- 40_host_interface.md R125: while the engine is idle, CMD, PARAM, MADDR and BASE store all 32 bits, and ROWS, COLS and
STRIDE store the low 24; nothing is checked and nothing else changes. -/
def Obligations.IdleWritesStoreTheirFields : Prop :=
  ∀ (s : State) (v : Word), s.eng = .idle →
    s.writeReg v (regAt 0x010) = { s with cmd := v } ∧ s.writeReg v (regAt 0x014) = { s with param := v } ∧
    s.writeReg v (regAt 0x020) = { s with maddr := v } ∧
    ∀ k : DescIx,
      s.writeReg v (regAt (BitVec.ofNat 12 (0x100 + 16 * k.val))) =
        { s with md := s.md.set k { s.md[k] with base := v } } ∧
      s.writeReg v (regAt (BitVec.ofNat 12 (0x104 + 16 * k.val))) =
        { s with md := s.md.set k { s.md[k] with rows := v.extractLsb' 0 24 } } ∧
      s.writeReg v (regAt (BitVec.ofNat 12 (0x108 + 16 * k.val))) =
        { s with md := s.md.set k { s.md[k] with cols := v.extractLsb' 0 24 } } ∧
      s.writeReg v (regAt (BitVec.ofNat 12 (0x10C + 16 * k.val))) =
        { s with md := s.md.set k { s.md[k] with stride := v.extractLsb' 0 24 } }

/-- 40_host_interface.md R126: while the engine is busy, a write to a locked register, a START and an MDATA read change nothing
but OVR, the read returns 0, and every other read leaves the state as it is. That a refused START leaves IRQEN is the model's
deduction (log 15). -/
def Obligations.BusyLockRefusesAccesses : Prop :=
  ∀ (s : State) (snap : Snap) (off : BitVec 12) (v : Word), s.eng = .busy snap →
    ((regAt off).locked = true → s.writeReg v (regAt off) = { s with ovr := true }) ∧
    (v.getLsbD 0 = true → v.getLsbD 1 = false → s.writeReg v (regAt 0x008) = { s with ovr := true }) ∧
    (s.readReg .mdata = (0, { s with ovr := true })) ∧
    (regAt off ≠ .mdata → (s.readReg (regAt off)).2 = s)

/-- 40_host_interface.md R127: with the engine idle, an MDATA read gives the word at MADDR, or 0 with AERR outside MM, MADDR
advances by one modulo 2^32, the response is OK, and nothing else changes. -/
def Obligations.DataWindowReadPostIncrements : Prop :=
  ∀ s : State, s.eng = .idle →
    (s.maddr.toNat < s.cfg.mmemWords →
      s.busRead .w32 0x024 =
        { s with maddr := BitVec.ofNat 32 (s.maddr.toNat + 1), resp := some ⟨some (s.readWord s.maddr.toNat), false⟩ }) ∧
    (s.cfg.mmemWords ≤ s.maddr.toNat →
      s.busRead .w32 0x024 =
        { s with maddr := BitVec.ofNat 32 (s.maddr.toNat + 1), aerr := true, resp := some ⟨some 0, false⟩ })

/-- 40_host_interface.md R128: with the engine idle, an MDATA write sets the word at MADDR and no other, or is dropped with
AERR outside MM, and MADDR advances by one modulo 2^32. -/
def Obligations.DataWindowWritePostIncrements : Prop :=
  ∀ (s : State) (v : Word), s.eng = .idle → Memory.wf s.cfg.mmemWords s.mm →
    ∃ t, s.writeReg v (regAt 0x024) = t ∧ t.maddr = BitVec.ofNat 32 (s.maddr.toNat + 1) ∧
      (s.maddr.toNat < s.cfg.mmemWords →
        t.readWord s.maddr.toNat = v ∧ (∀ a, a ≠ s.maddr.toNat → t.readWord a = s.readWord a) ∧
        t = { s with mm := t.mm, maddr := t.maddr }) ∧
      (s.cfg.mmemWords ≤ s.maddr.toNat → t = { s with maddr := t.maddr, aerr := true })

/-- 40_host_interface.md R130: START latches CMD, PARAM and every descriptor, makes the engine busy, and clears DONE, ERRCODE
and ERRINFO; OVR, AERR and everything else stay, and no command word is checked. -/
def Obligations.StartLatchesTheCommand : Prop :=
  ∀ (s : State) (v : Word), s.eng = .idle → v.getLsbD 0 = true → v.getLsbD 1 = false →
    ∃ t, s.writeReg v (regAt 0x008) = t ∧ t.eng = .busy { cmd := s.cmd, param := s.param, md := s.md } ∧ t.busy = true ∧
      t.done = false ∧ t.errcode = .none ∧ t.errinfo = 0 ∧ t.ovr = s.ovr ∧ t.aerr = s.aerr ∧ t.cmd = s.cmd ∧
      t.param = s.param ∧ t.maddr = s.maddr ∧ t.md = s.md ∧ t.mm = s.mm ∧ t.cfg = s.cfg

/-! Decoding -/

/-- 30_encoding.md R99: a command word decodes as an opcode exactly when it matches the opcode's row, with the fields at the
places R91 and R92 give; at most one row matches; and when no row matches the command ends with BAD_OPCODE(0) and MM
unchanged. -/
def Obligations.DecodingFollowsTheOpcodeTable : Prop :=
  (∀ (cmd param : Word) (o : Opcode),
    (∃ i, decode cmd param = .ok i ∧ opcodeOf i = o) ↔ cmd &&& (opcodeRow o).1 = (opcodeRow o).2) ∧
  (∀ (cmd param : Word) (i : Instr), decode cmd param = .ok i → FieldsRead cmd param i) ∧
  (∀ (cmd : Word) (o o' : Opcode), cmd &&& (opcodeRow o).1 = (opcodeRow o).2 →
    cmd &&& (opcodeRow o').1 = (opcodeRow o').2 → o = o') ∧
  (∀ (s : State) (snap : Snap), s.eng = .busy snap →
    (∀ o, snap.cmd &&& (opcodeRow o).1 ≠ (opcodeRow o).2) →
    ∃ t, s.engineTurn = .next t ∧ Rejected s t .badOpcode 0)

/-- 30_encoding.md R99, R105: decoding the two words of any command gives the command back, every operand at every value. For a
parameter with a reserved bit set, which R105 has no word for, it rests on the word the model chooses (log 17). -/
def Obligations.DecodingInvertsEncoding : Prop :=
  ∀ i : Instr, decode (encode i).1 (encode i).2 = .ok i

/-- 30_encoding.md R105, R107 and 95_test_vectors.md DEC-1 to DEC-17: words written out from the encoding decode to their
command, and the assembler's words are the encoder's. -/
def Obligations.WrittenOutWordsDecode : Prop :=
  decode 0x00301203 0 = .ok (.inv 2 1 3) ∧ decode 0x03032104 0 = .ok (.mul 1 2 3 true true) ∧
  decode 0x02007407 0 = .ok (.copy 4 7 true) ∧ decode 0x00770708 0 = .ok (.add 7 0 7) ∧
  decode 0x01000006 0 = .ok (.ident 0 true) ∧ decode 0x00007705 0 = .ok (.zero 7) ∧ decode 0 0 = .ok .nop ∧
  decode 0x00000001 0x00000100 = .ok (.perm 0 false ⟨0, 1, false⟩) ∧
  decode 0x00000002 0x00000002 = .ok (.asmh 0 ⟨2, 0, false⟩) ∧ decode 0x03032904 0 = .error .reservedBit ∧
  encode (.mul 6 2 4 false true) = (0x02042604, 0) ∧ encode (.inv 2 1 3) = (0x00301203, 0)

/-- 30_encoding.md R105: the words of a command are the assembler's formula, every field the command does not read 0. -/
def Obligations.EncodingIsTheAssemblersFormula : Prop :=
  ∀ (d a b sc : DescIx) (x t : Bool) (m : BitVec 3) (k : BitVec 5) (r : BitVec 2),
    encode .nop = (0x00, 0) ∧
    encode (.perm d x ⟨m, k, false⟩) =
      (BitVec.ofNat 32 (0x01 ||| d.val <<< 8 ||| x.toNat <<< 24), BitVec.ofNat 32 (m.toNat ||| k.toNat <<< 8)) ∧
    encode (.asmh d ⟨m, r, false⟩) =
      (BitVec.ofNat 32 (0x02 ||| d.val <<< 8), BitVec.ofNat 32 (m.toNat ||| r.toNat <<< 16)) ∧
    encode (.inv d a sc) = (BitVec.ofNat 32 (0x03 ||| d.val <<< 8 ||| a.val <<< 12 ||| sc.val <<< 20), 0) ∧
    encode (.mul d a b x t) =
      (BitVec.ofNat 32 (0x04 ||| d.val <<< 8 ||| a.val <<< 12 ||| b.val <<< 16 ||| x.toNat <<< 24 ||| t.toNat <<< 25), 0) ∧
    encode (.zero d) = (BitVec.ofNat 32 (0x05 ||| d.val <<< 8), 0) ∧
    encode (.ident d x) = (BitVec.ofNat 32 (0x06 ||| d.val <<< 8 ||| x.toNat <<< 24), 0) ∧
    encode (.copy d a t) = (BitVec.ofNat 32 (0x07 ||| d.val <<< 8 ||| a.val <<< 12 ||| t.toNat <<< 25), 0) ∧
    encode (.add d a b) = (BitVec.ofNat 32 (0x08 ||| d.val <<< 8 ||| a.val <<< 12 ||| b.val <<< 16), 0)

/-- 30_encoding.md R101: fields an opcode does not read are ignored: two legal command words of one opcode that agree on the
fields the opcode reads decode alike, PARAM matters to PERM and ASMH only, and PERM does not read RATE nor ASMH KIDX. That INV
reads S is the model's deduction (log 18: R91, R93, R105 and R200 against R101's example). -/
def Obligations.UnreadFieldsAreIgnored : Prop :=
  (∀ (cmd param param' : Word) (i : Instr), decode cmd param = .ok i → opcodeOf i ≠ .perm → opcodeOf i ≠ .asmh →
    decode cmd param' = .ok i) ∧
  (∀ (cmd cmd' param : Word) (i i' : Instr), decode cmd param = .ok i → decode cmd' param = .ok i' →
    opcodeOf i = opcodeOf i' → cmd.getLsbD 24 = cmd'.getLsbD 24 → cmd.getLsbD 25 = cmd'.getLsbD 25 →
    (opcodeOf i ≠ .nop → cmd.extractLsb' 8 3 = cmd'.extractLsb' 8 3) →
    (opcodeOf i = .inv ∨ opcodeOf i = .mul ∨ opcodeOf i = .copy ∨ opcodeOf i = .add →
      cmd.extractLsb' 12 3 = cmd'.extractLsb' 12 3) →
    (opcodeOf i = .mul ∨ opcodeOf i = .add → cmd.extractLsb' 16 3 = cmd'.extractLsb' 16 3) →
    (opcodeOf i = .inv → cmd.extractLsb' 20 3 = cmd'.extractLsb' 20 3) → i = i') ∧
  (∀ (cmd param param' : Word) (i : Instr), decode cmd param = .ok i → opcodeOf i = .perm →
    param &&& 0xFFFCFFFF = param' &&& 0xFFFCFFFF → decode cmd param' = .ok i) ∧
  (∀ (cmd param param' : Word) (i : Instr), decode cmd param = .ok i → opcodeOf i = .asmh →
    param &&& 0xFFFFE0FF = param' &&& 0xFFFFE0FF → decode cmd param' = .ok i)

/-- 30_encoding.md R102: a reserved bit of PARAM, the mask 0xFFFCE0F8, makes PERM and ASMH raise INVALID_PARAM(0). -/
def Obligations.ReservedParameterBitsAreRefused : Prop :=
  (∀ w : Word, (decodePermParam w).reserved = true ↔ w &&& 0xFFFCE0F8 ≠ 0) ∧
  (∀ w : Word, (decodeAsmhParam w).reserved = true ↔ w &&& 0xFFFCE0F8 ≠ 0) ∧
  ∀ (i : Instr) (s : State), i.wellFormed = false → ∃ t, exec i s = .next t ∧ Rejected s t .invalidParam 0

/-- 30_encoding.md R103: each opcode 0x09 to 0xFF raises BAD_OPCODE, whatever the other bits. -/
def Obligations.UnassignedOpcodesRaiseBadOpcode : Prop :=
  ∀ (s : State) (snap : Snap), s.eng = .busy snap → 9 ≤ (snap.cmd.extractLsb' 0 8).toNat →
    ∃ t, s.engineTurn = .next t ∧ Rejected s t .badOpcode 0

/-! Descriptors -/

/-- 40_host_interface.md R134: DescValid, over unbounded naturals, with its corner cases and its example. -/
def Obligations.DescriptorValidityIsExact : Prop :=
  (∀ (words : Nat) (d : Desc), d.valid words = true ↔
    1 ≤ d.rows.toNat ∧ 1 ≤ d.cols.toNat ∧ (d.cols.toNat + 31) / 32 ≤ d.stride.toNat ∧
    d.base.toNat + (d.rows.toNat - 1) * d.stride.toNat + (d.cols.toNat + 31) / 32 ≤ words) ∧
  Desc.valid 1024 ⟨1000, 3, 40, 2⟩ = true ∧ Desc.valid 1024 ⟨1000, 3, 40, 1⟩ = false ∧
  Desc.valid 1024 ⟨0, 1, 40, 1⟩ = false ∧
  ∀ (words : Nat) (b : BitVec 32) (cols stride : BitVec 24), 1 ≤ cols.toNat → cols.toNat ≤ 32 → 1 ≤ stride.toNat →
    b.toNat + 1 = words → Desc.valid words ⟨b, 1, cols, stride⟩ = true

/-- 20_memory.md R63: every element of a valid descriptor lies in its span; two descriptors overlap exactly when some word lies
in both spans, and are identical when all four fields are equal; two views that interleave overlap though no bit is shared. -/
def Obligations.SpansCoverElementsAndDecideOverlap : Prop :=
  (∀ (words : Nat) (d : Desc) (r c : Nat), d.valid words = true → r < d.rows.toNat → c < d.cols.toNat →
    d.base.toNat ≤ d.addr r c ∧
    d.addr r c < d.base.toNat + (d.rows.toNat - 1) * d.stride.toNat + (d.cols.toNat + 31) / 32) ∧
  (∀ d e : Desc, d.overlaps e = true ↔ ∃ a, (d.base.toNat ≤ a ∧ a < d.spanEnd) ∧ e.base.toNat ≤ a ∧ a < e.spanEnd) ∧
  (∀ d e : Desc, d.identical e = true ↔
    d.base = e.base ∧ d.rows = e.rows ∧ d.cols = e.cols ∧ d.stride = e.stride) ∧
  (Desc.overlaps ⟨0, 2, 32, 2⟩ ⟨1, 2, 32, 2⟩ = true ∧
    ∀ a i, ¬ ((⟨0, 2, 32, 2⟩ : Desc).holds a i ∧ (⟨1, 2, 32, 2⟩ : Desc).holds a i))

/-- 45_matrix_utility.md R245 and 43_invert.md R206: the descriptor of a block at a column that is a multiple of 32 names the
parent's elements, with the block's rows and columns and the parent's stride; and the descriptor of P is the view of the last
3M columns of H, of 3M rows and 3M columns. -/
def Obligations.BlockDescriptorsNameParentElements : Prop :=
  (∀ (s : State) (d : Desc) (r0 c0 : Nat) (rows cols : BitVec 24) (r c : Nat), c0 % 32 = 0 →
    d.base.toNat + r0 * d.stride.toNat + c0 / 32 < 2 ^ 32 →
    (d.block r0 c0 rows cols).rows = rows ∧ (d.block r0 c0 rows cols).cols = cols ∧
    (d.block r0 c0 rows cols).stride = d.stride ∧ s.bit (d.block r0 c0 rows cols) r c = s.bit d (r0 + r) (c0 + c)) ∧
  (∀ (s : State) (d : Desc) (k mcode r c : Nat), mcode ≤ 6 → d.base.toNat + k * (128 * 2 ^ mcode) / 32 < 2 ^ 32 →
    (d.parityBlock k (128 * 2 ^ mcode)).base.toNat = d.base.toNat + k * (128 * 2 ^ mcode) / 32 ∧
    (d.parityBlock k (128 * 2 ^ mcode)).rows.toNat = 3 * (128 * 2 ^ mcode) ∧
    (d.parityBlock k (128 * 2 ^ mcode)).cols.toNat = 3 * (128 * 2 ^ mcode) ∧
    (d.parityBlock k (128 * 2 ^ mcode)).stride = d.stride ∧
    s.bit (d.parityBlock k (128 * 2 ^ mcode)) r c = s.bit d r (k * (128 * 2 ^ mcode) + c))

/-! Parameters and geometry -/

/-- 41_permutation.md R162: the PERM parameter check on a parameter word, and its error. -/
def Obligations.PermParameterCheckIsExact : Prop :=
  (∀ w : Word, permParamOk (decodePermParam w) = true ↔
    (w.extractLsb' 0 3).toNat ≤ 6 ∧ 1 ≤ (w.extractLsb' 8 5).toNat ∧ (w.extractLsb' 8 5).toNat ≤ 26 ∧
    w &&& 0xFFFCE0F8 = 0) ∧
  ∀ (d : DescIx) (x : Bool) (p : PermParam) (s : State), permParamOk p = false →
    ∃ t, exec (.perm d x p) s = .next t ∧ Rejected s t .invalidParam 0

/-- 42_assembler.md R181, R182: the ASMH parameter check accepts exactly the nine pairs of the table, with no reserved bit,
whatever KIDX; any other parameter word raises INVALID_PARAM(0). -/
def Obligations.AsmhAcceptsExactlyTheNinePairs : Prop :=
  (∀ p : AsmhParam, asmhParamOk p = true ↔
    p.reserved = false ∧
    ((p.rate = 0 ∧ (p.mcode = 2 ∨ p.mcode = 4 ∨ p.mcode = 6)) ∨ (p.rate = 1 ∧ (p.mcode = 1 ∨ p.mcode = 3 ∨ p.mcode = 5)) ∨
      (p.rate = 2 ∧ (p.mcode = 0 ∨ p.mcode = 2 ∨ p.mcode = 4)))) ∧
  (∀ w : Word, (decodeAsmhParam w).reserved = false ↔ w &&& 0xFFFCE0F8 = 0) ∧
  (∀ w w' : Word, w &&& 0xFFFFE0FF = w' &&& 0xFFFFE0FF → decodeAsmhParam w = decodeAsmhParam w') ∧
  (∀ p : AsmhParam, p.mcode.toNat ≤ 6 → ∀ k, bigK p.rate = some k →
    (supportedPair (matrixSize p.mcode) k = true ↔
      k * (128 * 2 ^ p.mcode.toNat) = 1024 ∨ k * (128 * 2 ^ p.mcode.toNat) = 4096 ∨ k * (128 * 2 ^ p.mcode.toNat) = 16384)) ∧
  ∀ (d : DescIx) (p : AsmhParam) (s : State), asmhParamOk p = false →
    ∃ t, exec (.asmh d p) s = .next t ∧ Rejected s t .invalidParam 0

/-- 00_scope.md R10: the geometry table, one row for each supported pair: bigK, M, kdim, H rows, H columns, n. -/
def Obligations.GeometryTableHolds : Prop :=
  ∀ row ∈ [(2, 512, 1024, 1536, 2560, 2048), (4, 256, 1024, 768, 1792, 1536), (8, 128, 1024, 384, 1408, 1280),
      (2, 2048, 4096, 6144, 10240, 8192), (4, 1024, 4096, 3072, 7168, 6144), (8, 512, 4096, 1536, 5632, 5120),
      (2, 8192, 16384, 24576, 40960, 32768), (4, 4096, 16384, 12288, 28672, 24576), (8, 2048, 16384, 6144, 22528, 20480)],
    codeDimension row.1 row.2.1 = row.2.2.1 ∧ hRows row.2.1 = row.2.2.2.1 ∧ hCols row.1 row.2.1 = row.2.2.2.2.1 ∧
    codeLength row.1 row.2.1 = row.2.2.2.2.2

/-- 41_permutation.md R165: the worked value, from the two sourced table entries. -/
def Obligations.FirstPermutationHasTheWorkedColumns : Prop :=
  ∀ p : Params, p.sourced → permColumn p 0 1 0 = 97 ∧ permColumn p 0 1 30 = 127 ∧ permColumn p 0 1 31 = 96 ∧
    ∀ i < 32, permColumn p 0 1 i = 96 + (1 + i) % 32

/-- 41_permutation.md R164: Π_k is a permutation matrix for every size and every k, whatever the tables hold: row i of quadrant
j goes to column quadrant (theta[k−1] + j) mod 4, shifted cyclically inside it, and each column has exactly one 1. -/
def Obligations.PermutationMatrixHasOneOnePerColumn : Prop :=
  ∀ (p : Params) (mcode k : Nat), mcode ≤ 6 → 1 ≤ k → k ≤ 26 →
    (∀ i < 128 * 2 ^ mcode, permColumn p mcode k i < 128 * 2 ^ mcode ∧
      permColumn p mcode k i / (32 * 2 ^ mcode) = (thetaAt p k + i / (32 * 2 ^ mcode)) % 4 ∧
      permColumn p mcode k i % (32 * 2 ^ mcode) = (phiAt p (i / (32 * 2 ^ mcode)) mcode k + i) % (32 * 2 ^ mcode)) ∧
    ∀ c < 128 * 2 ^ mcode, ∃ i < 128 * 2 ^ mcode, permColumn p mcode k i = c ∧
      ∀ i' < 128 * 2 ^ mcode, permColumn p mcode k i' = c → i' = i

/-- 42_assembler.md R188, under premise G2 (log 7) and the sourced theta[0] = 3: each row of block row 0 of H has exactly three
ones, at every rate. -/
def Obligations.FirstBlockRowHasWeightThree : Prop :=
  ∀ (p : Params) (rate : BitVec 2) (k mcode r : Nat), p.theta.getD 0 0 = 3 → mcode ≤ 6 → bigK rate = some k →
    r < 128 * 2 ^ mcode →
    permColumn p mcode 1 r ≠ r ∧ permColumn p mcode 1 r < 128 * 2 ^ mcode ∧
    ∀ c < (k + 3) * (128 * 2 ^ mcode), (assembleH p mcode (template rate)).at r c = true ↔
      c = k * (128 * 2 ^ mcode) + r ∨ c = (k + 2) * (128 * 2 ^ mcode) + r ∨
      c = (k + 2) * (128 * 2 ^ mcode) + permColumn p mcode 1 r

/-- 42_assembler.md R189, under premise G2 (log 7): the worked rows of H at M = 128 and rate 4/5. -/
def Obligations.AssembledRowsHaveTheWorkedColumns : Prop :=
  ∀ (p : Params) (i c : Nat), p.sourced → i < 32 → c < 1408 →
    ((assembleH p 0 (template 2)).at i c = true ↔ c = 1024 + i ∨ c = 1280 + i ∨ c = 1376 + (1 + i) % 32)

/-- 42_assembler.md R184 to R187, R190, under premises G2 to G4 (log 7): the template of each rate, block by block; each embeds
the one before it; the last three block columns are R190's at every rate; and rate 4/5 uses each k from 1 to 26 exactly
once. -/
def Obligations.TemplatesShareTheParityBlock : Prop :=
  template 0 =
    [[[], [], [.ident], [], [.ident, .perm 1]],
     [[.ident], [.ident], [], [.ident], [.perm 2, .perm 3, .perm 4]],
     [[.ident], [.perm 5, .perm 6], [], [.perm 7, .perm 8], [.ident]]] ∧
  (template 1).map (·.take 2) =
    [[[], []],
     [[.perm 9, .perm 10, .perm 11], [.ident]],
     [[.ident], [.perm 12, .perm 13, .perm 14]]] ∧
  (template 1).map (·.drop 2) = template 0 ∧
  (template 2).map (·.take 4) =
    [[[], [], [], []],
     [[.perm 21, .perm 22, .perm 23], [.ident], [.perm 15, .perm 16, .perm 17], [.ident]],
     [[.ident], [.perm 24, .perm 25, .perm 26], [.ident], [.perm 18, .perm 19, .perm 20]]] ∧
  (template 2).map (·.drop 4) = template 1 ∧
  (∀ rate k, bigK rate = some k → (template rate).map (·.drop k) =
    [[[.ident], [], [.ident, .perm 1]],
     [[], [.ident], [.perm 2, .perm 3, .perm 4]],
     [[], [.perm 7, .perm 8], [.ident]]]) ∧
  ∀ k < 40, (templateFourFifths.flatten.flatten.filter (· = .perm k)).length = if 1 ≤ k ∧ k ≤ 26 then 1 else 0

/-! Validation and completion -/

/-- 40_host_interface.md R133, 60_exceptions.md R275: the checks run in their fixed order and the first that fails is reported,
with its ERRINFO, MM and every other register unchanged; after all pass, only INV can still fail, with SINGULAR. -/
def Obligations.FirstFailingCheckIsReported : Prop :=
  (∀ (s : State) (snap : Snap) (e : DecodeError), s.eng = .busy snap → decode snap.cmd snap.param = .error e →
    ∃ t, s.engineTurn = .next t ∧ Rejected s t .badOpcode 0) ∧
  ∀ (i : Instr) (s : State),
    (¬ ParamPasses i → ∃ t, exec i s = .next t ∧ Rejected s t .invalidParam 0) ∧
    (∀ before k after, ParamPasses i → rolesUsed i = before ++ k :: after → (∀ j ∈ before, s.OperandValid j) →
      ¬ s.OperandValid k → ∃ t, exec i s = .next t ∧ Rejected s t .badDesc (BitVec.ofNat 32 k.val)) ∧
    (ParamPasses i → (∀ k ∈ rolesUsed i, s.OperandValid k) → ¬ ShapePasses s i →
      ∃ t, exec i s = .next t ∧ Rejected s t .shapeMismatch 0) ∧
    (ParamPasses i → (∀ k ∈ rolesUsed i, s.OperandValid k) → ShapePasses s i → OverlapFails s i →
      ∃ t, exec i s = .next t ∧ Rejected s t .overlap 0) ∧
    (ChecksPass s i → ∃ t, exec i s = .next t ∧ (t.errcode = .none ∨ (opcodeOf i = .inv ∧ t.errcode = .singular)))

/-- 40_host_interface.md R137: after a validation failure, codes 1 to 5, no word of MM and no register but those the completion
names has changed. -/
def Obligations.ValidationFailureChangesNothingElse : Prop :=
  ∀ (s t : State), s.engineTurn = .next t → s.busy = true →
    t.errcode = .badOpcode ∨ t.errcode = .invalidParam ∨ t.errcode = .badDesc ∨ t.errcode = .shapeMismatch ∨
      t.errcode = .overlap →
    t.mm = s.mm ∧ RegistersKept s t ∧ t.eng = .idle ∧ t.done = true

/-- 40_host_interface.md R138, 60_exceptions.md R277: whatever the outcome, a command changes no bit of MM outside its write
set, no register but the completion record, and leaves the engine idle with DONE set. -/
def Obligations.CommandsWriteOnlyTheirWriteSet : Prop :=
  ∀ (i : Instr) (s t : State), Memory.wf s.cfg.mmemWords s.mm → exec i s = .next t →
    MemoryKept s t ((writeRoles i).map s.operand) ∧ RegistersKept s t ∧ t.eng = .idle ∧ t.done = true ∧
    (opcodeOf i ≠ .inv → t.draws = s.draws) ∧ (opcodeOf i = .nop → t.mm = s.mm)

/-- 45_matrix_utility.md R240: NOP succeeds whatever the descriptors hold and changes no word of MM; after reset, STATUS then
reads 0x00000002. -/
def Obligations.NopCompletes : Prop :=
  (∀ s : State, ∃ t, exec .nop s = .next t ∧ Completed t .none 0 ∧ RegistersKept s t ∧ t.mm = s.mm ∧ t.draws = s.draws) ∧
  ∀ cfg : Params, ∃ t, (State.powerOnWith cfg).start.engineTurn = .next t ∧ t.statusWord = 0x00000002

/-- 41_permutation.md R163: PERM writes Π_k, or with X adds it to the old destination, and nothing else. -/
def Obligations.PermWritesThePermutation : Prop :=
  ∀ (d : DescIx) (x : Bool) (p : PermParam) (s : State), Memory.wf s.cfg.mmemWords s.mm → ChecksPass s (.perm d x p) →
    ∃ t, exec (.perm d x p) s = .next t ∧ Succeeded s t [s.operand d] ∧ t.draws = s.draws ∧
      ∀ r < matrixSize p.mcode, ∀ c < matrixSize p.mcode,
        t.bit (s.operand d) r c =
          ((x && s.bit (s.operand d) r c) ^^ decide (c = permColumn s.cfg p.mcode.toNat p.kidx.toNat r))

/-- 42_assembler.md R183, R187, under premises G2 to G4 for the templates (log 7): ASMH writes H for the rate at size M and
nothing else. -/
def Obligations.AsmhWritesTheParityCheckMatrix : Prop :=
  ∀ (d : DescIx) (p : AsmhParam) (s : State), Memory.wf s.cfg.mmemWords s.mm → ChecksPass s (.asmh d p) →
    ∃ t, exec (.asmh d p) s = .next t ∧ Succeeded s t [s.operand d] ∧ t.draws = s.draws ∧
      ∀ r < s.rowsOf d, ∀ c < s.colsOf d,
        t.bit (s.operand d) r c = hElement s.cfg p.rate p.mcode.toNat r c

/-- 43_invert.md R200, R201: INV of an invertible matrix writes its two-sided inverse, leaves A, and changes nothing outside the
elements of D and S; what S holds is free (R205, log 4). -/
def Obligations.InvWritesTheInverse : Prop :=
  ∀ (d a sc : DescIx) (s : State), Memory.wf s.cfg.mmemWords s.mm → ChecksPass s (.inv d a sc) →
    (∃ x, IsInverse (s.rowsOf a) x (s.bit (s.operand a))) →
    ∃ t, exec (.inv d a sc) s = .next t ∧ Succeeded s t [s.operand d, s.operand sc] ∧
      IsInverse (s.rowsOf a) (t.bit (s.operand d)) (s.bit (s.operand a)) ∧
      IsInverse (s.rowsOf a) (s.bit (s.operand a)) (t.bit (s.operand d)) ∧
      ∀ r < s.rowsOf a, ∀ c < s.rowsOf a, t.bit (s.operand a) r c = s.bit (s.operand a) r c

/-- 43_invert.md R202: INV reports SINGULAR(i) for the smallest row i that is a combination of the rows before it, whatever the
algorithm, and changes nothing outside the elements of D and S. -/
def Obligations.InvReportsTheFirstDependentRow : Prop :=
  ∀ (d a sc : DescIx) (s : State) (i : Nat), Memory.wf s.cfg.mmemWords s.mm → ChecksPass s (.inv d a sc) →
    i < s.rowsOf a → RowDependent (s.rowsOf a) (s.bit (s.operand a)) i →
    (∀ t < i, ¬ RowDependent (s.rowsOf a) (s.bit (s.operand a)) t) →
    ∃ t, exec (.inv d a sc) s = .next t ∧ Completed t .singular (BitVec.ofNat 32 i) ∧ RegistersKept s t ∧
      MemoryKept s t [s.operand d, s.operand sc]

/-- 43_invert.md R200, R202, R208: INV ends with SINGULAR exactly when the matrix has no inverse. -/
def Obligations.InvIsSingularExactlyWithoutInverse : Prop :=
  ∀ (d a sc : DescIx) (s : State), Memory.wf s.cfg.mmemWords s.mm → ChecksPass s (.inv d a sc) →
    ∃ t, exec (.inv d a sc) s = .next t ∧
      (t.errcode = .singular ↔ ¬ ∃ x, IsInverse (s.rowsOf a) x (s.bit (s.operand a))) ∧
      (t.errcode = .singular ∨ t.errcode = .none)

/-- 44_multiply.md R220: MUL writes the product, transposed with T and added to the old destination with X, and nothing else. -/
def Obligations.MulWritesTheProduct : Prop :=
  ∀ (d a b : DescIx) (x t : Bool) (s : State), Memory.wf s.cfg.mmemWords s.mm → ChecksPass s (.mul d a b x t) →
    ∃ u, exec (.mul d a b x t) s = .next u ∧ Succeeded s u [s.operand d] ∧ u.draws = s.draws ∧
      ∀ i < s.rowsOf a, ∀ j < s.colsOf b,
        let r := if t then j else i
        let c := if t then i else j
        u.bit (s.operand d) r c = ((x && s.bit (s.operand d) r c) ^^
          xorSum (s.colsOf a) fun k => s.bit (s.operand a) i k && s.bit (s.operand b) k j)

/-- 45_matrix_utility.md R241: ZERO clears the elements of its destination and nothing else. -/
def Obligations.ZeroClearsTheMatrix : Prop :=
  ∀ (d : DescIx) (s : State), Memory.wf s.cfg.mmemWords s.mm → ChecksPass s (.zero d) →
    ∃ t, exec (.zero d) s = .next t ∧ Succeeded s t [s.operand d] ∧ t.draws = s.draws ∧
      ∀ r < s.rowsOf d, ∀ c < s.colsOf d, t.bit (s.operand d) r c = false

/-- 45_matrix_utility.md R242: IDENT writes the identity, or with X adds it to the old destination, and nothing else. -/
def Obligations.IdentWritesTheIdentity : Prop :=
  ∀ (d : DescIx) (x : Bool) (s : State), Memory.wf s.cfg.mmemWords s.mm → ChecksPass s (.ident d x) →
    ∃ t, exec (.ident d x) s = .next t ∧ Succeeded s t [s.operand d] ∧ t.draws = s.draws ∧
      ∀ r < s.rowsOf d, ∀ c < s.colsOf d,
        t.bit (s.operand d) r c = ((x && s.bit (s.operand d) r c) ^^ decide (r = c))

/-- 45_matrix_utility.md R243: COPY writes the source, transposed with T, and nothing else; onto an identical descriptor it
changes no word of MM. -/
def Obligations.CopyWritesTheSource : Prop :=
  ∀ (d a : DescIx) (t : Bool) (s : State), Memory.wf s.cfg.mmemWords s.mm → ChecksPass s (.copy d a t) →
    ∃ u, exec (.copy d a t) s = .next u ∧ Succeeded s u [s.operand d] ∧ u.draws = s.draws ∧
      (∀ r < s.rowsOf a, ∀ c < s.colsOf a,
        u.bit (s.operand d) (if t then c else r) (if t then r else c) = s.bit (s.operand a) r c) ∧
      (s.Identical d a → ∀ w, u.readWord w = s.readWord w)

/-- 45_matrix_utility.md R244: ADD writes the element-wise XOR of its sources, also in place, and nothing else. -/
def Obligations.AddWritesTheSum : Prop :=
  ∀ (d a b : DescIx) (s : State), Memory.wf s.cfg.mmemWords s.mm → ChecksPass s (.add d a b) →
    ∃ t, exec (.add d a b) s = .next t ∧ Succeeded s t [s.operand d] ∧ t.draws = s.draws ∧
      ∀ r < s.rowsOf d, ∀ c < s.colsOf d,
        t.bit (s.operand d) r c = (s.bit (s.operand a) r c ^^ s.bit (s.operand b) r c)

/-- 41_permutation.md R163, 45_matrix_utility.md R242, 44_multiply.md R221: an accumulating PERM, IDENT or MUL issued twice
restores every word of MM. -/
def Obligations.AccumulatingTwiceRestoresMemory : Prop :=
  ∀ (i : Instr) (s : State), s.Inv →
    (∃ d p, i = .perm d true p) ∨ (∃ d, i = .ident d true) ∨ (∃ d a b t, i = .mul d a b true t) → ChecksPass s i →
    ∃ t u, exec i s = .next t ∧ exec i t.start = .next u ∧ ∀ a, u.readWord a = s.readWord a

/-! The whole machine -/

/-- 40_host_interface.md R131, R132 (log 1, log 10): when the latched words decode to a command, the engine's turn is the
meaning of that command; and withFetchWord puts exactly the decoded command there. -/
def Obligations.StepRunsTheDecodedCommand : Prop :=
  (∀ (s : State) (snap : Snap) (i : Instr), s.eng = .busy snap → decode snap.cmd snap.param = .ok i →
    (s.inputs = [] → step s = exec i s) ∧
    ∀ rest, s.inputs = .complete :: rest → step s = exec i { s with inputs := rest }) ∧
  ∀ (s : State) (nbits w : Nat) (i : Instr), decodeTableWord nbits w = some i →
    step (s.withFetchWord nbits w) = exec i { s.withFetchWord nbits w with inputs := s.inputs }

/-- 00_scope.md R15, R19, 40_host_interface.md R131, 60_exceptions.md R285 (log 1): a host access that arrives next is the step;
a completion that arrives next, or nothing arriving, is the engine's turn; and the turn of an idle engine does nothing. -/
def Obligations.StepTakesInputsInOrder : Prop :=
  (∀ (s : State) (w : Width) (off : BitVec 12) (rest : List Input), s.inputs = .read w off :: rest →
    step s = .next ({ s with inputs := rest }.busRead w off)) ∧
  (∀ (s : State) (w : Width) (off : BitVec 12) (v : Word) (rest : List Input), s.inputs = .write w off v :: rest →
    step s = .next ({ s with inputs := rest }.busWrite w off v)) ∧
  (∀ s : State, s.inputs = [] → step s = s.engineTurn) ∧
  (∀ (s : State) (rest : List Input), s.inputs = .complete :: rest → step s = { s with inputs := rest }.engineTurn) ∧
  ∀ s : State, s.eng = .idle → s.engineTurn = .next s

/-- The model's deduction (log 14, DEDUCED) from 60_exceptions.md R271, which says that no error of a command stops the engine:
every state has a next state. -/
def Obligations.EveryStateHasANextState : Prop := ∀ s : State, ∃ t, step s = .next t

/-- The reset state meets the invariant, for any parameters in range (log 5, log 6 for State.reset's own). -/
def Obligations.ResetMeetsTheInvariant : Prop :=
  State.reset.Inv ∧ ∀ cfg : Params, cfg.inRange → cfg.sourced → (State.powerOnWith cfg).Inv

/-- 10_state.md R41, R43, 20_memory.md R61, 40_host_interface.md R126: every step keeps the invariant: memory canonical and inside
MM, parameters in range, ERRINFO fitting its code, and a busy engine running what the locked registers hold, with DONE,
ERRCODE and ERRINFO clear. -/
def Obligations.EveryStepKeepsTheInvariant : Prop :=
  ∀ s t : State, s.Inv → step s = .next t → t.Inv

/-- 10_state.md R40, 00_scope.md R9: no step changes a table or MMEM_WORDS. -/
def Obligations.TablesNeverChange : Prop := ∀ s t : State, step s = .next t → t.cfg = s.cfg

/-- 10_state.md R27, R43: DONE rises only when a busy engine takes its turn, which leaves it idle; BUSY rises only with an
accepted START. -/
def Obligations.DoneAndBusyRiseOnlyAsStated : Prop :=
  ∀ s t : State, step s = .next t →
    (s.done = false → t.done = true →
      s.busy = true ∧ t.busy = false ∧ (s.inputs = [] ∨ ∃ rest, s.inputs = .complete :: rest)) ∧
    (s.busy = false → t.busy = true →
      ∃ v rest, s.inputs = .write .w32 0x008 v :: rest ∧ v.getLsbD 0 = true ∧ v.getLsbD 1 = false)

/-- 10_state.md R43, 60_exceptions.md R273: OVR rises only with an access refused while busy, and AERR only with an MDATA access
outside MM of an idle engine; neither is cleared but by a STATUS or CTRL write or power-on reset. -/
def Obligations.AccessFlagsChangeOnlyAsStated : Prop :=
  ∀ s t : State, step s = .next t →
    (s.ovr = false → t.ovr = true → s.busy = true ∧ ∃ a rest, s.inputs = a :: rest ∧
      (a = .read .w32 0x024 ∨ (∃ off v, a = .write .w32 off v ∧ off.toNat % 4 = 0 ∧
        ((regAt off).locked = true ∨ (off = 0x008 ∧ v.getLsbD 0 = true ∧ v.getLsbD 1 = false))))) ∧
    (s.aerr = false → t.aerr = true → s.busy = false ∧ s.cfg.mmemWords ≤ s.maddr.toNat ∧
      ∃ a rest, s.inputs = a :: rest ∧ (a = .read .w32 0x024 ∨ ∃ v, a = .write .w32 0x024 v)) ∧
    ((s.ovr = true ∧ t.ovr = false) ∨ (s.aerr = true ∧ t.aerr = false) → ∃ a rest, s.inputs = a :: rest ∧
      (a = .powerOn ∨ ∃ v, a = .write .w32 0x00C v ∨ (a = .write .w32 0x008 v ∧ v.getLsbD 1 = true)))

/-- 40_host_interface.md R129, 20_memory.md R73: MM, which is `mm` with the draw of its unwritten words (log 4), changes only by an MDATA write of an idle engine inside MM, by the turn of a
busy engine, by a soft reset of a busy engine, or by power-on reset. -/
def Obligations.MemoryChangesOnlyAsStated : Prop :=
  ∀ s t : State, step s = .next t → t.mm ≠ s.mm ∨ t.powerDraw ≠ s.powerDraw →
    (s.busy = false ∧ s.maddr.toNat < s.cfg.mmemWords ∧ ∃ v rest, s.inputs = .write .w32 0x024 v :: rest) ∨
    (s.busy = true ∧ t.busy = false ∧ t.done = true ∧ (s.inputs = [] ∨ ∃ rest, s.inputs = .complete :: rest)) ∨
    (s.busy = true ∧ ∃ v rest, s.inputs = .write .w32 0x008 v :: rest ∧ v.getLsbD 1 = true) ∨
    ∃ rest, s.inputs = .powerOn :: rest

/-- 10_state.md R42, 60_exceptions.md R274: irq rises only when a command completes with IRQEN = 1 or when a CTRL write sets IRQEN
while DONE = 1. -/
def Obligations.InterruptRisesOnlyAsStated : Prop :=
  (∀ s : State, s.irq = true ↔ s.irqen = true ∧ s.done = true) ∧
  ∀ s t : State, step s = .next t → s.irq = false → t.irq = true →
    (s.busy = true ∧ t.busy = false ∧ s.irqen = true) ∨
    (s.done = true ∧ ∃ v rest, s.inputs = .write .w32 0x008 v :: rest ∧ v.getLsbD 2 = true ∧ v.getLsbD 1 = false)

/-- 10_state.md R41, 20_memory.md R76: a running command reads only its snapshot and MM: with other values in CMD, PARAM and the
descriptor registers it does the same. -/
def Obligations.CommandsReadOnlyTheSnapshot : Prop :=
  ∀ (i : Instr) (s : State) (snap : Snap) (cmd param : Word) (md : Vector Desc 8), s.eng = .busy snap →
    ∃ t, exec i s = .next t ∧
      exec i { s with cmd := cmd, param := param, md := md } = .next { t with cmd := cmd, param := param, md := md }

/-- 20_memory.md R65: no command's outcome or result depends on a bit of MM outside the elements of its source descriptors. -/
def Obligations.ResultsIgnoreBitsOutsideSources : Prop :=
  ∀ (i : Instr) (s : State) (mm : Memory) (draw : Nat), Memory.wf s.cfg.mmemWords s.mm → Memory.wf s.cfg.mmemWords mm →
    (∀ k ∈ sourceRoles i, ∀ r < s.rowsOf k, ∀ c < s.colsOf k,
      { s with mm := mm, powerDraw := draw }.bit (s.operand k) r c = s.bit (s.operand k) r c) →
    ∃ t u, exec i s = .next t ∧ exec i { s with mm := mm, powerDraw := draw } = .next u ∧ u.errcode = t.errcode ∧
      u.errinfo = t.errinfo ∧
      (t.errcode = .none → ∀ k ∈ destination i, ∀ r < s.rowsOf k, ∀ c < s.colsOf k,
        u.bit (s.operand k) r c = t.bit (s.operand k) r c)

/-- 70_reset_and_hazards.md R312 (log 1): a busy engine completes: one step after the last input, the engine is idle. -/
def Obligations.EngineIsIdleAfterTheLastInput : Prop :=
  ∀ s : State, ∃ t, Host.Core.run Sys2Proof.core (s.inputs.length + 1) s = .next t ∧ t.eng = .idle ∧ t.inputs = []
end

