-- ==== Sys2Proof/Laws/Memory.lean ====
section
/-! SUPPORT. What the operations over matrix memory do: a read after a store, the frame of a store, and the canonical form. -/

namespace Sys2Proof.Machine

theorem Memory.lookup_cons (c : Host.Cell) (m : Memory) (a : Nat) :
    Memory.lookup (c :: m) a = if c.1 = a then some c.2 else Memory.lookup m a := by
  obtain ⟨k, b⟩ := c
  cases hb : Nat.beq k a with
  | true => simp [Memory.lookup, Nat.eq_of_beq_eq_true hb]
  | false => simp [Memory.lookup, hb, Nat.ne_of_beq_eq_false hb]

theorem Memory.lookup_append (m m' : Memory) (a : Nat) :
    Memory.lookup (m ++ m') a = (Memory.lookup m a).or (Memory.lookup m' a) := by
  induction m with
  | nil => simp [Memory.lookup]
  | cons c m ih => by_cases h : c.1 = a <;> simp [Memory.lookup_cons, h, ih]

/-- An address no entry has is not listed. -/
theorem Memory.lookup_eq_none (m : Memory) (a : Nat) (h : ∀ c ∈ m, c.1 ≠ a) : Memory.lookup m a = none := by
  induction m with
  | nil => rfl
  | cons c m ih =>
    simp only [List.mem_cons, forall_eq_or_imp] at h
    simp [Memory.lookup_cons, h.1, ih h.2]

theorem Memory.below_lt (m : Memory) (a : Nat) : ∀ c ∈ m.below a, c.1 < a := by
  intro c h
  have := List.mem_takeWhile_imp h
  simpa [Nat.blt_eq] using this

/-- Among rising addresses the entries at or above `a` are those the lookup finds there. -/
theorem Memory.above_ge (m : Memory) (a : Nat) (hm : m.Pairwise (fun x y => x.1 < y.1)) :
    ∀ c ∈ m.above a, a ≤ c.1 := by
  induction m with
  | nil => simp [Memory.above]
  | cons c m ih =>
    rw [List.pairwise_cons] at hm
    by_cases h : c.1 < a
    · have : (Memory.above (c :: m) a) = Memory.above m a := by
        simp [Memory.above, Nat.blt_eq, h]
      rw [this]; exact ih hm.2
    · have : (Memory.above (c :: m) a) = c :: m := by
        simp [Memory.above, h]
      rw [this]
      intro x hx
      rcases List.mem_cons.mp hx with rfl | hx
      · omega
      · have := hm.1 x hx; omega

theorem Memory.below_append_above (m : Memory) (a : Nat) : m.below a ++ m.above a = m :=
  List.takeWhile_append_dropWhile

theorem Memory.above_sublist (m : Memory) (a : Nat) : List.Sublist (m.above a) m := List.dropWhile_sublist _

theorem Memory.below_sublist (m : Memory) (a : Nat) : List.Sublist (m.below a) m := List.takeWhile_sublist _

/-- A lookup sees only the part of a memory its address lies in. -/
theorem Memory.lookup_below (m : Memory) (hm : m.Pairwise (fun x y => x.1 < y.1)) {a b : Nat} (h : b < a) :
    Memory.lookup (m.below a) b = Memory.lookup m b := by
  conv_rhs => rw [← Memory.below_append_above m a, Memory.lookup_append]
  rw [Memory.lookup_eq_none (m.above a) b]
  · simp
  · intro c hc; have := Memory.above_ge m a hm c hc; omega

theorem Memory.lookup_above (m : Memory) {a b : Nat} (h : a ≤ b) :
    Memory.lookup (m.above a) b = Memory.lookup m b := by
  conv_rhs => rw [← Memory.below_append_above m a, Memory.lookup_append]
  rw [Memory.lookup_eq_none (m.below a) b]
  · simp
  · intro c hc; have := Memory.below_lt m a c hc; omega

theorem Memory.lookup_below_of_ge (m : Memory) {a b : Nat} (h : a ≤ b) : Memory.lookup (m.below a) b = none := by
  apply Memory.lookup_eq_none
  intro c hc; have := Memory.below_lt m a c hc; omega

/-- Everything a patch can put in a memory: entries at its own addresses, and old entries. -/
theorem Memory.mem_patch (f : Nat → Option Byte) (n a : Nat) (m : Memory) :
    ∀ c ∈ Memory.patch f n a m, c ∈ m ∨ (a ≤ c.1 ∧ c.1 < a + n) := by
  induction n generalizing a m with
  | zero => intro c hc; exact .inl hc
  | succ n ih =>
    intro c hc
    have hab := (Memory.below_sublist m a).subset
    have hab' := (Memory.below_sublist m (a + 1)).subset
    have haa := (Memory.above_sublist m (a + 1)).subset
    simp only [Memory.patch] at hc
    split at hc
    · rcases List.mem_append.mp hc with h | h
      · exact .inl (hab h)
      · rcases List.mem_cons.mp h with rfl | h
        · exact .inr ⟨le_refl _, by simp⟩
        · rcases ih _ _ c h with h | h
          · exact .inl (haa h)
          · exact .inr ⟨by omega, by omega⟩
    · rcases List.mem_append.mp hc with h | h
      · exact .inl (hab' h)
      · rcases ih _ _ c h with h | h
        · exact .inl (haa h)
        · exact .inr ⟨by omega, by omega⟩

/-- A patch keeps addresses strictly rising. -/
theorem Memory.patch_pairwise (f : Nat → Option Byte) (n a : Nat) (m : Memory)
    (hm : m.Pairwise (fun x y => x.1 < y.1)) : (Memory.patch f n a m).Pairwise (fun x y => x.1 < y.1) := by
  induction n generalizing a m with
  | zero => exact hm
  | succ n ih =>
    have hrest := ih (a + 1) (m.above (a + 1)) (hm.sublist (Memory.above_sublist m _))
    have hge : ∀ c ∈ Memory.patch f n (a + 1) (m.above (a + 1)), a + 1 ≤ c.1 := by
      intro c hc
      rcases Memory.mem_patch f n (a + 1) _ c hc with h | h
      · exact Memory.above_ge m (a + 1) hm c h
      · exact h.1
    simp only [Memory.patch]
    split
    · refine List.pairwise_append.mpr ⟨hm.sublist (Memory.below_sublist m _), List.pairwise_cons.mpr ⟨?_, hrest⟩, ?_⟩
      · intro c hc; have := hge c hc; simp; omega
      · intro x hx y hy
        have hxa := Memory.below_lt m a x hx
        rcases List.mem_cons.mp hy with rfl | hy
        · exact hxa
        · have := hge y hy; omega
    · refine List.pairwise_append.mpr ⟨hm.sublist (Memory.below_sublist m _), hrest, ?_⟩
      intro x hx y hy
      have := Memory.below_lt m (a + 1) x hx
      have := hge y hy
      omega

/-- What a lookup finds after a patch: inside the patched addresses the new byte where there is one, and everywhere else
what was there. -/
theorem Memory.lookup_patch (f : Nat → Option Byte) (n a : Nat) (m : Memory)
    (hm : m.Pairwise (fun x y => x.1 < y.1)) (b : Nat) :
    Memory.lookup (Memory.patch f n a m) b =
      if a ≤ b ∧ b < a + n then (f b).or (Memory.lookup m b) else Memory.lookup m b := by
  induction n generalizing a m with
  | zero => simp [Memory.patch]
  | succ n ih =>
    have hm' := hm.sublist (Memory.above_sublist m (a + 1))
    have hrest := ih (a + 1) (m.above (a + 1)) hm'
    rcases Nat.lt_trichotomy b a with hb | rfl | hb
    · have hnone : Memory.lookup (Memory.patch f n (a + 1) (m.above (a + 1))) b = none := by
        apply Memory.lookup_eq_none
        intro c hc
        rcases Memory.mem_patch f n (a + 1) _ c hc with h | h
        · have := Memory.above_ge m (a + 1) hm c h; omega
        · omega
      have hlow := Memory.lookup_below m hm hb
      have hlow' := Memory.lookup_below m hm (show b < a + 1 by omega)
      rw [if_neg (by omega)]
      simp only [Memory.patch]
      split
      · rw [Memory.lookup_append, hlow, Memory.lookup_cons, hnone]
        simp [show a ≠ b by omega]
      · rw [Memory.lookup_append, hlow', hnone]; simp
    · have hlow := Memory.lookup_below m hm (show b < b + 1 by omega)
      have hnone : Memory.lookup (Memory.patch f n (b + 1) (m.above (b + 1))) b = none := by
        apply Memory.lookup_eq_none
        intro c hc
        rcases Memory.mem_patch f n (b + 1) _ c hc with h | h
        · have := Memory.above_ge m (b + 1) hm c h; omega
        · omega
      rw [if_pos (by omega)]
      simp only [Memory.patch]
      split
      · next v hv =>
        rw [Memory.lookup_append, Memory.lookup_below_of_ge m (le_refl _), Memory.lookup_cons, hv]; simp
      · next hv => rw [Memory.lookup_append, hlow, hnone, hv]; simp
    · have hup := Memory.lookup_above m (show a + 1 ≤ b by omega)
      have hcond : (a ≤ b ∧ b < a + (n + 1)) ↔ (a + 1 ≤ b ∧ b < a + 1 + n) := by omega
      simp only [Memory.patch]
      split
      · rw [Memory.lookup_append, Memory.lookup_below_of_ge m (by omega), Memory.lookup_cons, hrest, hup]
        simp [show a ≠ b by omega, hcond]
      · rw [Memory.lookup_append, Memory.lookup_below_of_ge m (by omega), hrest, hup]
        simp [hcond]

/-- The reset memory is canonical. -/
theorem Memory.wf_nil (words : Nat) : Memory.wf words [] := by simp [Memory.wf]

/-- A patch inside MM keeps the canonical form. -/
theorem Memory.patch_wf {words : Nat} {m : Memory} (hm : Memory.wf words m) (f : Nat → Option Byte) (n a : Nat)
    (h : n = 0 ∨ a + n ≤ 4 * words) : Memory.wf words (Memory.patch f n a m) := by
  refine ⟨Memory.patch_pairwise f n a m hm.1, ?_⟩
  intro c hc
  rcases Memory.mem_patch f n a m c hc with h' | h'
  · exact hm.2 c h'
  · omega

/-- Every store of bytes keeps the canonical form (log 3). -/
theorem State.patch_wf (s : State) (a n : Nat) (f : Nat → Option Byte) (h : Memory.wf s.cfg.mmemWords s.mm) :
    Memory.wf (s.patch a n f).cfg.mmemWords (s.patch a n f).mm := by
  apply Memory.patch_wf h
  omega

end Sys2Proof.Machine
end

