-- ==== Sys2Proof/Laws/Store.lean ====
section
/-! SUPPORT. Words, elements and stores, bit by bit: what `Store(d, X)` changes and what it leaves (20_memory.md R62 to R65). -/

namespace Sys2Proof.Machine

theorem byteOf_getLsbD (f : Nat → Bool) {i : Nat} (h : i < 8) : (byteOf f).getLsbD i = f i := by
  have key : ∀ b0 b1 b2 b3 b4 b5 b6 b7 : Bool, ∀ i : Fin 8,
      (BitVec.ofNat 8 (b0.toNat + 2 * (b1.toNat + 2 * (b2.toNat + 2 * (b3.toNat + 2 * (b4.toNat + 2 * (b5.toNat +
        2 * (b6.toNat + 2 * b7.toNat)))))))).getLsbD i = [b0, b1, b2, b3, b4, b5, b6, b7].getD i false := by decide
  have := key (f 0) (f 1) (f 2) (f 3) (f 4) (f 5) (f 6) (f 7) ⟨i, h⟩
  rw [byteOf]
  refine this.trans ?_
  have : i = 0 ∨ i = 1 ∨ i = 2 ∨ i = 3 ∨ i = 4 ∨ i = 5 ∨ i = 6 ∨ i = 7 := by omega
  rcases this with rfl | rfl | rfl | rfl | rfl | rfl | rfl | rfl <;> rfl

/-- A bit of a word is a bit of MM. -/
theorem State.readWord_bit (s : State) (a : Nat) {i : Nat} (h : i < 32) :
    (s.readWord a).getLsbD i = s.mmBit (32 * a + i) := by
  have hq : (32 * a + i) / 8 = 4 * a + i / 8 := by omega
  have hr : (32 * a + i) % 8 = i % 8 := by omega
  simp only [State.readWord, BitVec.getLsbD_append, State.mmBit, hq, hr]
  have : i / 8 = 0 ∨ i / 8 = 1 ∨ i / 8 = 2 ∨ i / 8 = 3 := by omega
  rcases this with h0 | h0 | h0 | h0
  · rw [if_pos (by omega), h0, show i % 8 = i by omega]; simp
  · rw [if_neg (by omega), if_pos (by omega), h0, show i % 8 = i - 8 by omega]
  · rw [if_neg (by omega), if_neg (by omega), if_pos (by omega), h0, show i % 8 = i - 8 - 8 by omega]
  · rw [if_neg (by omega), if_neg (by omega), if_neg (by omega), h0, show i % 8 = i - 8 - 8 - 8 by omega]

/-- Two words are equal when their bits of MM are. -/
theorem State.readWord_congr {s t : State} {a : Nat} (h : ∀ i < 32, t.mmBit (32 * a + i) = s.mmBit (32 * a + i)) :
    t.readWord a = s.readWord a := by
  apply BitVec.eq_of_getLsbD_eq
  intro i hi
  rw [State.readWord_bit _ _ hi, State.readWord_bit _ _ hi, h i hi]

theorem Desc.bitIndex_eq (d : Desc) (r c : Nat) :
    d.bitIndex r c = 32 * d.base.toNat + r * (32 * d.stride.toNat) + c := by
  have e : 32 * (r * d.stride.toNat) = r * (32 * d.stride.toNat) := by ring
  simp only [Desc.bitIndex, Desc.addr]; omega

/-- `Bit(d, r, c)` is the bit of MM with the element's number. -/
theorem State.bit_eq_mmBit (s : State) (d : Desc) (r c : Nat) : s.bit d r c = s.mmBit (d.bitIndex r c) := by
  rw [State.bit, State.readWord_bit _ _ (Nat.mod_lt _ (by decide)), Desc.bitIndex]

/-- The element a bit of MM holds is in range and has that bit's number. -/
theorem Desc.elementAt_some {d : Desc} {n r c : Nat} (h : d.elementAt n = some (r, c)) :
    r < d.rows.toNat ∧ c < d.cols.toNat ∧ d.bitIndex r c = n := by
  simp only [Desc.elementAt] at h
  split at h
  case isTrue hc =>
    obtain ⟨h1, h2, h3⟩ := hc
    simp only [Option.some.injEq, Prod.mk.injEq] at h
    obtain ⟨rfl, rfl⟩ := h
    refine ⟨by omega, h3, ?_⟩
    rw [Desc.bitIndex_eq]
    have : min (d.rows.toNat - 1) ((n - 32 * d.base.toNat) / (32 * d.stride.toNat)) * (32 * d.stride.toNat)
        ≤ n - 32 * d.base.toNat :=
      (Nat.mul_le_mul_right _ (Nat.min_le_right _ _)).trans (Nat.div_mul_le_self _ _)
    omega
  case isFalse => cases h

/-- A bit of MM that has an element's number holds some element: the later row wins where rows overlap. -/
theorem Desc.elementAt_isSome {d : Desc} {r c : Nat} (hr : r < d.rows.toNat) (hc : c < d.cols.toNat) :
    ∃ r' c', d.elementAt (d.bitIndex r c) = some (r', c') := by
  have hb := d.bitIndex_eq r c
  generalize d.bitIndex r c = n at hb
  simp only [Desc.elementAt]
  rw [if_pos]
  · exact ⟨_, _, rfl⟩
  refine ⟨by omega, by omega, ?_⟩
  rcases Nat.eq_zero_or_pos d.stride.toNat with h0 | hpos
  · simp [h0] at hb ⊢; omega
  · have hle : r ≤ min (d.rows.toNat - 1) ((n - 32 * d.base.toNat) / (32 * d.stride.toNat)) := by
      refine Nat.le_min.mpr ⟨by omega, (Nat.le_div_iff_mul_le (by omega)).mpr (by omega)⟩
    have := Nat.mul_le_mul_right (32 * d.stride.toNat) hle
    omega

/-- In a descriptor whose rows do not overlap, the bit of an element holds that element and no other. -/
theorem Desc.elementAt_bitIndex {d : Desc} {r c : Nat} (hs : d.rowWords ≤ d.stride.toNat) (hr : r < d.rows.toNat)
    (hc : c < d.cols.toNat) : d.elementAt (d.bitIndex r c) = some (r, c) := by
  have hcols : d.cols.toNat ≤ 32 * d.stride.toNat := by
    have := hs; simp only [Desc.rowWords, ceilDiv] at this; omega
  have hpos : 0 < 32 * d.stride.toNat := by omega
  have hb := d.bitIndex_eq r c
  generalize d.bitIndex r c = n at hb
  have hdiv : (n - 32 * d.base.toNat) / (32 * d.stride.toNat) = r := by
    rw [show n - 32 * d.base.toNat = c + r * (32 * d.stride.toNat) by omega, Nat.add_mul_div_right _ _ hpos,
      Nat.div_eq_of_lt (by omega)]; omega
  simp only [Desc.elementAt, hdiv, show min (d.rows.toNat - 1) r = r by omega]
  rw [if_pos ⟨by omega, by omega, by omega⟩]
  simp; omega

/-- An element lies in the span of its descriptor (R63). -/
theorem Desc.bitIndex_lt_spanEnd {d : Desc} {r c : Nat} (hr : r < d.rows.toNat) (hc : c < d.cols.toNat) :
    32 * d.base.toNat ≤ d.bitIndex r c ∧ d.bitIndex r c < 32 * d.spanEnd := by
  rw [Desc.bitIndex_eq, Desc.spanEnd, Desc.rowWords, ceilDiv]
  have h1 : r * (32 * d.stride.toNat) ≤ 32 * ((d.rows.toNat - 1) * d.stride.toNat) := by
    have := Nat.mul_le_mul_right (32 * d.stride.toNat) (show r ≤ d.rows.toNat - 1 by omega)
    calc _ ≤ _ := this
      _ = _ := by ring
  omega

/-- The bit of MM a read finds after a patch. -/
theorem State.readByte_patch (s : State) (a n : Nat) (f : Nat → Option Byte) (hm : Memory.wf s.cfg.mmemWords s.mm)
    (b : Nat) :
    (s.patch a n f).readByte b =
      if a ≤ b ∧ b < a + n ∧ b < 4 * s.cfg.mmemWords then (f b).getD (s.readByte b) else s.readByte b := by
  simp only [State.readByte, State.patch, Memory.lookup_patch _ _ _ _ hm.1]
  by_cases h : a ≤ b ∧ b < a + n ∧ b < 4 * s.cfg.mmemWords
  · rw [if_pos h, if_pos (by omega)]
    cases f b <;> simp
  · rw [if_neg h, if_neg (by omega)]

/-- Every bit of MM after a store: the element it holds, or what it was (R64). -/
theorem State.mmBit_store (s : State) (d : Desc) (x : Nat → Nat → Bool) (hm : Memory.wf s.cfg.mmemWords s.mm) (n : Nat) :
    (s.store d x).mmBit n =
      if n < 32 * s.cfg.mmemWords then
        match d.elementAt n with
        | some (r, c) => x r c
        | none => s.mmBit n
      else s.mmBit n := by
  have hn : 8 * (n / 8) + n % 8 = n := by omega
  simp only [State.mmBit, State.store, State.readByte_patch _ _ _ _ hm]
  by_cases hin : n < 32 * s.cfg.mmemWords
  · rw [if_pos hin]
    cases he : d.elementAt n with
    | some rc =>
      obtain ⟨r, c⟩ := rc
      obtain ⟨hr, hc, hidx⟩ := Desc.elementAt_some he
      have hspan := Desc.bitIndex_lt_spanEnd hr hc
      rw [if_pos (by omega), State.storedByte, if_pos]
      · simp only [Option.getD_some]
        rw [byteOf_getLsbD _ (Nat.mod_lt _ (by decide)), hn, he]
      · rw [List.any_eq_true]
        exact ⟨n % 8, by simp [List.mem_range]; omega, by rw [hn, he]; rfl⟩
    | none =>
      split
      · rw [State.storedByte]
        split
        · simp only [Option.getD_some]
          rw [byteOf_getLsbD _ (Nat.mod_lt _ (by decide)), hn, he]
        · rfl
      · rfl
  · rw [if_neg hin, if_neg (by omega)]

/-- A store keeps every bit of MM that holds no element (R64). -/
theorem State.mmBit_store_of_none (s : State) (d : Desc) (x : Nat → Nat → Bool) (hm : Memory.wf s.cfg.mmemWords s.mm)
    {n : Nat} (h : d.elementAt n = none) : (s.store d x).mmBit n = s.mmBit n := by
  rw [State.mmBit_store _ _ _ hm, h]; simp

/-- A store through a valid descriptor sets each element (R64). -/
theorem State.bit_store (s : State) (d : Desc) (x : Nat → Nat → Bool) (hm : Memory.wf s.cfg.mmemWords s.mm)
    (hd : d.valid s.cfg.mmemWords = true) {r c : Nat} (hr : r < d.rows.toNat) (hc : c < d.cols.toNat) :
    (s.store d x).bit d r c = x r c := by
  simp only [Desc.valid, Bool.and_eq_true, decide_eq_true_eq] at hd
  have := Desc.bitIndex_lt_spanEnd hr hc
  rw [State.bit_eq_mmBit, State.mmBit_store _ _ _ hm, if_pos (by omega), Desc.elementAt_bitIndex hd.1.2 hr hc]

/-- Bit i of word a holds an element exactly when its bit number does. -/
theorem Desc.holds_iff (d : Desc) {a i : Nat} (hi : i < 32) :
    d.holds a i ↔ (d.elementAt (32 * a + i)).isSome := by
  constructor
  · rintro ⟨r, c, hr, hc, ha, hb⟩
    have : d.bitIndex r c = 32 * a + i := by rw [Desc.bitIndex, ha, hb]
    obtain ⟨r', c', h⟩ := Desc.elementAt_isSome hr hc
    rw [← this, h]; rfl
  · intro h
    obtain ⟨⟨r, c⟩, h⟩ := Option.isSome_iff_exists.mp h
    obtain ⟨hr, hc, hb⟩ := Desc.elementAt_some h
    simp only [Desc.bitIndex] at hb
    exact ⟨r, c, hr, hc, by omega, by omega⟩

/-- A store keeps MM outside its descriptor's elements (R64). -/
theorem State.store_memoryKept (s : State) (d : Desc) (x : Nat → Nat → Bool) (hm : Memory.wf s.cfg.mmemWords s.mm) :
    MemoryKept s (s.store d x) [d] := by
  intro a i hi h
  have hn : d.elementAt (32 * a + i) = none := by
    have := (Desc.holds_iff d hi).not.mp (h d (by simp))
    simpa using this
  rw [State.readWord_bit _ _ hi, State.readWord_bit _ _ hi, State.mmBit_store_of_none _ _ _ hm hn]

theorem MemoryKept.refl (s : State) (ds : List Desc) : MemoryKept s s ds := fun _ _ _ _ => rfl

theorem MemoryKept.trans {s t u : State} {ds es : List Desc} (h : MemoryKept s t ds) (h' : MemoryKept t u es) :
    MemoryKept s u (ds ++ es) := by
  intro a i hi hd
  rw [h' a i hi fun d hm => hd d (List.mem_append_right _ hm), h a i hi fun d hm => hd d (List.mem_append_left _ hm)]

theorem MemoryKept.mono {s t : State} {ds es : List Desc} (h : MemoryKept s t ds) (hs : ∀ d ∈ ds, d ∈ es) :
    MemoryKept s t es := fun a i hi hd => h a i hi fun d hm => hd d (hs d hm)

/-- The canonical form after a store. -/
theorem State.store_wf (s : State) (d : Desc) (x : Nat → Nat → Bool) (h : Memory.wf s.cfg.mmemWords s.mm) :
    Memory.wf s.cfg.mmemWords (s.store d x).mm := State.patch_wf s _ _ _ h

/-- Two descriptors that do not overlap hold no element in common: a bit of one is no bit of the other (R63). -/
theorem Desc.elementAt_of_disjoint {d e : Desc} (h : d.overlaps e = false) {r c : Nat} (hr : r < e.rows.toNat)
    (hc : c < e.cols.toNat) : d.elementAt (e.bitIndex r c) = none := by
  simp only [Desc.overlaps, decide_eq_false_iff_not] at h
  cases hd : d.elementAt (e.bitIndex r c) with
  | none => rfl
  | some rc =>
    obtain ⟨hr', hc', hb⟩ := Desc.elementAt_some hd
    have h1 := Desc.bitIndex_lt_spanEnd hr hc
    have h2 := Desc.bitIndex_lt_spanEnd hr' hc'
    omega

/-- A store leaves the elements of a descriptor it does not overlap. -/
theorem State.bit_store_of_disjoint (s : State) {d e : Desc} (x : Nat → Nat → Bool)
    (hm : Memory.wf s.cfg.mmemWords s.mm) (h : d.overlaps e = false) {r c : Nat} (hr : r < e.rows.toNat)
    (hc : c < e.cols.toNat) : (s.store d x).bit e r c = s.bit e r c := by
  rw [State.bit_eq_mmBit, State.bit_eq_mmBit, State.mmBit_store_of_none _ _ _ hm (Desc.elementAt_of_disjoint h hr hc)]

theorem Desc.overlaps_comm (d e : Desc) : d.overlaps e = e.overlaps d := by
  simp only [Desc.overlaps, Nat.max_comm, Nat.min_comm]

/-- A valid descriptor overlaps itself (R63, 40_host_interface.md R134). -/
theorem Desc.overlaps_self {words : Nat} {d : Desc} (h : d.valid words = true) : d.overlaps d = true := by
  simp only [Desc.valid, Bool.and_eq_true, decide_eq_true_eq] at h
  simp only [Desc.overlaps, decide_eq_true_eq, Nat.max_self, Nat.min_self, Desc.spanEnd, Desc.rowWords, ceilDiv]
  omega

/-- Scrambling a descriptor leaves the elements of another that it does not overlap. -/
theorem State.bit_scramble_of_disjoint (s : State) {d e : Desc} (hm : Memory.wf s.cfg.mmemWords s.mm)
    (h : d.overlaps e = false) {r c : Nat} (hr : r < e.rows.toNat) (hc : c < e.cols.toNat) :
    (s.scramble [d]).bit e r c = s.bit e r c :=
  State.bit_store_of_disjoint s _ hm h hr hc

end Sys2Proof.Machine
end

