-- ==== Sys2Proof/Laws/BitMat.lean ====
section
/-! SUPPORT. The element of every matrix a command computes with (00_scope.md R13; 20_memory.md R65; 41_permutation.md R160;
44_multiply.md R220). -/

namespace Sys2Proof.Machine

/-! Rows from bits and bytes -/

theorem testBit_bit_add (b : Bool) (n c : Nat) :
    (b.toNat + 2 * n).testBit c = if c = 0 then b else n.testBit (c - 1) := by
  cases c with
  | zero => cases b <;> simp [Nat.testBit_zero]
  | succ c =>
    rw [Nat.testBit_succ]
    have : (b.toNat + 2 * n) / 2 = n := by cases b <;> simp; omega
    simp [this]

theorem testBit_rowOf (f : Nat → Bool) (n c : Nat) : (rowOf f n).testBit c = (decide (c < n) && f c) := by
  induction n generalizing f c with
  | zero => simp [rowOf]
  | succ n ih =>
    rw [rowOf, testBit_bit_add]
    cases c with
    | zero => simp
    | succ c => simp [ih]

theorem testBit_byte_add (b : Byte) (n c : Nat) :
    (b.toNat + 256 * n).testBit c = if c < 8 then b.getLsbD c else n.testBit (c - 8) := by
  have hb := b.isLt
  rw [show b.toNat + 256 * n = 2 ^ 8 * n + b.toNat by omega, Nat.testBit_two_pow_mul_add _ (by omega)]
  rfl

theorem testBit_bytes (b : Nat → Byte) (n c : Nat) :
    ((List.range n).foldr (fun k acc => (b k).toNat + 256 * acc) 0).testBit c =
      (decide (c < 8 * n) && (b (c / 8)).getLsbD (c % 8)) := by
  induction n generalizing b c with
  | zero => simp
  | succ n ih =>
    rw [List.range_succ_eq_map, List.foldr_cons, List.foldr_map, testBit_byte_add]
    by_cases h : c < 8
    · rw [if_pos h, Nat.div_eq_of_lt h, Nat.mod_eq_of_lt h]; simp; omega
    · rw [if_neg h, ih (fun k => b (k + 1))]
      rw [show (c - 8) / 8 + 1 = c / 8 by omega, show (c - 8) % 8 = c % 8 by omega]
      have : (c - 8 < 8 * n) ↔ (c < 8 * (n + 1)) := by omega
      simp [this]

/-! Elements of the operators -/

theorem BitMat.row_map {m : Nat} (f : Nat → Nat) (r : Nat) :
    BitMat.row ((List.range m).map f) r = if r < m then f r else 0 := by
  simp only [BitMat.row, List.getD_eq_getElem?_getD, List.getElem?_map]
  by_cases h : r < m
  · simp [h]
  · simp [h]

/-- `Mat(d)[r][c] = Bit(d, r, c)` inside the matrix, and nothing outside it (R65). -/
theorem State.at_mat (s : State) (d : Desc) (r c : Nat) :
    (s.mat d).at r c = (decide (r < d.rows.toNat) && decide (c < d.cols.toNat) && s.bit d r c) := by
  simp only [BitMat.at, State.mat, BitMat.row_map]
  by_cases hr : r < d.rows.toNat
  · rw [if_pos hr, State.readRow, Nat.testBit_mod_two_pow, testBit_bytes (fun k => s.readByte (4 * d.addr r 0 + k))]
    rw [State.bit_eq_mmBit, State.mmBit]
    by_cases hc : c < d.cols.toNat
    · have h8 : c < 8 * ceilDiv d.cols.toNat 8 := by simp only [ceilDiv]; omega
      have hd : d.bitIndex r c / 8 = 4 * d.addr r 0 + c / 8 := by
        simp only [Desc.bitIndex, Desc.addr]; omega
      have hm : d.bitIndex r c % 8 = c % 8 := by
        simp only [Desc.bitIndex, Desc.addr]; omega
      simp [hr, hc, h8, hd, hm]
    · simp [hc]
  · simp [hr]

theorem State.mat_length (s : State) (d : Desc) : (s.mat d).length = d.rows.toNat := by simp [State.mat]

theorem BitMat.at_ofFn (m n : Nat) (f : Nat → Nat → Bool) (r c : Nat) :
    (BitMat.ofFn m n f).at r c = (decide (r < m) && decide (c < n) && f r c) := by
  simp only [BitMat.at, BitMat.ofFn, BitMat.row_map]
  by_cases h : r < m <;> simp [h, testBit_rowOf]

theorem BitMat.at_zero (m r c : Nat) : (BitMat.zero m).at r c = false := by
  simp only [BitMat.at, BitMat.row, BitMat.zero, List.getD_eq_getElem?_getD, List.getElem?_replicate]
  split <;> simp

theorem testBit_one_shiftLeft (k c : Nat) : (1 <<< k).testBit c = decide (c = k) := by
  rw [Nat.one_shiftLeft, Nat.testBit_two_pow]
  simp [eq_comm]

theorem BitMat.at_ident (n r c : Nat) : (BitMat.ident n).at r c = (decide (r < n) && decide (c = r)) := by
  simp only [BitMat.at, BitMat.ident, BitMat.row_map]
  by_cases h : r < n
  · simp only [h, if_true, testBit_one_shiftLeft, decide_true, Bool.true_and]
  · simp [h]

/-- `(X ⊕ Y)[r][c]` for two matrices with the same number of rows. -/
theorem BitMat.at_xor (X Y : BitMat) (h : X.length = Y.length) (r c : Nat) :
    (BitMat.xor X Y).at r c = (X.at r c ^^ Y.at r c) := by
  simp only [BitMat.at, BitMat.row, BitMat.xor, List.getD_eq_getElem?_getD, List.getElem?_zipWith]
  by_cases hr : r < X.length
  · simp [List.getElem?_eq_getElem hr, List.getElem?_eq_getElem (h ▸ hr)]
  · simp [List.getElem?_eq_none (show X.length ≤ r by omega), List.getElem?_eq_none (show Y.length ≤ r by omega)]

theorem xorSum_succ' (n : Nat) (f : Nat → Bool) : xorSum (n + 1) f = (f 0 ^^ xorSum n fun t => f (t + 1)) := by
  induction n with
  | zero => simp [xorSum]
  | succ n ih => rw [xorSum, ih, xorSum]; simp

theorem testBit_mulRow (a : Nat) (Y : BitMat) (c : Nat) :
    (BitMat.mulRow a Y).testBit c = xorSum Y.length fun t => a.testBit t && Y.at t c := by
  induction Y generalizing a with
  | nil => simp [BitMat.mulRow, xorSum]
  | cons b bs ih =>
    rw [BitMat.mulRow, Nat.testBit_xor, ih, List.length_cons, xorSum_succ']
    congr 1
    · by_cases h : a.testBit 0 <;> simp [h, BitMat.at, BitMat.row]
    · congr 1; funext t
      simp [Nat.testBit_succ, BitMat.at, BitMat.row]

/-- `(X · Y)[i][j] = XOR over t of (X[i][t] AND Y[t][j])` (R13, R220). -/
theorem BitMat.at_mul (X Y : BitMat) {i : Nat} (h : i < X.length) (j : Nat) :
    (BitMat.mul X Y).at i j = xorSum Y.length fun t => X.at i t && Y.at t j := by
  have : (BitMat.mul X Y).row i = BitMat.mulRow (BitMat.row X i) Y := by
    simp [BitMat.row, BitMat.mul, List.getD_eq_getElem?_getD, List.getElem?_eq_getElem h]
  rw [BitMat.at, this, testBit_mulRow]; rfl

theorem testBit_column (X : BitMat) (c r : Nat) : (BitMat.column X c).testBit r = X.at r c := by
  induction X generalizing r with
  | nil => simp [BitMat.column, BitMat.at, BitMat.row]
  | cons x xs ih =>
    rw [BitMat.column, testBit_bit_add]
    cases r with
    | zero => simp [BitMat.at, BitMat.row]
    | succ r => simp [ih, BitMat.at, BitMat.row]

/-- `Xᵗ[r][c] = X[c][r]` for the columns of X (R13). -/
theorem BitMat.at_transpose (X : BitMat) (n r c : Nat) :
    (BitMat.transpose X n).at r c = (decide (r < n) && X.at c r) := by
  simp only [BitMat.at, BitMat.transpose, BitMat.row_map]
  by_cases h : r < n <;> simp [h, testBit_column, BitMat.at]

/-- `Π_k[i][c]` is 1 exactly at column π_k(i) (R160). -/
theorem at_permMatrix (p : Params) (mcode k i c : Nat) :
    (permMatrix p mcode k).at i c = (decide (i < 128 * 2 ^ mcode) && decide (c = permColumn p mcode k i)) := by
  simp only [BitMat.at, permMatrix, BitMat.row_map]
  by_cases h : i < 128 * 2 ^ mcode
  · simp only [h, if_true, testBit_one_shiftLeft, decide_true, Bool.true_and]
  · simp [h]

theorem BitMat.ident_length (n : Nat) : (BitMat.ident n).length = n := by simp [BitMat.ident]
theorem permMatrix_length (p : Params) (mcode k : Nat) : (permMatrix p mcode k).length = 128 * 2 ^ mcode := by
  simp [permMatrix]
theorem BitMat.mul_length (X Y : BitMat) : (BitMat.mul X Y).length = X.length := by simp [BitMat.mul]
theorem BitMat.transpose_length (X : BitMat) (n : Nat) : (BitMat.transpose X n).length = n := by simp [BitMat.transpose]

end Sys2Proof.Machine
end

