-- ==== Sys2Proof/Laws/Assembler.lean ====
section
/-! SUPPORT. The element of the matrix ASMH writes (42_assembler.md R180, R183), and where the 1 of a permutation row lies
(41_permutation.md R160). -/

namespace Sys2Proof.Machine

theorem quarterSize (mcode : Nat) : 128 * 2 ^ mcode / 4 = 32 * 2 ^ mcode := by omega

/-- π_k, with M/4 written as 32 · 2^mcode. -/
theorem permColumn_eq (p : Params) (mcode k i : Nat) :
    permColumn p mcode k i = 32 * 2 ^ mcode * ((thetaAt p k + i / (32 * 2 ^ mcode)) % 4) +
      (phiAt p (i / (32 * 2 ^ mcode)) mcode k + i) % (32 * 2 ^ mcode) := by
  have h : 4 * i / (128 * 2 ^ mcode) = i / (32 * 2 ^ mcode) := by
    rw [show 128 * 2 ^ mcode = 4 * (32 * 2 ^ mcode) by omega, Nat.mul_div_mul_left _ _ (by decide)]
  simp only [permColumn, quarterSize, h]

/-- π_k(i) is a column of the matrix. -/
theorem permColumn_lt (p : Params) (mcode k i : Nat) : permColumn p mcode k i < 128 * 2 ^ mcode := by
  rw [permColumn_eq]
  have hpos : 0 < 32 * 2 ^ mcode := by positivity
  have h1 := Nat.mod_lt (phiAt p (i / (32 * 2 ^ mcode)) mcode k + i) hpos
  have h2 : (thetaAt p k + i / (32 * 2 ^ mcode)) % 4 ≤ 3 := by omega
  have h3 := Nat.mul_le_mul_left (32 * 2 ^ mcode) h2
  omega

theorem BlockTerm.column_lt (p : Params) {mcode i : Nat} (hi : i < 128 * 2 ^ mcode) (t : BlockTerm) :
    t.column p mcode i < 128 * 2 ^ mcode := by
  cases t with
  | ident => exact hi
  | perm k => exact permColumn_lt p mcode k i

/-- An element of a row of a block (R187). -/
theorem testBit_blockRow (p : Params) (mcode i : Nat) (b : Block) (c : Nat) :
    (blockRow p mcode i b).testBit c = blockElement p mcode b i c := by
  induction b with
  | nil => simp [blockRow, blockElement]
  | cons t b ih =>
    simp only [blockRow, blockElement, List.foldr_cons] at ih ⊢
    rw [Nat.testBit_xor, testBit_one_shiftLeft, ih]

/-- A block has nothing beyond its last column. -/
theorem blockElement_of_ge (p : Params) {mcode i c : Nat} (hi : i < 128 * 2 ^ mcode) (hc : 128 * 2 ^ mcode ≤ c) (b : Block) :
    blockElement p mcode b i c = false := by
  induction b with
  | nil => rfl
  | cons t b ih =>
    have := t.column_lt p hi
    simp only [blockElement, List.foldr_cons] at ih ⊢
    rw [ih, decide_eq_false (by omega)]; rfl

/-- An element of a row of a block row: of the block its column lies in (R180). -/
theorem testBit_templateRow (p : Params) {mcode i : Nat} (hi : i < 128 * 2 ^ mcode) (bs : List Block) (c : Nat) :
    (templateRow p mcode i bs).testBit c =
      blockElement p mcode (bs.getD (c / (128 * 2 ^ mcode)) []) i (c % (128 * 2 ^ mcode)) := by
  have hpos : 0 < 128 * 2 ^ mcode := by positivity
  induction bs generalizing c with
  | nil => simp [templateRow, blockElement]
  | cons b bs ih =>
    rw [templateRow, Nat.testBit_xor, testBit_blockRow, Nat.testBit_shiftLeft]
    rcases Nat.lt_or_ge c (128 * 2 ^ mcode) with hc | hc
    · rw [Nat.div_eq_of_lt hc, Nat.mod_eq_of_lt hc]
      simp [show ¬ 128 * 2 ^ mcode ≤ c by omega]
    · rw [blockElement_of_ge p hi hc, ih, Nat.div_eq_sub_div hpos hc, List.getD_cons_succ, Nat.mod_eq_sub_mod hc]
      simp [hc]

/-- Row number r of equally long groups of rows. -/
theorem getD_flatMap_range {m : Nat} (hm : 0 < m) (t : List (List Block)) (f : List Block → Nat → Nat) (r : Nat) :
    (t.flatMap fun bs => (List.range m).map (f bs)).getD r 0 =
      if r / m < t.length then f (t.getD (r / m) []) (r % m) else 0 := by
  induction t generalizing r with
  | nil => simp
  | cons b t ih =>
    rw [List.flatMap_cons, List.getD_eq_getElem?_getD, List.getElem?_append, List.length_map, List.length_range]
    rcases Nat.lt_or_ge r m with hr | hr
    · simp [hr, Nat.div_eq_of_lt hr, Nat.mod_eq_of_lt hr]
    · rw [if_neg (by omega), ← List.getD_eq_getElem?_getD, ih, Nat.div_eq_sub_div hm hr, List.getD_cons_succ,
        Nat.mod_eq_sub_mod hr]
      simp

/-- `H[r][c]` is the element of the block it lies in (R180, R183). -/
theorem at_assembleH (p : Params) (rate : BitVec 2) (mcode r c : Nat) :
    (assembleH p mcode (template rate)).at r c = hElement p rate mcode r c := by
  have hpos : 0 < 128 * 2 ^ mcode := by positivity
  rw [BitMat.at, BitMat.row, assembleH, getD_flatMap_range hpos, hElement]
  split
  · exact testBit_templateRow p (Nat.mod_lt _ hpos) _ c
  · rw [List.getD_eq_getElem?_getD (l := template rate), List.getElem?_eq_none (by omega)]
    simp [blockElement]

end Sys2Proof.Machine
end

