-- ==== Sys2Proof/Laws/State.lean ====
section
/-! SUPPORT. One lemma for each field and each operation that updates the state: what the field holds afterwards. -/

namespace Sys2Proof.Machine

variable (s : State)

@[simp] theorem State.patch_irqen (a n : Nat) (f : Nat → Option Byte) : (s.patch a n f).irqen = s.irqen := rfl
@[simp] theorem State.patch_done (a n : Nat) (f : Nat → Option Byte) : (s.patch a n f).done = s.done := rfl
@[simp] theorem State.patch_ovr (a n : Nat) (f : Nat → Option Byte) : (s.patch a n f).ovr = s.ovr := rfl
@[simp] theorem State.patch_aerr (a n : Nat) (f : Nat → Option Byte) : (s.patch a n f).aerr = s.aerr := rfl
@[simp] theorem State.patch_errcode (a n : Nat) (f : Nat → Option Byte) : (s.patch a n f).errcode = s.errcode := rfl
@[simp] theorem State.patch_errinfo (a n : Nat) (f : Nat → Option Byte) : (s.patch a n f).errinfo = s.errinfo := rfl
@[simp] theorem State.patch_cmd (a n : Nat) (f : Nat → Option Byte) : (s.patch a n f).cmd = s.cmd := rfl
@[simp] theorem State.patch_param (a n : Nat) (f : Nat → Option Byte) : (s.patch a n f).param = s.param := rfl
@[simp] theorem State.patch_maddr (a n : Nat) (f : Nat → Option Byte) : (s.patch a n f).maddr = s.maddr := rfl
@[simp] theorem State.patch_md (a n : Nat) (f : Nat → Option Byte) : (s.patch a n f).md = s.md := rfl
@[simp] theorem State.patch_mm (a n : Nat) (f : Nat → Option Byte) :
    (s.patch a n f).mm = Memory.patch f (min n (4 * s.cfg.mmemWords - a)) a s.mm := rfl
@[simp] theorem State.patch_cfg (a n : Nat) (f : Nat → Option Byte) : (s.patch a n f).cfg = s.cfg := rfl
@[simp] theorem State.patch_eng (a n : Nat) (f : Nat → Option Byte) : (s.patch a n f).eng = s.eng := rfl
@[simp] theorem State.patch_inputs (a n : Nat) (f : Nat → Option Byte) : (s.patch a n f).inputs = s.inputs := rfl
@[simp] theorem State.patch_resp (a n : Nat) (f : Nat → Option Byte) : (s.patch a n f).resp = s.resp := rfl
@[simp] theorem State.patch_powerDraw (a n : Nat) (f : Nat → Option Byte) :
    (s.patch a n f).powerDraw = s.powerDraw := rfl
@[simp] theorem State.patch_draws (a n : Nat) (f : Nat → Option Byte) : (s.patch a n f).draws = s.draws := rfl

@[simp] theorem State.store_irqen (d : Desc) (x : Nat → Nat → Bool) : (s.store d x).irqen = s.irqen := rfl
@[simp] theorem State.store_done (d : Desc) (x : Nat → Nat → Bool) : (s.store d x).done = s.done := rfl
@[simp] theorem State.store_ovr (d : Desc) (x : Nat → Nat → Bool) : (s.store d x).ovr = s.ovr := rfl
@[simp] theorem State.store_aerr (d : Desc) (x : Nat → Nat → Bool) : (s.store d x).aerr = s.aerr := rfl
@[simp] theorem State.store_errcode (d : Desc) (x : Nat → Nat → Bool) : (s.store d x).errcode = s.errcode := rfl
@[simp] theorem State.store_errinfo (d : Desc) (x : Nat → Nat → Bool) : (s.store d x).errinfo = s.errinfo := rfl
@[simp] theorem State.store_cmd (d : Desc) (x : Nat → Nat → Bool) : (s.store d x).cmd = s.cmd := rfl
@[simp] theorem State.store_param (d : Desc) (x : Nat → Nat → Bool) : (s.store d x).param = s.param := rfl
@[simp] theorem State.store_maddr (d : Desc) (x : Nat → Nat → Bool) : (s.store d x).maddr = s.maddr := rfl
@[simp] theorem State.store_md (d : Desc) (x : Nat → Nat → Bool) : (s.store d x).md = s.md := rfl
@[simp] theorem State.store_cfg (d : Desc) (x : Nat → Nat → Bool) : (s.store d x).cfg = s.cfg := rfl
@[simp] theorem State.store_eng (d : Desc) (x : Nat → Nat → Bool) : (s.store d x).eng = s.eng := rfl
@[simp] theorem State.store_inputs (d : Desc) (x : Nat → Nat → Bool) : (s.store d x).inputs = s.inputs := rfl
@[simp] theorem State.store_resp (d : Desc) (x : Nat → Nat → Bool) : (s.store d x).resp = s.resp := rfl
@[simp] theorem State.store_powerDraw (d : Desc) (x : Nat → Nat → Bool) : (s.store d x).powerDraw = s.powerDraw := rfl
@[simp] theorem State.store_draws (d : Desc) (x : Nat → Nat → Bool) : (s.store d x).draws = s.draws := rfl

@[simp] theorem State.writeWord_irqen (a : Nat) (v : Word) : (s.writeWord a v).irqen = s.irqen := rfl
@[simp] theorem State.writeWord_done (a : Nat) (v : Word) : (s.writeWord a v).done = s.done := rfl
@[simp] theorem State.writeWord_ovr (a : Nat) (v : Word) : (s.writeWord a v).ovr = s.ovr := rfl
@[simp] theorem State.writeWord_aerr (a : Nat) (v : Word) : (s.writeWord a v).aerr = s.aerr := rfl
@[simp] theorem State.writeWord_errcode (a : Nat) (v : Word) : (s.writeWord a v).errcode = s.errcode := rfl
@[simp] theorem State.writeWord_errinfo (a : Nat) (v : Word) : (s.writeWord a v).errinfo = s.errinfo := rfl
@[simp] theorem State.writeWord_cmd (a : Nat) (v : Word) : (s.writeWord a v).cmd = s.cmd := rfl
@[simp] theorem State.writeWord_param (a : Nat) (v : Word) : (s.writeWord a v).param = s.param := rfl
@[simp] theorem State.writeWord_maddr (a : Nat) (v : Word) : (s.writeWord a v).maddr = s.maddr := rfl
@[simp] theorem State.writeWord_md (a : Nat) (v : Word) : (s.writeWord a v).md = s.md := rfl
@[simp] theorem State.writeWord_cfg (a : Nat) (v : Word) : (s.writeWord a v).cfg = s.cfg := rfl
@[simp] theorem State.writeWord_eng (a : Nat) (v : Word) : (s.writeWord a v).eng = s.eng := rfl
@[simp] theorem State.writeWord_inputs (a : Nat) (v : Word) : (s.writeWord a v).inputs = s.inputs := rfl
@[simp] theorem State.writeWord_resp (a : Nat) (v : Word) : (s.writeWord a v).resp = s.resp := rfl
@[simp] theorem State.writeWord_powerDraw (a : Nat) (v : Word) : (s.writeWord a v).powerDraw = s.powerDraw := rfl
@[simp] theorem State.writeWord_draws (a : Nat) (v : Word) : (s.writeWord a v).draws = s.draws := rfl

@[simp] theorem State.finish_irqen (e : ErrCode) (info : Word) : (s.finish e info).irqen = s.irqen := rfl
@[simp] theorem State.finish_done (e : ErrCode) (info : Word) : (s.finish e info).done = true := rfl
@[simp] theorem State.finish_ovr (e : ErrCode) (info : Word) : (s.finish e info).ovr = s.ovr := rfl
@[simp] theorem State.finish_aerr (e : ErrCode) (info : Word) : (s.finish e info).aerr = s.aerr := rfl
@[simp] theorem State.finish_errcode (e : ErrCode) (info : Word) : (s.finish e info).errcode = e := rfl
@[simp] theorem State.finish_errinfo (e : ErrCode) (info : Word) : (s.finish e info).errinfo = info := rfl
@[simp] theorem State.finish_cmd (e : ErrCode) (info : Word) : (s.finish e info).cmd = s.cmd := rfl
@[simp] theorem State.finish_param (e : ErrCode) (info : Word) : (s.finish e info).param = s.param := rfl
@[simp] theorem State.finish_maddr (e : ErrCode) (info : Word) : (s.finish e info).maddr = s.maddr := rfl
@[simp] theorem State.finish_md (e : ErrCode) (info : Word) : (s.finish e info).md = s.md := rfl
@[simp] theorem State.finish_mm (e : ErrCode) (info : Word) : (s.finish e info).mm = s.mm := rfl
@[simp] theorem State.finish_cfg (e : ErrCode) (info : Word) : (s.finish e info).cfg = s.cfg := rfl
@[simp] theorem State.finish_eng (e : ErrCode) (info : Word) : (s.finish e info).eng = .idle := rfl
@[simp] theorem State.finish_inputs (e : ErrCode) (info : Word) : (s.finish e info).inputs = s.inputs := rfl
@[simp] theorem State.finish_resp (e : ErrCode) (info : Word) : (s.finish e info).resp = s.resp := rfl
@[simp] theorem State.finish_powerDraw (e : ErrCode) (info : Word) : (s.finish e info).powerDraw = s.powerDraw := rfl
@[simp] theorem State.finish_draws (e : ErrCode) (info : Word) : (s.finish e info).draws = s.draws := rfl

@[simp] theorem State.raise_irqen (e : ErrorReport) : (s.raise e).irqen = s.irqen := rfl
@[simp] theorem State.raise_done (e : ErrorReport) : (s.raise e).done = true := rfl
@[simp] theorem State.raise_ovr (e : ErrorReport) : (s.raise e).ovr = s.ovr := rfl
@[simp] theorem State.raise_aerr (e : ErrorReport) : (s.raise e).aerr = s.aerr := rfl
@[simp] theorem State.raise_errcode (e : ErrorReport) : (s.raise e).errcode = e.code := rfl
@[simp] theorem State.raise_errinfo (e : ErrorReport) : (s.raise e).errinfo = e.info := rfl
@[simp] theorem State.raise_cmd (e : ErrorReport) : (s.raise e).cmd = s.cmd := rfl
@[simp] theorem State.raise_param (e : ErrorReport) : (s.raise e).param = s.param := rfl
@[simp] theorem State.raise_maddr (e : ErrorReport) : (s.raise e).maddr = s.maddr := rfl
@[simp] theorem State.raise_md (e : ErrorReport) : (s.raise e).md = s.md := rfl
@[simp] theorem State.raise_mm (e : ErrorReport) : (s.raise e).mm = s.mm := rfl
@[simp] theorem State.raise_cfg (e : ErrorReport) : (s.raise e).cfg = s.cfg := rfl
@[simp] theorem State.raise_eng (e : ErrorReport) : (s.raise e).eng = .idle := rfl
@[simp] theorem State.raise_inputs (e : ErrorReport) : (s.raise e).inputs = s.inputs := rfl
@[simp] theorem State.raise_resp (e : ErrorReport) : (s.raise e).resp = s.resp := rfl
@[simp] theorem State.raise_powerDraw (e : ErrorReport) : (s.raise e).powerDraw = s.powerDraw := rfl
@[simp] theorem State.raise_draws (e : ErrorReport) : (s.raise e).draws = s.draws := rfl

@[simp] theorem State.complete_irqen : s.complete.irqen = s.irqen := rfl
@[simp] theorem State.complete_done : s.complete.done = true := rfl
@[simp] theorem State.complete_ovr : s.complete.ovr = s.ovr := rfl
@[simp] theorem State.complete_aerr : s.complete.aerr = s.aerr := rfl
@[simp] theorem State.complete_errcode : s.complete.errcode = .none := rfl
@[simp] theorem State.complete_errinfo : s.complete.errinfo = 0 := rfl
@[simp] theorem State.complete_cmd : s.complete.cmd = s.cmd := rfl
@[simp] theorem State.complete_param : s.complete.param = s.param := rfl
@[simp] theorem State.complete_maddr : s.complete.maddr = s.maddr := rfl
@[simp] theorem State.complete_md : s.complete.md = s.md := rfl
@[simp] theorem State.complete_mm : s.complete.mm = s.mm := rfl
@[simp] theorem State.complete_cfg : s.complete.cfg = s.cfg := rfl
@[simp] theorem State.complete_eng : s.complete.eng = .idle := rfl
@[simp] theorem State.complete_inputs : s.complete.inputs = s.inputs := rfl
@[simp] theorem State.complete_resp : s.complete.resp = s.resp := rfl
@[simp] theorem State.complete_powerDraw : s.complete.powerDraw = s.powerDraw := rfl
@[simp] theorem State.complete_draws : s.complete.draws = s.draws := rfl

@[simp] theorem State.start_irqen : s.start.irqen = s.irqen := rfl
@[simp] theorem State.start_done : s.start.done = false := rfl
@[simp] theorem State.start_ovr : s.start.ovr = s.ovr := rfl
@[simp] theorem State.start_aerr : s.start.aerr = s.aerr := rfl
@[simp] theorem State.start_errcode : s.start.errcode = .none := rfl
@[simp] theorem State.start_errinfo : s.start.errinfo = 0 := rfl
@[simp] theorem State.start_cmd : s.start.cmd = s.cmd := rfl
@[simp] theorem State.start_param : s.start.param = s.param := rfl
@[simp] theorem State.start_maddr : s.start.maddr = s.maddr := rfl
@[simp] theorem State.start_md : s.start.md = s.md := rfl
@[simp] theorem State.start_mm : s.start.mm = s.mm := rfl
@[simp] theorem State.start_cfg : s.start.cfg = s.cfg := rfl
@[simp] theorem State.start_eng : s.start.eng = .busy { cmd := s.cmd, param := s.param, md := s.md } := rfl
@[simp] theorem State.start_inputs : s.start.inputs = s.inputs := rfl
@[simp] theorem State.start_resp : s.start.resp = s.resp := rfl
@[simp] theorem State.start_powerDraw : s.start.powerDraw = s.powerDraw := rfl
@[simp] theorem State.start_draws : s.start.draws = s.draws := rfl

@[simp] theorem State.resetRegisters_irqen : s.resetRegisters.irqen = false := rfl
@[simp] theorem State.resetRegisters_done : s.resetRegisters.done = false := rfl
@[simp] theorem State.resetRegisters_ovr : s.resetRegisters.ovr = false := rfl
@[simp] theorem State.resetRegisters_aerr : s.resetRegisters.aerr = false := rfl
@[simp] theorem State.resetRegisters_errcode : s.resetRegisters.errcode = .none := rfl
@[simp] theorem State.resetRegisters_errinfo : s.resetRegisters.errinfo = 0 := rfl
@[simp] theorem State.resetRegisters_cmd : s.resetRegisters.cmd = 0 := rfl
@[simp] theorem State.resetRegisters_param : s.resetRegisters.param = 0 := rfl
@[simp] theorem State.resetRegisters_maddr : s.resetRegisters.maddr = 0 := rfl
@[simp] theorem State.resetRegisters_md : s.resetRegisters.md = Vector.replicate 8 Desc.zero := rfl
@[simp] theorem State.resetRegisters_mm : s.resetRegisters.mm = s.mm := rfl
@[simp] theorem State.resetRegisters_cfg : s.resetRegisters.cfg = s.cfg := rfl
@[simp] theorem State.resetRegisters_eng : s.resetRegisters.eng = .idle := rfl
@[simp] theorem State.resetRegisters_inputs : s.resetRegisters.inputs = s.inputs := rfl
@[simp] theorem State.resetRegisters_resp : s.resetRegisters.resp = s.resp := rfl
@[simp] theorem State.resetRegisters_powerDraw : s.resetRegisters.powerDraw = s.powerDraw := rfl
@[simp] theorem State.resetRegisters_draws : s.resetRegisters.draws = s.draws := rfl

@[simp] theorem State.powerOnReset_irqen : s.powerOnReset.irqen = false := rfl
@[simp] theorem State.powerOnReset_done : s.powerOnReset.done = false := rfl
@[simp] theorem State.powerOnReset_ovr : s.powerOnReset.ovr = false := rfl
@[simp] theorem State.powerOnReset_aerr : s.powerOnReset.aerr = false := rfl
@[simp] theorem State.powerOnReset_errcode : s.powerOnReset.errcode = .none := rfl
@[simp] theorem State.powerOnReset_errinfo : s.powerOnReset.errinfo = 0 := rfl
@[simp] theorem State.powerOnReset_cmd : s.powerOnReset.cmd = 0 := rfl
@[simp] theorem State.powerOnReset_param : s.powerOnReset.param = 0 := rfl
@[simp] theorem State.powerOnReset_maddr : s.powerOnReset.maddr = 0 := rfl
@[simp] theorem State.powerOnReset_md : s.powerOnReset.md = Vector.replicate 8 Desc.zero := rfl
@[simp] theorem State.powerOnReset_mm : s.powerOnReset.mm = [] := rfl
@[simp] theorem State.powerOnReset_cfg : s.powerOnReset.cfg = s.cfg := rfl
@[simp] theorem State.powerOnReset_eng : s.powerOnReset.eng = .idle := rfl
@[simp] theorem State.powerOnReset_inputs : s.powerOnReset.inputs = s.inputs := rfl
@[simp] theorem State.powerOnReset_resp : s.powerOnReset.resp = none := rfl
@[simp] theorem State.powerOnReset_powerDraw : s.powerOnReset.powerDraw = s.draws := rfl
@[simp] theorem State.powerOnReset_draws : s.powerOnReset.draws = s.draws + 1 := rfl

@[simp] theorem State.refuseAccess_irqen : s.refuseAccess.irqen = s.irqen := rfl
@[simp] theorem State.refuseAccess_done : s.refuseAccess.done = s.done := rfl
@[simp] theorem State.refuseAccess_ovr : s.refuseAccess.ovr = true := rfl
@[simp] theorem State.refuseAccess_aerr : s.refuseAccess.aerr = s.aerr := rfl
@[simp] theorem State.refuseAccess_errcode : s.refuseAccess.errcode = s.errcode := rfl
@[simp] theorem State.refuseAccess_errinfo : s.refuseAccess.errinfo = s.errinfo := rfl
@[simp] theorem State.refuseAccess_cmd : s.refuseAccess.cmd = s.cmd := rfl
@[simp] theorem State.refuseAccess_param : s.refuseAccess.param = s.param := rfl
@[simp] theorem State.refuseAccess_maddr : s.refuseAccess.maddr = s.maddr := rfl
@[simp] theorem State.refuseAccess_md : s.refuseAccess.md = s.md := rfl
@[simp] theorem State.refuseAccess_mm : s.refuseAccess.mm = s.mm := rfl
@[simp] theorem State.refuseAccess_cfg : s.refuseAccess.cfg = s.cfg := rfl
@[simp] theorem State.refuseAccess_eng : s.refuseAccess.eng = s.eng := rfl
@[simp] theorem State.refuseAccess_inputs : s.refuseAccess.inputs = s.inputs := rfl
@[simp] theorem State.refuseAccess_resp : s.refuseAccess.resp = s.resp := rfl
@[simp] theorem State.refuseAccess_powerDraw : s.refuseAccess.powerDraw = s.powerDraw := rfl
@[simp] theorem State.refuseAccess_draws : s.refuseAccess.draws = s.draws := rfl

@[simp] theorem State.addressError_irqen : s.addressError.irqen = s.irqen := rfl
@[simp] theorem State.addressError_done : s.addressError.done = s.done := rfl
@[simp] theorem State.addressError_ovr : s.addressError.ovr = s.ovr := rfl
@[simp] theorem State.addressError_aerr : s.addressError.aerr = true := rfl
@[simp] theorem State.addressError_errcode : s.addressError.errcode = s.errcode := rfl
@[simp] theorem State.addressError_errinfo : s.addressError.errinfo = s.errinfo := rfl
@[simp] theorem State.addressError_cmd : s.addressError.cmd = s.cmd := rfl
@[simp] theorem State.addressError_param : s.addressError.param = s.param := rfl
@[simp] theorem State.addressError_maddr : s.addressError.maddr = s.maddr := rfl
@[simp] theorem State.addressError_md : s.addressError.md = s.md := rfl
@[simp] theorem State.addressError_mm : s.addressError.mm = s.mm := rfl
@[simp] theorem State.addressError_cfg : s.addressError.cfg = s.cfg := rfl
@[simp] theorem State.addressError_eng : s.addressError.eng = s.eng := rfl
@[simp] theorem State.addressError_inputs : s.addressError.inputs = s.inputs := rfl
@[simp] theorem State.addressError_resp : s.addressError.resp = s.resp := rfl
@[simp] theorem State.addressError_powerDraw : s.addressError.powerDraw = s.powerDraw := rfl
@[simp] theorem State.addressError_draws : s.addressError.draws = s.draws := rfl

@[simp] theorem State.advanceAddress_irqen : s.advanceAddress.irqen = s.irqen := rfl
@[simp] theorem State.advanceAddress_done : s.advanceAddress.done = s.done := rfl
@[simp] theorem State.advanceAddress_ovr : s.advanceAddress.ovr = s.ovr := rfl
@[simp] theorem State.advanceAddress_aerr : s.advanceAddress.aerr = s.aerr := rfl
@[simp] theorem State.advanceAddress_errcode : s.advanceAddress.errcode = s.errcode := rfl
@[simp] theorem State.advanceAddress_errinfo : s.advanceAddress.errinfo = s.errinfo := rfl
@[simp] theorem State.advanceAddress_cmd : s.advanceAddress.cmd = s.cmd := rfl
@[simp] theorem State.advanceAddress_param : s.advanceAddress.param = s.param := rfl
@[simp] theorem State.advanceAddress_maddr : s.advanceAddress.maddr = s.maddr + 1 := rfl
@[simp] theorem State.advanceAddress_md : s.advanceAddress.md = s.md := rfl
@[simp] theorem State.advanceAddress_mm : s.advanceAddress.mm = s.mm := rfl
@[simp] theorem State.advanceAddress_cfg : s.advanceAddress.cfg = s.cfg := rfl
@[simp] theorem State.advanceAddress_eng : s.advanceAddress.eng = s.eng := rfl
@[simp] theorem State.advanceAddress_inputs : s.advanceAddress.inputs = s.inputs := rfl
@[simp] theorem State.advanceAddress_resp : s.advanceAddress.resp = s.resp := rfl
@[simp] theorem State.advanceAddress_powerDraw : s.advanceAddress.powerDraw = s.powerDraw := rfl
@[simp] theorem State.advanceAddress_draws : s.advanceAddress.draws = s.draws := rfl

@[simp] theorem State.clearFlags_irqen (v : Word) : (s.clearFlags v).irqen = s.irqen := rfl
@[simp] theorem State.clearFlags_done (v : Word) : (s.clearFlags v).done = (s.done && !v.getLsbD 1) := rfl
@[simp] theorem State.clearFlags_ovr (v : Word) : (s.clearFlags v).ovr = (s.ovr && !v.getLsbD 3) := rfl
@[simp] theorem State.clearFlags_aerr (v : Word) : (s.clearFlags v).aerr = (s.aerr && !v.getLsbD 4) := rfl
@[simp] theorem State.clearFlags_errcode (v : Word) : (s.clearFlags v).errcode = s.errcode := rfl
@[simp] theorem State.clearFlags_errinfo (v : Word) : (s.clearFlags v).errinfo = s.errinfo := rfl
@[simp] theorem State.clearFlags_cmd (v : Word) : (s.clearFlags v).cmd = s.cmd := rfl
@[simp] theorem State.clearFlags_param (v : Word) : (s.clearFlags v).param = s.param := rfl
@[simp] theorem State.clearFlags_maddr (v : Word) : (s.clearFlags v).maddr = s.maddr := rfl
@[simp] theorem State.clearFlags_md (v : Word) : (s.clearFlags v).md = s.md := rfl
@[simp] theorem State.clearFlags_mm (v : Word) : (s.clearFlags v).mm = s.mm := rfl
@[simp] theorem State.clearFlags_cfg (v : Word) : (s.clearFlags v).cfg = s.cfg := rfl
@[simp] theorem State.clearFlags_eng (v : Word) : (s.clearFlags v).eng = s.eng := rfl
@[simp] theorem State.clearFlags_inputs (v : Word) : (s.clearFlags v).inputs = s.inputs := rfl
@[simp] theorem State.clearFlags_resp (v : Word) : (s.clearFlags v).resp = s.resp := rfl
@[simp] theorem State.clearFlags_powerDraw (v : Word) : (s.clearFlags v).powerDraw = s.powerDraw := rfl
@[simp] theorem State.clearFlags_draws (v : Word) : (s.clearFlags v).draws = s.draws := rfl

@[simp] theorem State.setDesc_irqen (i : DescIx) (f : Desc → Desc) : (s.setDesc i f).irqen = s.irqen := rfl
@[simp] theorem State.setDesc_done (i : DescIx) (f : Desc → Desc) : (s.setDesc i f).done = s.done := rfl
@[simp] theorem State.setDesc_ovr (i : DescIx) (f : Desc → Desc) : (s.setDesc i f).ovr = s.ovr := rfl
@[simp] theorem State.setDesc_aerr (i : DescIx) (f : Desc → Desc) : (s.setDesc i f).aerr = s.aerr := rfl
@[simp] theorem State.setDesc_errcode (i : DescIx) (f : Desc → Desc) : (s.setDesc i f).errcode = s.errcode := rfl
@[simp] theorem State.setDesc_errinfo (i : DescIx) (f : Desc → Desc) : (s.setDesc i f).errinfo = s.errinfo := rfl
@[simp] theorem State.setDesc_cmd (i : DescIx) (f : Desc → Desc) : (s.setDesc i f).cmd = s.cmd := rfl
@[simp] theorem State.setDesc_param (i : DescIx) (f : Desc → Desc) : (s.setDesc i f).param = s.param := rfl
@[simp] theorem State.setDesc_maddr (i : DescIx) (f : Desc → Desc) : (s.setDesc i f).maddr = s.maddr := rfl
@[simp] theorem State.setDesc_md (i : DescIx) (f : Desc → Desc) : (s.setDesc i f).md = s.md.set i (f s.md[i]) := rfl
@[simp] theorem State.setDesc_mm (i : DescIx) (f : Desc → Desc) : (s.setDesc i f).mm = s.mm := rfl
@[simp] theorem State.setDesc_cfg (i : DescIx) (f : Desc → Desc) : (s.setDesc i f).cfg = s.cfg := rfl
@[simp] theorem State.setDesc_eng (i : DescIx) (f : Desc → Desc) : (s.setDesc i f).eng = s.eng := rfl
@[simp] theorem State.setDesc_inputs (i : DescIx) (f : Desc → Desc) : (s.setDesc i f).inputs = s.inputs := rfl
@[simp] theorem State.setDesc_resp (i : DescIx) (f : Desc → Desc) : (s.setDesc i f).resp = s.resp := rfl
@[simp] theorem State.setDesc_powerDraw (i : DescIx) (f : Desc → Desc) :
    (s.setDesc i f).powerDraw = s.powerDraw := rfl
@[simp] theorem State.setDesc_draws (i : DescIx) (f : Desc → Desc) : (s.setDesc i f).draws = s.draws := rfl

/-- What scrambling changes at all: matrix memory and the draw counter. -/
theorem State.scramble_eq (ds : List Desc) :
    s.scramble ds = { s with mm := (s.scramble ds).mm, draws := s.draws + 1 } := by
  have key : ∀ (ds : List Desc) (t : State), ∃ m,
      ds.foldl (fun s' d => s'.store d fun r c => Config.anyBit s.draws (d.bitIndex r c)) t = { t with mm := m } := by
    intro ds
    induction ds with
    | nil => exact fun t => ⟨t.mm, rfl⟩
    | cons d ds ih => exact fun t => (ih _).imp fun m h => h
  obtain ⟨m, hm⟩ := key ds s
  simp only [State.scramble, hm]

@[simp] theorem State.scramble_irqen (ds : List Desc) : (s.scramble ds).irqen = s.irqen := by rw [State.scramble_eq]
@[simp] theorem State.scramble_done (ds : List Desc) : (s.scramble ds).done = s.done := by rw [State.scramble_eq]
@[simp] theorem State.scramble_ovr (ds : List Desc) : (s.scramble ds).ovr = s.ovr := by rw [State.scramble_eq]
@[simp] theorem State.scramble_aerr (ds : List Desc) : (s.scramble ds).aerr = s.aerr := by rw [State.scramble_eq]
@[simp] theorem State.scramble_errcode (ds : List Desc) : (s.scramble ds).errcode = s.errcode := by rw [State.scramble_eq]
@[simp] theorem State.scramble_errinfo (ds : List Desc) : (s.scramble ds).errinfo = s.errinfo := by rw [State.scramble_eq]
@[simp] theorem State.scramble_cmd (ds : List Desc) : (s.scramble ds).cmd = s.cmd := by rw [State.scramble_eq]
@[simp] theorem State.scramble_param (ds : List Desc) : (s.scramble ds).param = s.param := by rw [State.scramble_eq]
@[simp] theorem State.scramble_maddr (ds : List Desc) : (s.scramble ds).maddr = s.maddr := by rw [State.scramble_eq]
@[simp] theorem State.scramble_md (ds : List Desc) : (s.scramble ds).md = s.md := by rw [State.scramble_eq]
@[simp] theorem State.scramble_cfg (ds : List Desc) : (s.scramble ds).cfg = s.cfg := by rw [State.scramble_eq]
@[simp] theorem State.scramble_eng (ds : List Desc) : (s.scramble ds).eng = s.eng := by rw [State.scramble_eq]
@[simp] theorem State.scramble_inputs (ds : List Desc) : (s.scramble ds).inputs = s.inputs := by rw [State.scramble_eq]
@[simp] theorem State.scramble_resp (ds : List Desc) : (s.scramble ds).resp = s.resp := by rw [State.scramble_eq]
@[simp] theorem State.scramble_powerDraw (ds : List Desc) : (s.scramble ds).powerDraw = s.powerDraw := by rw [State.scramble_eq]
@[simp] theorem State.scramble_draws (ds : List Desc) : (s.scramble ds).draws = s.draws + 1 := by rw [State.scramble_eq]

/-- The descriptor operands do not depend on matrix memory. -/
@[simp] theorem State.store_operand (d : Desc) (x : Nat → Nat → Bool) (i : DescIx) :
    (s.store d x).operand i = s.operand i := rfl

end Sys2Proof.Machine
end

