-- ==== Sys2Proof/Laws/Validate.lean ====
section
/-! SUPPORT. What validation answers (40_host_interface.md R133), and what scrambling the elements of a write set leaves. -/

namespace Sys2Proof.Machine

/-- Every listed descriptor operand is valid exactly when none is reported (R133). -/
theorem State.firstBadDesc_eq_none (s : State) (is : List DescIx) :
    s.firstBadDesc is = none ↔ ∀ i ∈ is, (s.operand i).valid s.cfg.mmemWords = true := by
  induction is with
  | nil => simp [State.firstBadDesc]
  | cons i is ih =>
    by_cases h : (s.operand i).valid s.cfg.mmemWords = true <;> simp [State.firstBadDesc, h, ih]

/-- The descriptor operand reported is the first invalid one in role order (R133). -/
theorem State.firstBadDesc_eq_some (s : State) (is : List DescIx) (k : DescIx) :
    s.firstBadDesc is = some k ↔
      ∃ before after, is = before ++ k :: after ∧ (s.operand k).valid s.cfg.mmemWords = false ∧
        ∀ i ∈ before, (s.operand i).valid s.cfg.mmemWords = true := by
  induction is with
  | nil => simp [State.firstBadDesc]
  | cons i is ih =>
    cases h : (s.operand i).valid s.cfg.mmemWords with
    | true =>
      simp only [State.firstBadDesc, h, if_true, ih]
      constructor
      · rintro ⟨p, q, rfl, hk, hp⟩
        exact ⟨i :: p, q, rfl, hk, by simpa [h] using hp⟩
      · rintro ⟨p, q, he, hk, hp⟩
        cases p with
        | nil => simp at he; rw [← he.1, h] at hk; cases hk
        | cons j p =>
          simp only [List.cons_append, List.cons.injEq] at he
          obtain ⟨rfl, rfl⟩ := he
          exact ⟨p, q, rfl, hk, fun l hl => hp l (List.mem_cons_of_mem _ hl)⟩
    | false =>
      simp only [State.firstBadDesc, h]
      constructor
      · intro he; simp at he; subst he; exact ⟨[], is, rfl, h, by simp⟩
      · rintro ⟨p, q, he, hk, hp⟩
        cases p with
        | nil => simp at he; simp [he.1]
        | cons j p =>
          simp only [List.cons_append, List.cons.injEq] at he
          have := hp j (List.mem_cons_self ..)
          rw [← he.1, h] at this; cases this

/-- Validation passes exactly when every check passes (R133). -/
theorem State.validate_eq_none (s : State) (p : Bool) (is : List DescIx) (sh ov : Bool) :
    s.validate p is sh ov = none ↔
      p = true ∧ (∀ i ∈ is, (s.operand i).valid s.cfg.mmemWords = true) ∧ sh = true ∧ ov = false := by
  rw [← State.firstBadDesc_eq_none]
  cases p <;> cases h : s.firstBadDesc is <;> cases sh <;> cases ov <;> simp [State.validate, h]

/-- The error validation reports fits its code: ERRINFO is 0, or the index of a descriptor (60_exceptions.md R270). -/
theorem State.validate_infoOk (s : State) {p : Bool} {is : List DescIx} {sh ov : Bool} {e : ErrorReport}
    (h : s.validate p is sh ov = some e) : e.code.infoOk e.info := by
  cases p <;> cases hb : s.firstBadDesc is <;> cases sh <;> cases ov <;> simp [State.validate, hb] at h <;> subst h <;>
    simp only [ErrCode.infoOk] <;> first | rfl | (simp; omega)

/-- A command checked this way always answers a next state (R132, R271). -/
theorem State.runChecked_cases (s : State) (err : Option ErrorReport) (effect : State → State) :
    (∃ e, err = some e ∧ s.runChecked err effect = .next (s.raise e)) ∨
      (err = none ∧ s.runChecked err effect = .next (effect s).complete) := by
  cases err with
  | none => exact .inr ⟨rfl, rfl⟩
  | some e => exact .inl ⟨e, rfl, rfl⟩

/-! Scrambling a write set -/

theorem State.scramble_induction (P : State → Prop) (s : State) (ds : List Desc) (h0 : P s)
    (hstore : ∀ t d x, d ∈ ds → P t → P (t.store d x))
    (hdraws : ∀ t n, P t → P { t with draws := n }) : P (s.scramble ds) := by
  have key : ∀ (es : List Desc) (t : State), (∀ d ∈ es, d ∈ ds) → P t →
      P (es.foldl (fun s' d => s'.store d fun r c => Config.anyBit s.draws (d.bitIndex r c)) t) := by
    intro es
    induction es with
    | nil => exact fun t _ h => h
    | cons d es ih =>
      exact fun t hd h => ih _ (fun e he => hd e (List.mem_cons_of_mem _ he)) (hstore t d _ (hd d (List.mem_cons_self ..)) h)
  exact hdraws _ _ (key ds s (fun _ h => h) h0)

/-- Scrambling keeps the canonical form. -/
theorem State.scramble_wf (s : State) (ds : List Desc) (h : Memory.wf s.cfg.mmemWords s.mm) :
    Memory.wf s.cfg.mmemWords (s.scramble ds).mm :=
  (State.scramble_induction (fun t => t.cfg = s.cfg ∧ Memory.wf s.cfg.mmemWords t.mm) s ds ⟨rfl, h⟩
    (fun t d x _ ht => ⟨ht.1, by have := State.store_wf t d x (ht.1 ▸ ht.2); rwa [ht.1] at this⟩)
    (fun _ _ ht => ht)).2

/-- Scrambling keeps every bit of MM outside the elements of its descriptors (R138). -/
theorem State.scramble_memoryKept (s : State) (ds : List Desc) (h : Memory.wf s.cfg.mmemWords s.mm) :
    MemoryKept s (s.scramble ds) ds :=
  (State.scramble_induction (fun t => t.cfg = s.cfg ∧ Memory.wf s.cfg.mmemWords t.mm ∧ MemoryKept s t ds) s ds
    ⟨rfl, h, MemoryKept.refl s ds⟩
    (fun t d x hd ht =>
      have hw : Memory.wf t.cfg.mmemWords t.mm := ht.1 ▸ ht.2.1
      ⟨ht.1, by have := State.store_wf t d x hw; rwa [ht.1] at this,
        (ht.2.2.trans (State.store_memoryKept t d x hw)).mono (by
          intro e he
          rcases List.mem_append.mp he with he | he
          · exact he
          · rw [List.mem_singleton.mp he]; exact hd)⟩)
    (fun _ _ ht => ⟨ht.1, ht.2.1, ht.2.2⟩)).2.2

end Sys2Proof.Machine
end

