-- ==== Sys2Proof/Laws/Commands.lean ====
section
/-! SUPPORT. What each command does once its checks are known (40_host_interface.md R132, R133): the error validation found, or
its effect. The lemmas are stated in the tables of Safety.lean. -/

namespace Sys2Proof.Machine

/-- The parameter check of a command, as its meaning computes it. -/
def paramChecked : Instr → Bool
  | .perm _ _ p => permParamOk p
  | .asmh _ p => asmhParamOk p
  | .nop | .inv _ _ _ | .mul _ _ _ _ _ | .zero _ | .ident _ _ | .copy _ _ _ | .add _ _ _ => true

/-- The shape check of a command, as its meaning computes it. -/
def shapeChecked (s : State) : Instr → Bool
  | .nop | .zero _ => true
  | .perm d _ p =>
    decide ((s.operand d).rows.toNat = matrixSize p.mcode) && decide ((s.operand d).cols.toNat = matrixSize p.mcode)
  | .asmh d p =>
    decide ((s.operand d).rows.toNat = hRows (matrixSize p.mcode)) &&
      decide ((s.operand d).cols.toNat = hCols ((bigK p.rate).getD 0) (matrixSize p.mcode))
  | .inv d a sc => invShapeOk (s.operand d) (s.operand a) (s.operand sc)
  | .mul d a b _ t => mulShapeOk t (s.operand d) (s.operand a) (s.operand b)
  | .ident d _ => decide ((s.operand d).rows = (s.operand d).cols)
  | .copy d a t => copyShapeOk t (s.operand d) (s.operand a)
  | .add d a b => addShapeOk (s.operand d) (s.operand a) (s.operand b)

/-- The overlap check of a command, as its meaning computes it. -/
def overlapChecked (s : State) : Instr → Bool
  | .nop | .perm _ _ _ | .asmh _ _ | .zero _ | .ident _ _ => false
  | .inv d a sc =>
    (s.operand d).overlaps (s.operand a) || (s.operand d).overlaps (s.operand sc) || (s.operand a).overlaps (s.operand sc)
  | .mul d a b _ _ => (s.operand d).overlaps (s.operand a) || (s.operand d).overlaps (s.operand b)
  | .copy d a t => sourceClash t (s.operand d) (s.operand a)
  | .add d a b => sourceClash false (s.operand d) (s.operand a) || sourceClash false (s.operand d) (s.operand b)

/-- The validation of a command (R133). -/
def validationOf (s : State) (i : Instr) : Option ErrorReport :=
  s.validate (paramChecked i) (rolesUsed i) (shapeChecked s i) (overlapChecked s i)

theorem paramChecked_iff (i : Instr) : paramChecked i = true ↔ ParamPasses i := by
  cases i <;> simp [paramChecked, ParamPasses]

theorem shapeChecked_iff (s : State) (i : Instr) (hp : ParamPasses i) : shapeChecked s i = true ↔ ShapePasses s i := by
  cases i with
  | nop => simp [shapeChecked, ShapePasses]
  | zero d => simp [shapeChecked, ShapePasses]
  | perm d x p => simp [shapeChecked, ShapePasses, State.rowsOf, State.colsOf]
  | asmh d p =>
    cases hk : bigK p.rate with
    | none => simp [ParamPasses, asmhParamOk, hk] at hp
    | some k =>
      simp only [shapeChecked, ShapePasses, State.rowsOf, State.colsOf, hk, hRows, hCols, Option.getD_some, Bool.and_eq_true,
        decide_eq_true_eq, Option.some.injEq, exists_eq_left']
      exact and_congr decide_eq_true_iff Iff.rfl
  | inv d a sc =>
    simp only [shapeChecked, ShapePasses, invShapeOk, State.rowsOf, State.colsOf, Bool.and_eq_true, decide_eq_true_eq,
      ← BitVec.toNat_inj]
    constructor
    · rintro ⟨⟨⟨⟨h1, h2⟩, h3⟩, h4⟩, h5⟩; exact ⟨h1.symm, h2, h3, h4, h5⟩
    · rintro ⟨h1, h2, h3, h4, h5⟩; exact ⟨⟨⟨⟨h1.symm, h2⟩, h3⟩, h4⟩, h5⟩
  | mul d a b x t =>
    cases t <;> simp [shapeChecked, ShapePasses, mulShapeOk, State.rowsOf, State.colsOf, ← BitVec.toNat_inj]
  | ident d x => simp [shapeChecked, ShapePasses, State.rowsOf, State.colsOf, ← BitVec.toNat_inj]
  | copy d a t =>
    cases t <;> simp [shapeChecked, ShapePasses, copyShapeOk, State.rowsOf, State.colsOf, ← BitVec.toNat_inj]
  | add d a b =>
    simp [shapeChecked, ShapePasses, addShapeOk, State.rowsOf, State.colsOf, ← BitVec.toNat_inj, and_assoc]

theorem overlapChecked_iff (s : State) (i : Instr) : overlapChecked s i = true ↔ OverlapFails s i := by
  cases i with
  | copy d a t => cases t <;> simp [overlapChecked, OverlapFails, State.Overlap, State.Identical, sourceClash, Desc.identical]
  | _ => simp [overlapChecked, OverlapFails, State.Overlap, State.Identical, sourceClash, Desc.identical, or_assoc]

/-- Validation finds no error exactly when every check passes. -/
theorem validationOf_eq_none (s : State) (i : Instr) : validationOf s i = none ↔ ChecksPass s i := by
  rw [validationOf, State.validate_eq_none, paramChecked_iff, ChecksPass]
  refine and_congr_right fun hp => and_congr_right fun _ => ?_
  rw [shapeChecked_iff s i hp, ← overlapChecked_iff, Bool.not_eq_true]

/-- A command whose validation finds an error ends with it and changes nothing else (R137). -/
theorem exec_of_error {s : State} {i : Instr} {e : ErrorReport} (h : validationOf s i = some e) :
    exec i s = .next (s.raise e) := by
  cases i with
  | nop => simp [validationOf, paramChecked, rolesUsed, shapeChecked, overlapChecked, State.validate, State.firstBadDesc] at h
  | inv d a sc =>
    change s.validate true [d, a, sc] _ _ = some e at h
    simp only [shapeChecked, overlapChecked] at h
    simp [exec, execInv, h]
  | perm d x p =>
    change s.validate (permParamOk p) [d] _ false = some e at h
    simp only [shapeChecked] at h
    simp [exec, execPerm, State.runChecked, h]
  | asmh d p =>
    change s.validate (asmhParamOk p) [d] _ false = some e at h
    simp only [shapeChecked] at h
    simp [exec, execAsmh, State.runChecked, h]
  | mul d a b x t =>
    change s.validate true [d, a, b] _ _ = some e at h
    simp only [shapeChecked, overlapChecked] at h
    simp [exec, execMul, State.runChecked, h]
  | zero d =>
    change s.validate true [d] true false = some e at h
    simp [exec, execZero, State.runChecked, h]
  | ident d x =>
    change s.validate true [d] _ false = some e at h
    simp only [shapeChecked] at h
    simp [exec, execIdent, State.runChecked, h]
  | copy d a t =>
    change s.validate true [d, a] _ _ = some e at h
    simp only [shapeChecked, overlapChecked] at h
    simp [exec, execCopy, State.runChecked, h]
  | add d a b =>
    change s.validate true [d, a, b] _ _ = some e at h
    simp only [shapeChecked, overlapChecked] at h
    simp [exec, execAdd, State.runChecked, h]

/-- The matrix a command other than NOP and INV stores (R163, R183, R220, R241 to R244). -/
def resultMatrix (s : State) : Instr → BitMat
  | .nop | .inv _ _ _ => []
  | .perm d x p =>
    let pi := permMatrix s.cfg p.mcode.toNat p.kidx.toNat
    if x then (s.mat (s.operand d)).xor pi else pi
  | .asmh _ p => assembleH s.cfg p.mcode.toNat (template p.rate)
  | .mul d a b x t =>
    let product := (s.mat (s.operand a)).mul (s.mat (s.operand b))
    let result := if t then product.transpose (s.operand b).cols.toNat else product
    if x then (s.mat (s.operand d)).xor result else result
  | .zero d => BitMat.zero (s.operand d).rows.toNat
  | .ident d x =>
    let one := BitMat.ident (s.operand d).rows.toNat
    if x then (s.mat (s.operand d)).xor one else one
  | .copy _ a t => if t then (s.mat (s.operand a)).transpose (s.operand a).cols.toNat else s.mat (s.operand a)
  | .add _ a b => (s.mat (s.operand a)).xor (s.mat (s.operand b))

/-- A command other than NOP and INV whose checks pass stores its result through its destination and completes. -/
theorem exec_of_checks {s : State} {i : Instr} {d : DescIx} (h : ChecksPass s i) (hd : destination i = [d])
    (hi : opcodeOf i ≠ .inv) :
    exec i s = .next (s.store (s.operand d) (BitMat.at (resultMatrix s i))).complete := by
  rw [← validationOf_eq_none, validationOf] at h
  cases i with
  | nop => cases hd
  | inv _ _ _ => exact absurd rfl hi
  | perm d' x p => cases hd; simp only [shapeChecked, paramChecked, rolesUsed, overlapChecked] at h
                   simp [exec, execPerm, State.runChecked, h, resultMatrix]
  | asmh d' p => cases hd; simp only [shapeChecked, paramChecked, rolesUsed, overlapChecked] at h
                 simp [exec, execAsmh, State.runChecked, h, resultMatrix]
  | mul d' a b x t => cases hd; simp only [shapeChecked, paramChecked, rolesUsed, overlapChecked] at h
                      simp [exec, execMul, State.runChecked, h, resultMatrix]
  | zero d' => cases hd; simp only [shapeChecked, paramChecked, rolesUsed, overlapChecked] at h
               simp [exec, execZero, State.runChecked, h, resultMatrix]
  | ident d' x => cases hd; simp only [shapeChecked, paramChecked, rolesUsed, overlapChecked] at h
                  simp [exec, execIdent, State.runChecked, h, resultMatrix]
  | copy d' a t => cases hd; simp only [shapeChecked, paramChecked, rolesUsed, overlapChecked] at h
                   simp [exec, execCopy, State.runChecked, h, resultMatrix]
  | add d' a b => cases hd; simp only [shapeChecked, paramChecked, rolesUsed, overlapChecked] at h
                  simp [exec, execAdd, State.runChecked, h, resultMatrix]

/-- INV whose checks pass: SINGULAR with the elements of D and S free, or the inverse stored and S free (R200, R205). -/
theorem exec_inv_of_checks {s : State} {d a sc : DescIx} (h : ChecksPass s (.inv d a sc)) :
    exec (.inv d a sc) s =
      match invertMatrix (s.rowsOf a) (s.mat (s.operand a)) with
      | .error i =>
        .next ((s.scramble [s.operand d, s.operand sc]).raise ⟨.singular, BitVec.ofNat 32 i⟩)
      | .ok inverse =>
        .next ((s.store (s.operand d) (BitMat.at inverse)).scramble [s.operand sc]).complete := by
  rw [← validationOf_eq_none, validationOf] at h
  simp only [shapeChecked, paramChecked, rolesUsed, overlapChecked] at h
  cases hx : invertMatrix (s.rowsOf a) (s.mat (s.operand a)) <;>
    (rw [State.rowsOf] at hx; simp only [exec, execInv, h, hx])

/-- NOP completes (45_matrix_utility.md R240). -/
theorem exec_nop (s : State) : exec .nop s = .next s.complete := rfl

/-- Everything a command can do (40_host_interface.md R131, R132): end with the error validation found; complete as NOP; store
its result and complete; or, for INV, end with SINGULAR or store the inverse. -/
theorem exec_cases (i : Instr) (s : State) :
    (∃ e, validationOf s i = some e ∧ exec i s = .next (s.raise e)) ∨
    (i = .nop ∧ exec i s = .next s.complete) ∨
    (∃ d, ChecksPass s i ∧ destination i = [d] ∧ writeRoles i = [d] ∧ opcodeOf i ≠ .inv ∧
      exec i s = .next (s.store (s.operand d) (BitMat.at (resultMatrix s i))).complete) ∨
    (∃ d a sc, i = .inv d a sc ∧ ChecksPass s i ∧
      ((∃ k, invertMatrix (s.rowsOf a) (s.mat (s.operand a)) = .error k ∧
          exec i s = .next ((s.scramble [s.operand d, s.operand sc]).raise ⟨.singular, BitVec.ofNat 32 k⟩)) ∨
        ∃ inverse, invertMatrix (s.rowsOf a) (s.mat (s.operand a)) = .ok inverse ∧
          exec i s = .next ((s.store (s.operand d) (BitMat.at inverse)).scramble [s.operand sc]).complete)) := by
  cases hv : validationOf s i with
  | some e => exact .inl ⟨e, rfl, exec_of_error hv⟩
  | none =>
    have hc := (validationOf_eq_none s i).mp hv
    refine .inr ?_
    cases i with
    | nop => exact .inl ⟨rfl, rfl⟩
    | inv d a sc =>
      refine .inr (.inr ⟨d, a, sc, rfl, hc, ?_⟩)
      rw [exec_inv_of_checks hc]
      cases invertMatrix (s.rowsOf a) (s.mat (s.operand a)) with
      | error k => exact .inl ⟨k, rfl, rfl⟩
      | ok inverse => exact .inr ⟨inverse, rfl, rfl⟩
    | perm d _ _ | asmh d _ | mul d _ _ _ _ | zero d | ident d _ | copy d _ _ | add d _ _ =>
      exact .inr (.inl ⟨d, hc, rfl, rfl, by simp [opcodeOf], exec_of_checks hc rfl (by simp [opcodeOf])⟩)

end Sys2Proof.Machine
end

