-- ==== Sys2Proof/Laws/Decode.lean ====
section
/-! SUPPORT. When a pair of words decodes, and to what (30_encoding.md R99). -/

namespace Sys2Proof

open Sys2Proof.Machine

theorem Opcode.ofCode_eq_some (c : BitVec 8) (o : Opcode) : Opcode.ofCode c = some o ↔ c = o.code := by
  revert c; cases o <;> decide +kernel

/-- A pair of words decodes to the command of an opcode whose code it has, when no reserved bit and no flag the opcode forbids
is set. -/
theorem decode_eq_ok (cmd param : Word) (i : Instr) :
    decode cmd param = .ok i ↔ cmdReserved cmd = false ∧ ∃ o : Opcode, cmd.extractLsb' 0 8 = o.code ∧
      (cmd.getLsbD 24 = true → o.allowsX = true) ∧ (cmd.getLsbD 25 = true → o.allowsT = true) ∧
      buildCommand o cmd param = i := by
  unfold decode
  cases hr : cmdReserved cmd with
  | true => simp
  | false =>
    simp only [Bool.false_eq_true, if_false, true_and]
    cases ho : Opcode.ofCode (cmd.extractLsb' 0 8) with
    | none =>
      refine iff_of_false (by simp) ?_
      rintro ⟨o, h, _⟩
      rw [(Opcode.ofCode_eq_some _ o).mpr h] at ho
      cases ho
    | some o =>
      have : ∀ o', cmd.extractLsb' 0 8 = o'.code ↔ o = o' := by
        intro o'; rw [← Opcode.ofCode_eq_some, ho]; simp
      simp only [this, exists_eq_left']
      cases cmd.getLsbD 24 <;> cases cmd.getLsbD 25 <;> cases o.allowsX <;> cases o.allowsT <;> simp

theorem opcodeOf_buildCommand (o : Opcode) (cmd param : Word) : opcodeOf (buildCommand o cmd param) = o := by
  cases o <;> rfl

theorem descField_val (w : Word) (lo : Nat) : (descField w lo).val = bitsOf w lo 3 := by
  simp [descField, bitsOf, Nat.shiftRight_eq_div_pow]

end Sys2Proof
end

