-- ==== Sys2Proof/Laws/XorSum.lean ====
section
/-! SUPPORT. Sums over GF(2) (00_scope.md R13), and combinations of rows. -/

namespace Sys2Proof.Machine

theorem xorSum_congr {n : Nat} {f g : Nat → Bool} (h : ∀ t < n, f t = g t) : xorSum n f = xorSum n g := by
  induction n with
  | zero => rfl
  | succ n ih => rw [xorSum, xorSum, ih fun t ht => h t (by omega), h n (by omega)]

theorem xorSum_false (n : Nat) : (xorSum n fun _ => false) = false := by
  induction n with
  | zero => rfl
  | succ n ih => rw [xorSum, ih]; rfl

theorem xorSum_xor (n : Nat) (f g : Nat → Bool) : (xorSum n fun t => f t ^^ g t) = (xorSum n f ^^ xorSum n g) := by
  induction n with
  | zero => rfl
  | succ n ih => rw [xorSum, xorSum, xorSum, ih]; simp [Bool.xor_left_comm]

theorem xorSum_and (n : Nat) (b : Bool) (f : Nat → Bool) : (xorSum n fun t => b && f t) = (b && xorSum n f) := by
  cases b
  · simp [xorSum_false]
  · simp

/-- The order of two sums does not matter (44_multiply.md R221). -/
theorem xorSum_comm (m n : Nat) (f : Nat → Nat → Bool) :
    (xorSum m fun i => xorSum n fun j => f i j) = xorSum n fun j => xorSum m fun i => f i j := by
  induction m with
  | zero => simp [xorSum, xorSum_false]
  | succ m ih => simp only [xorSum, ih, ← xorSum_xor]

theorem xorSum_single (n k : Nat) (f : Nat → Bool) :
    (xorSum n fun t => decide (t = k) && f t) = (decide (k < n) && f k) := by
  induction n with
  | zero => simp [xorSum]
  | succ n ih =>
    rw [xorSum, ih]
    rcases Nat.lt_trichotomy k n with h | rfl | h
    · simp [h, show k < n + 1 by omega, show n ≠ k by omega]
    · simp
    · simp [show ¬ k < n by omega, show ¬ k < n + 1 by omega, show n ≠ k by omega]

/-- A sum whose terms after the first k + 1 vanish. -/
theorem xorSum_cut {n k : Nat} (hk : k < n) (f : Nat → Bool) (h : ∀ t, k < t → f t = false) :
    xorSum n f = (xorSum k f ^^ f k) := by
  induction n with
  | zero => omega
  | succ n ih =>
    rcases Nat.lt_or_ge k n with hlt | hge
    · rw [xorSum, ih hlt, h n hlt]; simp
    · rw [show n = k by omega, xorSum]

/-- `w` is a combination of the first i rows of L. -/
def InSpan (i : Nat) (L : Nat → Nat → Bool) (w : Nat → Bool) : Prop :=
  ∃ e : Nat → Bool, ∀ c, w c = xorSum i fun v => e v && L v c

theorem InSpan.zero (i : Nat) (L : Nat → Nat → Bool) : InSpan i L fun _ => false :=
  ⟨fun _ => false, fun c => by simp [xorSum_false]⟩

theorem InSpan.row {i v : Nat} (L : Nat → Nat → Bool) (h : v < i) : InSpan i L (L v) :=
  ⟨fun t => decide (t = v), fun c => by rw [xorSum_single i v fun t => L t c]; simp [h]⟩

theorem InSpan.xor {i : Nat} {L : Nat → Nat → Bool} {w x : Nat → Bool} (hw : InSpan i L w) (hx : InSpan i L x) :
    InSpan i L fun c => w c ^^ x c := by
  obtain ⟨e, he⟩ := hw
  obtain ⟨f, hf⟩ := hx
  refine ⟨fun v => e v ^^ f v, fun c => ?_⟩
  simp only [he, hf, ← xorSum_xor]
  exact xorSum_congr fun t _ => (Bool.and_xor_distrib_right ..).symm

theorem InSpan.smul {i : Nat} {L : Nat → Nat → Bool} {w : Nat → Bool} (b : Bool) (hw : InSpan i L w) :
    InSpan i L fun c => b && w c := by
  cases b
  · simpa using InSpan.zero i L
  · simpa using hw

theorem InSpan.sum {i m : Nat} {L : Nat → Nat → Bool} {w : Nat → Nat → Bool} (e : Nat → Bool)
    (h : ∀ v < m, InSpan i L (w v)) : InSpan i L fun c => xorSum m fun v => e v && w v c := by
  induction m with
  | zero => exact InSpan.zero i L
  | succ m ih => exact (ih fun v hv => h v (by omega)).xor ((h m (by omega)).smul (e m))

theorem InSpan.congr {i : Nat} {L : Nat → Nat → Bool} {w x : Nat → Bool} (h : ∀ c, w c = x c) (hw : InSpan i L w) :
    InSpan i L x := by
  rwa [show x = w from funext fun c => (h c).symm]

/-- Combinations of combinations are combinations. -/
theorem InSpan.trans {i m : Nat} {L M : Nat → Nat → Bool} {w : Nat → Bool} (hw : InSpan m M w)
    (h : ∀ v < m, InSpan i L (M v)) : InSpan i L w := by
  obtain ⟨e, he⟩ := hw
  exact (InSpan.sum e h).congr fun c => (he c).symm

/-! One-sided inverses are two-sided, by the same fact about matrices over ZMod 2 -/

/-- A bit matrix as a matrix over ZMod 2. -/
def toZMod (n : Nat) (x : Nat → Nat → Bool) : Matrix (Fin n) (Fin n) (ZMod 2) := fun i j => if x i j then 1 else 0

theorem sum_zmod (n : Nat) (f : Nat → Bool) :
    (∑ t : Fin n, if f t then (1 : ZMod 2) else 0) = if xorSum n f then 1 else 0 := by
  have add : ∀ a b : Bool, ((if a then (1 : ZMod 2) else 0) + if b then 1 else 0) = if (a ^^ b) then 1 else 0 := by decide
  induction n with
  | zero => simp [xorSum]
  | succ n ih =>
    rw [Fin.sum_univ_castSucc]
    simp only [Fin.val_castSucc, Fin.val_last, ih, add]
    rfl

theorem isInverse_iff (n : Nat) (x y : Nat → Nat → Bool) : IsInverse n x y ↔ toZMod n x * toZMod n y = 1 := by
  have e : ∀ i j : Fin n, (toZMod n x * toZMod n y) i j = if (xorSum n fun t => x i t && y t j) then 1 else 0 := by
    intro i j
    rw [Matrix.mul_apply, ← sum_zmod]
    refine Finset.sum_congr rfl fun t _ => ?_
    simp only [toZMod]
    cases x i t <;> cases y t j <;> simp
  constructor
  · intro h
    ext i j
    rw [e, h i i.2 j j.2, Matrix.one_apply]
    simp [Fin.ext_iff]
  · intro h i hi j hj
    have := e ⟨i, hi⟩ ⟨j, hj⟩
    rw [h, Matrix.one_apply] at this
    by_cases hij : i = j
    · simp only [hij, if_true] at this ⊢
      simpa using this.symm
    · rw [if_neg (by simpa using hij)] at this
      simp only [hij, decide_false]
      cases hx : xorSum n fun t => x i t && y t j
      · rfl
      · rw [hx] at this; simp at this

/-- A left inverse is a right inverse (43_invert.md R201). -/
theorem IsInverse.comm {n : Nat} {x y : Nat → Nat → Bool} : IsInverse n x y ↔ IsInverse n y x := by
  rw [isInverse_iff, isInverse_iff, mul_eq_one_comm]

end Sys2Proof.Machine
end

