-- ==== Sys2Proof/Laws/Invert.lean ====
section
/-! SUPPORT. The reference algorithm of INV (43_invert.md R203): the invariant of its loop, and from it that it finds the
inverse or the first dependent row (R201, R202, R204). -/

namespace Sys2Proof.Machine

/-- The left and the right half of row r, bit by bit. -/
def leftBit (rows : List AugRow) (r c : Nat) : Bool := (rows.getD r (0, 0)).1.testBit c
def rightBit (rows : List AugRow) (r c : Nat) : Bool := (rows.getD r (0, 0)).2.testBit c

theorem firstOne_some {n x c : Nat} (h : firstOne n x = some c) : c < n ∧ x.testBit c = true := by
  have hm := List.mem_of_find?_eq_some h
  have hp := List.find?_some h
  exact ⟨List.mem_range.mp hm, hp⟩

theorem firstOne_none {n x : Nat} (h : firstOne n x = none) : ∀ c < n, x.testBit c = false := by
  intro c hc
  have := List.find?_eq_none.mp h c (List.mem_range.mpr hc)
  simpa using this

theorem clearColumn_length (i c : Nat) (p : AugRow) (r : Nat) (rows : List AugRow) :
    (clearColumn i c p r rows).length = rows.length := by
  induction rows generalizing r with
  | nil => rfl
  | cons x xs ih => simp [clearColumn, ih]

theorem clearColumn_getD (i c : Nat) (p : AugRow) (r0 : Nat) (rows : List AugRow) {r : Nat} (h : r < rows.length) :
    (clearColumn i c p r0 rows).getD r (0, 0) =
      if r0 + r = i ∨ (rows.getD r (0, 0)).1.testBit c = false then rows.getD r (0, 0)
      else ((rows.getD r (0, 0)).1 ^^^ p.1, (rows.getD r (0, 0)).2 ^^^ p.2) := by
  induction rows generalizing r0 r with
  | nil => simp at h
  | cons x xs ih =>
    cases r with
    | zero =>
      simp only [clearColumn, List.getD_cons_zero, Nat.add_zero]
      by_cases h1 : r0 = i
      · simp [h1]
      · cases h2 : x.1.testBit c
        · simp
        · have hb : Nat.beq r0 i = false := by
            cases hb : Nat.beq r0 i
            · rfl
            · exact absurd (Nat.beq_eq ▸ hb : r0 = i) h1
          simp [h1, hb]
    | succ r =>
      simp only [clearColumn, List.getD_cons_succ]
      rw [ih (r0 + 1) (by simpa using h), show r0 + 1 + r = r0 + (r + 1) by omega]

/-- A bit of the rows after clearing column c with row i. -/
theorem leftBit_clearColumn {i c : Nat} {rows : List AugRow} {r : Nat} (h : r < rows.length) (j : Nat) :
    leftBit (clearColumn i c (rows.getD i (0, 0)) 0 rows) r j =
      (leftBit rows r j ^^ (decide (r ≠ i) && leftBit rows r c && leftBit rows i j)) := by
  rw [leftBit, clearColumn_getD i c _ 0 rows h]
  by_cases h1 : r = i
  · simp [h1, leftBit]
  · cases h2 : (rows.getD r (0, 0)).1.testBit c
    · simp only [Nat.zero_add, or_true, if_true, leftBit, h2]; simp
    · simp [h1, leftBit, h2, -List.getD_eq_getElem?_getD]

theorem rightBit_clearColumn {i c : Nat} {rows : List AugRow} {r : Nat} (h : r < rows.length) (j : Nat) :
    rightBit (clearColumn i c (rows.getD i (0, 0)) 0 rows) r j =
      (rightBit rows r j ^^ (decide (r ≠ i) && leftBit rows r c && rightBit rows i j)) := by
  rw [rightBit, clearColumn_getD i c _ 0 rows h]
  by_cases h1 : r = i
  · simp [h1, rightBit]
  · cases h2 : (rows.getD r (0, 0)).1.testBit c
    · simp only [Nat.zero_add, or_true, if_true, leftBit, rightBit, h2]; simp
    · simp [h1, leftBit, rightBit, h2, -List.getD_eq_getElem?_getD]

/-- The invariant of the elimination loop after i rows (R204): every row is the combination of A's rows its right half says,
the rows done have one pivot each, they span what A's first i rows span, and those rows are independent. -/
structure ElimInv (n : Nat) (A : Nat → Nat → Bool) (i : Nat) (rows : List AugRow) (piv : List Nat) : Prop where
  len : rows.length = n
  pivLen : piv.length = i
  comb : ∀ r < n, ∀ c, leftBit rows r c = xorSum n fun t => rightBit rows r t && A t c
  supp : ∀ r < n, ∀ t, rightBit rows r t = true → t < i ∨ t = r
  self : ∀ r < n, i ≤ r → rightBit rows r r = true
  pivot : ∀ u < i, piv.getD u 0 < n ∧ ∀ r < n, leftBit rows r (piv.getD u 0) = decide (r = u)
  span : ∀ u < i, InSpan i (leftBit rows) (A u)
  indep : ∀ t < i, ¬ InSpan t A (A t)

/-- Row i of the rows is row i of A and a combination of the rows of A before it. -/
theorem ElimInv.row_eq {n : Nat} {A : Nat → Nat → Bool} {i : Nat} {rows : List AugRow} {piv : List Nat}
    (h : ElimInv n A i rows piv) (hi : i < n) (c : Nat) :
    leftBit rows i c = ((xorSum i fun t => rightBit rows i t && A t c) ^^ A i c) := by
  rw [h.comb i hi c, xorSum_cut hi]
  · rw [h.self i hi (le_refl i)]; simp
  · intro t ht
    have : rightBit rows i t = false := by
      by_contra hne
      have := h.supp i hi t (by simpa using hne)
      omega
    simp [this]

/-- A combination of the rows done that is zero in every pivot column is zero (R204). -/
theorem ElimInv.zero_of_pivots {n : Nat} {A : Nat → Nat → Bool} {i : Nat} {rows : List AugRow} {piv : List Nat}
    (h : ElimInv n A i rows piv) (hi : i ≤ n) {w : Nat → Bool} (hw : InSpan i (leftBit rows) w)
    (hz : ∀ u < i, w (piv.getD u 0) = false) (c : Nat) : w c = false := by
  obtain ⟨e, he⟩ := hw
  have hcoeff : ∀ u < i, e u = false := by
    intro u hu
    have h1 := he (piv.getD u 0)
    rw [hz u hu] at h1
    have h2 : (xorSum i fun v => e v && leftBit rows v (piv.getD u 0)) = xorSum i fun v => decide (v = u) && e v := by
      apply xorSum_congr
      intro v hv
      rw [(h.pivot u hu).2 v (by omega), Bool.and_comm]
    rw [h2, xorSum_single i u e] at h1
    simpa [hu] using h1.symm
  rw [he c, ← xorSum_false i]
  exact xorSum_congr fun v hv => by rw [hcoeff v hv]; rfl

/-- The loop's start. -/
theorem ElimInv.start {n : Nat} {A : BitMat} (hA : A.length = n) :
    ElimInv n A.at 0 (List.zip A (BitMat.ident n)) [] := by
  have hl : ∀ r < n, ∀ c, leftBit (List.zip A (BitMat.ident n)) r c = A.at r c := by
    intro r hr c
    have h1 : r < A.length := by omega
    have h2 : r < (BitMat.ident n).length := by rw [BitMat.ident_length]; omega
    simp [leftBit, BitMat.at, BitMat.row, List.getD_eq_getElem?_getD, List.getElem?_eq_getElem h1,
      List.getElem?_eq_getElem h2, List.zip, List.getElem?_zipWith]
  have hr' : ∀ r < n, ∀ c, rightBit (List.zip A (BitMat.ident n)) r c = decide (c = r) := by
    intro r hr c
    have h1 : r < A.length := by omega
    have h2 : r < (BitMat.ident n).length := by rw [BitMat.ident_length]; omega
    have : rightBit (List.zip A (BitMat.ident n)) r c = (BitMat.ident n).at r c := by
      simp [rightBit, BitMat.at, BitMat.row, List.getD_eq_getElem?_getD, List.getElem?_eq_getElem h1,
        List.getElem?_eq_getElem h2, List.zip, List.getElem?_zipWith]
    rw [this, BitMat.at_ident]; simp [hr]
  refine ⟨by simp [hA, BitMat.ident_length], rfl, ?_, ?_, ?_, by omega, by omega, by omega⟩
  · intro r hr c
    rw [hl r hr c, ← show (xorSum n fun t => decide (t = r) && A.at t c) = A.at r c by
      rw [xorSum_single n r fun t => A.at t c]; simp [hr]]
    exact xorSum_congr fun t _ => by rw [hr' r hr]
  · intro r hr t h
    rw [hr' r hr] at h
    exact .inr (by simpa using h)
  · intro r hr _
    rw [hr' r hr]; simp

/-- One round of the loop keeps the invariant. -/
theorem ElimInv.step {n : Nat} {A : Nat → Nat → Bool} {i : Nat} {rows : List AugRow} {piv : List Nat}
    (h : ElimInv n A i rows piv) (hi : i < n) {c : Nat} (hc : c < n) (hone : leftBit rows i c = true) :
    ElimInv n A (i + 1) (clearColumn i c (rows.getD i (0, 0)) 0 rows) (piv ++ [c]) := by
  have hlen : ∀ r < n, r < rows.length := fun r hr => by rw [h.len]; exact hr
  have hL := fun r (hr : r < n) j => leftBit_clearColumn (i := i) (c := c) (hlen r hr) j
  have hR := fun r (hr : r < n) j => rightBit_clearColumn (i := i) (c := c) (hlen r hr) j
  have hnew : ∀ v < i + 1, InSpan (i + 1) (leftBit (clearColumn i c (rows.getD i (0, 0)) 0 rows)) (leftBit rows v) := by
    intro v hv
    have hi' : InSpan (i + 1) (leftBit (clearColumn i c (rows.getD i (0, 0)) 0 rows)) (leftBit rows i) :=
      (InSpan.row _ (Nat.lt_succ_self i)).congr fun j => by rw [hL i hi]; simp
    refine ((InSpan.row _ hv).xor (hi'.smul (decide (v ≠ i) && leftBit rows v c))).congr fun j => ?_
    rw [hL v (by omega)]
    simp [Bool.and_assoc]
  refine ⟨by rw [clearColumn_length]; exact h.len, by simp [h.pivLen], ?_, ?_, ?_, ?_, ?_, ?_⟩
  · intro r hr j
    rw [hL r hr, h.comb r hr, h.comb i hi, ← xorSum_and, ← xorSum_xor]
    exact xorSum_congr fun t _ => by
      rw [hR r hr]
      cases rightBit rows r t <;> cases rightBit rows i t <;> cases A t j <;>
        cases decide (r ≠ i) <;> cases leftBit rows r c <;> rfl
  · intro r hr t ht
    rw [hR r hr] at ht
    cases h1 : rightBit rows r t with
    | true => rcases h.supp r hr t h1 with h' | h' <;> omega
    | false =>
      rw [h1] at ht
      have h2 : rightBit rows i t = true := by
        cases h3 : rightBit rows i t
        · rw [h3] at ht; simp at ht
        · rfl
      rcases h.supp i hi t h2 with h' | h' <;> omega
  · intro r hr hir
    rw [hR r hr, h.self r hr (by omega)]
    have : rightBit rows i r = false := by
      by_contra hne
      rcases h.supp i hi r (by simpa using hne) with h' | h' <;> omega
    simp [this]
  · intro u hu
    rcases Nat.lt_or_ge u i with hlt | hge
    · have hget : (piv ++ [c]).getD u 0 = piv.getD u 0 := by
        simp [List.getD_eq_getElem?_getD, List.getElem?_append, h.pivLen, hlt]
      rw [hget]
      refine ⟨(h.pivot u hlt).1, fun r hr => ?_⟩
      rw [hL r hr, (h.pivot u hlt).2 r hr, (h.pivot u hlt).2 i hi]
      simp [show i ≠ u by omega]
    · have hu' : u = i := by omega
      subst hu'
      have hget : (piv ++ [c]).getD u 0 = c := by
        simp [List.getD_eq_getElem?_getD, h.pivLen]
      rw [hget]
      refine ⟨hc, fun r hr => ?_⟩
      rw [hL r hr, hone]
      by_cases hri : r = u
      · simp [hri, hone]
      · simp [hri]
  · intro u hu
    rcases Nat.lt_or_ge u i with hlt | hge
    · exact (h.span u hlt).trans fun v hv => hnew v (by omega)
    · have hu' : u = i := by omega
      subst hu'
      have hsum : InSpan (u + 1) (leftBit (clearColumn u c (rows.getD u (0, 0)) 0 rows))
          (fun j => xorSum u fun t => rightBit rows u t && A t j) :=
        InSpan.sum _ fun t ht => (h.span t ht).trans fun v hv => hnew v (by omega)
      exact (hsum.xor (hnew u (by omega))).congr fun j => by rw [h.row_eq hi]; simp
  · intro t ht
    rcases Nat.lt_or_ge t i with hlt | hge
    · exact h.indep t hlt
    · have ht' : t = i := by omega
      subst ht'
      intro hdep
      have hA : InSpan t (leftBit rows) (A t) := hdep.trans h.span
      have hsum : InSpan t (leftBit rows) (fun j => xorSum t fun u => rightBit rows t u && A u j) :=
        InSpan.sum _ h.span
      have hrow : InSpan t (leftBit rows) (leftBit rows t) :=
        (hsum.xor hA).congr fun j => (h.row_eq hi j).symm
      have := h.zero_of_pivots (by omega) hrow (fun u hu => by rw [(h.pivot u hu).2 t hi]; simp; omega) c
      rw [hone] at this; cases this

/-- The loop from any point of it: it ends with the invariant for all n rows, or at a row whose left half is zero. -/
theorem eliminate_spec {n : Nat} {A : Nat → Nat → Bool} (fuel i : Nat) {rows : List AugRow} {piv : List Nat}
    (h : ElimInv n A i rows piv) (hfuel : i + fuel = n) :
    (∃ rows' piv', eliminate n fuel i rows piv = .ok (rows', piv') ∧ ElimInv n A n rows' piv') ∨
      ∃ k rows' piv', eliminate n fuel i rows piv = .error k ∧ k < n ∧ ElimInv n A k rows' piv' ∧
        ∀ c < n, leftBit rows' k c = false := by
  induction fuel generalizing i rows piv with
  | zero =>
    have : i = n := by omega
    exact .inl ⟨rows, piv, rfl, this ▸ h⟩
  | succ fuel ih =>
    cases hf : firstOne n (rows.getD i (0, 0)).1 with
    | none => exact .inr ⟨i, rows, piv, by rw [eliminate, hf], by omega, h, firstOne_none hf⟩
    | some c =>
      obtain ⟨hc, hone⟩ := firstOne_some hf
      have := ih (i + 1) (h.step (by omega) hc hone) (by omega)
      rw [eliminate, hf]; exact this

/-- Setting distinct places of a list one after the other: each place set holds its value. -/
theorem foldl_set_getD (pairs : List (Nat × AugRow)) (out : BitMat)
    (hn : (pairs.map Prod.fst).Nodup) (hlt : ∀ p ∈ pairs, p.1 < out.length) :
    (pairs.foldl (fun out cr => out.set cr.1 cr.2.2) out).length = out.length ∧
    (∀ p ∈ pairs, (pairs.foldl (fun out cr => out.set cr.1 cr.2.2) out).getD p.1 0 = p.2.2) ∧
    ∀ k, (∀ p ∈ pairs, p.1 ≠ k) →
      (pairs.foldl (fun out cr => out.set cr.1 cr.2.2) out).getD k 0 = out.getD k 0 := by
  induction pairs generalizing out with
  | nil => simp
  | cons q qs ih =>
    simp only [List.map_cons, List.nodup_cons, List.mem_map, not_exists, not_and] at hn
    have hlt' : ∀ p ∈ qs, p.1 < (out.set q.1 q.2.2).length := by
      intro p hp; simpa using hlt p (List.mem_cons_of_mem _ hp)
    obtain ⟨h1, h2, h3⟩ := ih (out.set q.1 q.2.2) hn.2 hlt'
    refine ⟨by simpa using h1, ?_, ?_⟩
    · intro p hp
      rcases List.mem_cons.mp hp with rfl | hp
      · rw [List.foldl_cons, h3 p.1 fun x hx => hn.1 x hx]
        have := hlt p (List.mem_cons_self ..)
        simp [List.getD_eq_getElem?_getD, this]
      · exact h2 p hp
    · intro k hk
      have hq := hk q (List.mem_cons_self ..)
      rw [List.foldl_cons, h3 k fun x hx => hk x (List.mem_cons_of_mem _ hx)]
      simp [List.getD_eq_getElem?_getD, List.getElem?_set_ne hq]

/-- With distinct pivots, the reordered rows put the right half of row u at place piv[u] (R203). -/
theorem ElimInv.reorder {n : Nat} {A : Nat → Nat → Bool} {rows : List AugRow} {piv : List Nat}
    (h : ElimInv n A n rows piv) :
    (reorderRows n rows piv).length = n ∧
      ∀ u < n, ∀ c, (reorderRows n rows piv).at (piv.getD u 0) c = rightBit rows u c := by
  have hget : ∀ u < n, piv[u]? = some (piv.getD u 0) := by
    intro u hu
    have : u < piv.length := by rw [h.pivLen]; exact hu
    simp [List.getD_eq_getElem?_getD, List.getElem?_eq_getElem this]
  have hzip : ((List.zip piv rows).map Prod.fst) = piv := by
    rw [List.map_fst_zip]
    rw [h.pivLen, h.len]
  have hnodup : piv.Nodup := by
    rw [List.nodup_iff_getElem?_ne_getElem?]
    intro u v huv hv heq
    have hv' : v < n := by rw [← h.pivLen]; exact hv
    have hu' : u < n := by omega
    rw [hget u hu', hget v hv'] at heq
    have heq' : piv.getD u 0 = piv.getD v 0 := by simpa using heq
    have h1 := (h.pivot u hu').2 u hu'
    have h2 := (h.pivot v hv').2 u hu'
    rw [heq', h2] at h1
    simp at h1; omega
  have hspec := foldl_set_getD (List.zip piv rows) (BitMat.zero n) (by rw [hzip]; exact hnodup) (by
    intro p hp
    have hp1 : p.1 ∈ piv := (List.of_mem_zip hp).1
    obtain ⟨u, hu, hpu⟩ := List.getElem_of_mem hp1
    have hu' : u < n := by rw [← h.pivLen]; exact hu
    have hlt := (h.pivot u hu').1
    have : piv.getD u 0 = p.1 := by simp [List.getD_eq_getElem?_getD, List.getElem?_eq_getElem hu, hpu]
    simp [BitMat.zero]; omega)
  refine ⟨by rw [reorderRows, hspec.1]; simp [BitMat.zero], ?_⟩
  intro u hu c
  have hr : u < rows.length := by rw [h.len]; exact hu
  have hp : u < piv.length := by rw [h.pivLen]; exact hu
  have hmem : (piv.getD u 0, rows.getD u (0, 0)) ∈ List.zip piv rows := by
    rw [List.mem_iff_getElem?]
    exact ⟨u, by simp [List.zip, List.getElem?_zipWith, List.getElem?_eq_getElem hr, List.getElem?_eq_getElem hp,
      List.getD_eq_getElem?_getD]⟩
  have := hspec.2.1 _ hmem
  simp only at this
  rw [BitMat.at, BitMat.row, reorderRows, this, rightBit]

/-- When every row has a pivot the result is the inverse (R201), and no row depends on those before it. -/
theorem ElimInv.inverse {n : Nat} {A : Nat → Nat → Bool} {rows : List AugRow} {piv : List Nat}
    (h : ElimInv n A n rows piv) : IsInverse n (reorderRows n rows piv).at A := by
  have hsurj : ∀ c < n, ∃ u < n, piv.getD u 0 = c := by
    have hinj : Function.Injective fun u : Fin n => (⟨piv.getD u 0, (h.pivot u u.2).1⟩ : Fin n) := by
      intro u v huv
      have heq : piv.getD u 0 = piv.getD v 0 := by simpa using huv
      have h1 := (h.pivot u u.2).2 u u.2
      have h2 := (h.pivot v v.2).2 u u.2
      rw [heq, h2] at h1
      have : (u : Nat) = v := by simpa using h1
      exact Fin.ext this
    intro c hc
    obtain ⟨u, hu⟩ := (Finite.injective_iff_surjective.mp hinj) ⟨c, hc⟩
    exact ⟨u, u.2, by simpa using congrArg Fin.val hu⟩
  intro r hr c hc
  obtain ⟨u, hu, rfl⟩ := hsurj r hr
  obtain ⟨v, hv, rfl⟩ := hsurj c hc
  have h1 : (xorSum n fun t => (reorderRows n rows piv).at (piv.getD u 0) t && A t (piv.getD v 0)) =
      leftBit rows u (piv.getD v 0) := by
    rw [h.comb u hu]
    exact xorSum_congr fun t _ => by rw [h.reorder.2 u hu]
  rw [h1, (h.pivot v hv).2 u hu]
  by_cases huv : u = v
  · simp [huv]
  · have : piv.getD u 0 ≠ piv.getD v 0 := by
      intro heq
      have h2 := (h.pivot u hu).2 u hu
      rw [heq, (h.pivot v hv).2 u hu] at h2
      simp at h2; exact huv h2
    rw [decide_eq_false huv, decide_eq_false this]

/-- For a matrix with no element beyond column n, dependence on the rows before is combination of them. -/
theorem rowDependent_iff {n : Nat} {A : Nat → Nat → Bool} (hA : ∀ r c, n ≤ c → A r c = false) (i : Nat) :
    RowDependent n A i ↔ InSpan i A (A i) := by
  constructor
  · rintro ⟨e, he⟩
    refine ⟨e, fun c => ?_⟩
    rcases Nat.lt_or_ge c n with hc | hc
    · exact he c hc
    · rw [hA i c hc, ← xorSum_false i]
      exact xorSum_congr fun t _ => by rw [hA t c hc]; simp
  · rintro ⟨e, he⟩
    exact ⟨e, fun c _ => he c⟩

/-- What the inverter answers when it succeeds (R200, R201). -/
theorem invertMatrix_ok {n : Nat} {A X : BitMat} (hlen : A.length = n) (hA : ∀ r c, n ≤ c → A.at r c = false)
    (h : invertMatrix n A = .ok X) :
    X.length = n ∧ IsInverse n X.at A.at ∧ ∀ i < n, ¬ RowDependent n A.at i := by
  rcases eliminate_spec n 0 (ElimInv.start hlen) (by omega) with ⟨rows, piv, he, hinv⟩ | ⟨k, rows, piv, he, _⟩
  · rw [invertMatrix, he] at h
    cases h
    exact ⟨hinv.reorder.1, hinv.inverse, fun i hi => (rowDependent_iff hA i).not.mpr (hinv.indep i hi)⟩
  · rw [invertMatrix, he] at h; cases h

/-- What the inverter answers when it fails (R202). -/
theorem invertMatrix_error {n : Nat} {A : BitMat} {i : Nat} (hlen : A.length = n)
    (hA : ∀ r c, n ≤ c → A.at r c = false) (h : invertMatrix n A = .error i) :
    i < n ∧ RowDependent n A.at i ∧ ∀ t < i, ¬ RowDependent n A.at t := by
  rcases eliminate_spec n 0 (ElimInv.start hlen) (by omega) with ⟨rows, piv, he, _⟩ | ⟨k, rows, piv, he, hk, hinv, hz⟩
  · rw [invertMatrix, he] at h; cases h
  · rw [invertMatrix, he] at h
    cases h
    refine ⟨hk, ⟨fun t => rightBit rows i t, fun c hc => ?_⟩, fun t ht => (rowDependent_iff hA t).not.mpr (hinv.indep t ht)⟩
    have := hinv.row_eq hk c
    rw [hz c hc] at this
    revert this
    cases A.at i c <;> cases xorSum i (fun t => rightBit rows i t && A.at t c) <;> decide

end Sys2Proof.Machine
end

