-- ==== Sys2Proof/Laws/PerInstr.lean ====
section
/-! SUPPORT. Statements about every command, one lemma a constructor. -/

namespace Sys2Proof.Laws.EncodedLegal

open Sys2Proof Sys2Proof.Machine

/-- The command word the encoder writes matches its opcode's row: no reserved bit set, no flag the opcode forbids
(30_encoding.md R91, R93, R99). -/
def Statement (i : Instr) : Prop := (encode i).1 &&& (opcodeRow (opcodeOf i)).1 = (opcodeRow (opcodeOf i)).2

theorem nop : Statement .nop := by unfold Statement; decide

theorem perm (d : DescIx) (x : Bool) (p : PermParam) : Statement (.perm d x p) := by
  show cmdWord .perm d 0 0 0 x false &&& 0xFE8888FF = 0x00000001
  revert d x; decide +kernel

theorem asmh (d : DescIx) (p : AsmhParam) : Statement (.asmh d p) := by
  show cmdWord .asmh d 0 0 0 false false &&& 0xFF8888FF = 0x00000002
  revert d; decide +kernel

theorem inv (d a sc : DescIx) : Statement (.inv d a sc) := by
  show cmdWord .inv d a 0 sc false false &&& 0xFF8888FF = 0x00000003
  revert d a sc; decide +kernel

theorem mul (d a b : DescIx) (x t : Bool) : Statement (.mul d a b x t) := by
  show cmdWord .mul d a b 0 x t &&& 0xFC8888FF = 0x00000004
  revert d a b x t; decide +kernel

theorem zero (d : DescIx) : Statement (.zero d) := by
  show cmdWord .zero d 0 0 0 false false &&& 0xFF8888FF = 0x00000005
  revert d; decide +kernel

theorem ident (d : DescIx) (x : Bool) : Statement (.ident d x) := by
  show cmdWord .ident d 0 0 0 x false &&& 0xFE8888FF = 0x00000006
  revert d x; decide +kernel

theorem copy (d a : DescIx) (t : Bool) : Statement (.copy d a t) := by
  show cmdWord .copy d a 0 0 false t &&& 0xFD8888FF = 0x00000007
  revert d a t; decide +kernel

theorem add (d a b : DescIx) : Statement (.add d a b) := by
  show cmdWord .add d a b 0 false false &&& 0xFF8888FF = 0x00000008
  revert d a b; decide +kernel

end Sys2Proof.Laws.EncodedLegal
end

