-- ==== Sys2Proof/Laws/Step.lean ====
section
/-! SUPPORT. What a step, the engine's turn and a register access can do (40_host_interface.md R120 to R131), each said once. -/

namespace Sys2Proof.Machine

/-- The row an INV reports lies in the matrix (43_invert.md R202). -/
theorem State.singular_lt {s : State} {d a sc : DescIx} {k : Nat} (hc : ChecksPass s (.inv d a sc))
    (h : invertMatrix (s.rowsOf a) (s.mat (s.operand a)) = .error k) : k < s.rowsOf a := by
  have hsq : s.colsOf a = s.rowsOf a := hc.2.2.1.1
  refine (invertMatrix_error (State.mat_length ..) ?_ h).1
  intro r c hle
  have : ¬ c < (s.operand a).cols.toNat := by simp only [State.rowsOf, State.colsOf] at *; omega
  simp [State.at_mat, this]

/-- What every command leaves: a completion, the other registers, a code and value that fit, and a canonical memory. -/
theorem exec_spec (i : Instr) (s : State) :
    ∃ t, exec i s = .next t ∧ RegistersKept s t ∧ t.eng = .idle ∧ t.done = true ∧ t.errcode.infoOk t.errinfo ∧
      s.draws ≤ t.draws ∧ (Memory.wf s.cfg.mmemWords s.mm → Memory.wf s.cfg.mmemWords t.mm) := by
  rcases exec_cases i s with ⟨e, hv, h⟩ | ⟨_, h⟩ | ⟨d, _, _, _, _, h⟩ | ⟨d, a, sc, rfl, hc, ⟨k, hk, h⟩ | ⟨x, _, h⟩⟩
  · exact ⟨_, h, by simp [RegistersKept], rfl, rfl, State.validate_infoOk s hv, le_refl _, id⟩
  · exact ⟨_, h, by simp [RegistersKept], rfl, rfl, rfl, le_refl _, id⟩
  · exact ⟨_, h, by simp [RegistersKept], rfl, rfl, rfl, le_refl _, State.store_wf s _ _⟩
  · refine ⟨_, h, by simp [RegistersKept], rfl, rfl, ?_, Nat.le_succ _, State.scramble_wf s _⟩
    have h1 := State.singular_lt hc hk
    have h2 : s.rowsOf a < 2 ^ 24 := (s.operand a).rows.isLt
    show (BitVec.ofNat 32 k).toNat < 2 ^ 24
    rw [BitVec.toNat_ofNat]; omega
  · refine ⟨_, h, by simp [RegistersKept], rfl, rfl, rfl, Nat.le_succ _, fun hm => ?_⟩
    exact State.scramble_wf (s.store (s.operand d) (BitMat.at x)) _ (State.store_wf s _ _ hm)

/-- What the turn of a busy engine leaves. -/
theorem engineTurn_busy {s : State} (h : s.busy = true) :
    ∃ t, s.engineTurn = .next t ∧ RegistersKept s t ∧ t.eng = .idle ∧ t.done = true ∧ t.errcode.infoOk t.errinfo ∧
      s.draws ≤ t.draws ∧ (Memory.wf s.cfg.mmemWords s.mm → Memory.wf s.cfg.mmemWords t.mm) := by
  cases he : s.eng with
  | idle => simp [State.busy, he] at h
  | busy snap =>
    cases hd : decode snap.cmd snap.param with
    | error e =>
      exact ⟨s.raise ⟨.badOpcode, 0⟩, by simp [State.engineTurn, he, hd], by simp [RegistersKept], rfl, rfl, rfl, le_refl _, id⟩
    | ok i =>
      obtain ⟨t, ht⟩ := exec_spec i s
      exact ⟨t, by simp [State.engineTurn, he, hd, ht.1], ht.2⟩

/-- An idle engine does nothing (60_exceptions.md R285). -/
theorem engineTurn_idle {s : State} (h : s.busy = false) : s.engineTurn = .next s := by
  cases he : s.eng with
  | idle => simp [State.engineTurn, he]
  | busy snap => simp [State.busy, he] at h

/-- The two forms of a step. -/
theorem step_cases {s t : State} (h : step s = .next t) :
    (s.inputs = [] ∧ s.engineTurn = .next t) ∨
      ∃ i rest, s.inputs = i :: rest ∧ ({ s with inputs := rest } : State).handle i = .next t := by
  rw [step] at h
  cases hi : s.inputs with
  | nil => rw [hi] at h; exact .inl ⟨rfl, h⟩
  | cons i rest => rw [hi] at h; exact .inr ⟨i, rest, rfl, h⟩

/-! Register offsets (10_state.md R23) -/

theorem regAt_desc (k : DescIx) :
    regAt (BitVec.ofNat 12 (0x100 + 16 * k.val)) = .base k ∧ regAt (BitVec.ofNat 12 (0x104 + 16 * k.val)) = .rows k ∧
    regAt (BitVec.ofNat 12 (0x108 + 16 * k.val)) = .cols k ∧ regAt (BitVec.ofNat 12 (0x10C + 16 * k.val)) = .stride k := by
  revert k; decide +kernel

theorem regAt_reserved {off : BitVec 12}
    (h : off.toNat = 0x01C ∨ (0x02C ≤ off.toNat ∧ off.toNat ≤ 0x0FC) ∨ 0x180 ≤ off.toNat) : regAt off = .reserved := by
  rw [regAt, if_neg (by omega)]
  split <;> first | rfl | omega

/-- Outside the descriptor file one offset names each register. -/
theorem regAt_eq_iff (off : BitVec 12) :
    (regAt off = .ctrl ↔ off = 0x008) ∧ (regAt off = .status ↔ off = 0x00C) ∧ (regAt off = .mdata ↔ off = 0x024) := by
  by_cases h : 0x100 ≤ off.toNat ∧ off.toNat < 0x180
  · have hd : regAt off = descReg (off.toNat - 0x100) := by rw [regAt, if_pos h]
    have hne : ∀ v : BitVec 12, v.toNat < 0x100 → off ≠ v := by rintro v hv rfl; omega
    rw [hd]
    refine ⟨?_, ?_, ?_⟩
    all_goals
      refine iff_of_false ?_ (hne _ (by decide))
      simp only [descReg]; split <;> simp
  · have hv : ∀ n, n < 4096 → off.toNat = n → off = BitVec.ofNat 12 n := by
      rintro n _ rfl; simp
    rw [regAt, if_neg h]
    split <;> rename_i heq
    all_goals first
      | (have := hv _ (by decide) heq; subst this; decide)
      | (refine ⟨iff_of_false (by simp) ?_, iff_of_false (by simp) ?_, iff_of_false (by simp) ?_⟩ <;>
          (rintro rfl; simp at *))

/-! Accesses to MDATA -/

/-- A word after one word is written: the written word, and every other as before (40_host_interface.md R128). -/
theorem State.readWord_writeWord {s : State} (hm : Memory.wf s.cfg.mmemWords s.mm) {a : Nat} (ha : a < s.cfg.mmemWords)
    (v : Word) (b : Nat) : (s.writeWord a v).readWord b = if b = a then v else s.readWord b := by
  by_cases h : b = a
  · subst h
    rw [if_pos rfl]
    simp only [State.readWord, State.writeWord, State.readByte_patch _ _ _ _ hm]
    rw [if_pos (by omega), if_pos (by omega), if_pos (by omega), if_pos (by omega)]
    simp only [Option.getD_some, lane]
    rw [show 4 * b + 3 - 4 * b = 3 by omega, show 4 * b + 2 - 4 * b = 2 by omega, show 4 * b + 1 - 4 * b = 1 by omega,
      show 4 * b - 4 * b = 0 by omega]
    apply BitVec.eq_of_getLsbD_eq
    intro i hi
    simp only [BitVec.getLsbD_append, BitVec.getLsbD_extractLsb']
    split_ifs with h1 h2 h3
    · simp [h1]
    · simp [h2, show 8 + (i - 8) = i by omega]
    · simp [h3, show 16 + (i - 8 - 8) = i by omega]
    · simp [show i - 8 - 8 - 8 < 8 by omega, show 24 + (i - 8 - 8 - 8) = i by omega]
  · rw [if_neg h]
    simp only [State.readWord, State.writeWord, State.readByte_patch _ _ _ _ hm]
    rw [if_neg (by omega), if_neg (by omega), if_neg (by omega), if_neg (by omega)]

/-- A register read changes the state only at MDATA: OVR while busy, else MADDR, and AERR outside MM (R126, R127). -/
theorem State.readReg_state (s : State) (r : Reg) :
    (s.readReg r).2 = s ∨
    (r = .mdata ∧ s.busy = true ∧ (s.readReg r).2 = { s with ovr := true }) ∨
    (r = .mdata ∧ s.busy = false ∧ s.maddr.toNat < s.cfg.mmemWords ∧ (s.readReg r).2 = { s with maddr := s.maddr + 1 }) ∨
    (r = .mdata ∧ s.busy = false ∧ s.cfg.mmemWords ≤ s.maddr.toNat ∧
      (s.readReg r).2 = { s with maddr := s.maddr + 1, aerr := true }) := by
  cases r with
  | mdata =>
    cases hb : s.busy with
    | true => exact .inr (.inl ⟨rfl, rfl, by simp [State.readReg, State.mdataRead, hb, State.refuseAccess]⟩)
    | false =>
      by_cases hw : s.maddr.toNat < s.cfg.mmemWords
      · exact .inr (.inr (.inl ⟨rfl, rfl, hw, by simp [State.readReg, State.mdataRead, hb, hw, State.advanceAddress]⟩))
      · exact .inr (.inr (.inr ⟨rfl, rfl, by omega, by
          simp [State.readReg, State.mdataRead, hb, hw, State.advanceAddress, State.addressError]⟩))
  | _ => exact .inl rfl

/-- The writes that find an idle engine and store into one register, or into MDATA's word or AERR (R125, R128). -/
inductive IdleWrite (s : State) (v : Word) : Reg → State → Prop where
  | cmd : IdleWrite s v .cmd { s with cmd := v }
  | param : IdleWrite s v .param { s with param := v }
  | maddr : IdleWrite s v .maddr { s with maddr := v }
  | desc (r : Reg) (md : Vector Desc 8) (h : r.locked = true) (hne : r ≠ .mdata) : IdleWrite s v r { s with md := md }
  | word (h : s.maddr.toNat < s.cfg.mmemWords) :
    IdleWrite s v .mdata { s.writeWord s.maddr.toNat v with maddr := s.maddr + 1 }
  | outside (h : s.cfg.mmemWords ≤ s.maddr.toNat) : IdleWrite s v .mdata { s with maddr := s.maddr + 1, aerr := true }

/-- Everything a register write can do (R122 to R126, R128). -/
theorem State.writeReg_cases (s : State) (v : Word) (r : Reg) :
    s.writeReg v r = s ∨
    (r = .status ∧ s.writeReg v r = s.clearFlags v) ∨
    (r = .ctrl ∧ v.getLsbD 1 = true ∧ s.writeReg v r = s.softReset) ∨
    (r = .ctrl ∧ v.getLsbD 1 = false ∧ v.getLsbD 0 = false ∧ s.writeReg v r = { s with irqen := v.getLsbD 2 }) ∨
    (r = .ctrl ∧ v.getLsbD 1 = false ∧ v.getLsbD 0 = true ∧ s.busy = false ∧
      s.writeReg v r = State.start { s with irqen := v.getLsbD 2 }) ∨
    (r = .ctrl ∧ v.getLsbD 1 = false ∧ v.getLsbD 0 = true ∧ s.busy = true ∧ s.writeReg v r = { s with ovr := true }) ∨
    (r.locked = true ∧ s.busy = true ∧ s.writeReg v r = { s with ovr := true }) ∨
    (r.locked = true ∧ s.busy = false ∧ IdleWrite s v r (s.writeReg v r)) := by
  have hlock : ∀ f : State → State, r.locked = true → s.writeReg v r = s.lockedWrite f → IdleWrite s v r (f s) →
      (r.locked = true ∧ s.busy = true ∧ s.writeReg v r = { s with ovr := true }) ∨
      (r.locked = true ∧ s.busy = false ∧ IdleWrite s v r (s.writeReg v r)) := by
    intro f hl hw hi
    cases hb : s.busy with
    | true => exact .inl ⟨hl, rfl, by rw [hw]; simp [State.lockedWrite, hb, State.refuseAccess]⟩
    | false => exact .inr ⟨hl, rfl, by rw [hw]; simpa [State.lockedWrite, hb] using hi⟩
  cases r with
  | id | version | errinfo | mmsize | reserved => exact .inl rfl
  | status => exact .inr (.inl ⟨rfl, rfl⟩)
  | ctrl =>
    refine .inr (.inr ?_)
    cases h1 : v.getLsbD 1 with
    | true => exact .inl ⟨rfl, rfl, by rw [State.writeReg, State.writeCtrl, if_pos h1]⟩
    | false =>
      refine .inr ?_
      have hw : s.writeReg v .ctrl = (if v.getLsbD 0 then
          s.lockedWrite fun s => State.start { s with irqen := v.getLsbD 2 } else { s with irqen := v.getLsbD 2 }) := by
        rw [State.writeReg, State.writeCtrl, if_neg (by rw [h1]; decide)]
      cases h0 : v.getLsbD 0 with
      | false => exact .inl ⟨rfl, rfl, rfl, by rw [hw, if_neg (by rw [h0]; decide)]⟩
      | true =>
        rw [if_pos h0, State.lockedWrite] at hw
        cases hb : s.busy with
        | false => exact .inr (.inl ⟨rfl, rfl, rfl, rfl, by rw [hw, if_neg (by rw [hb]; decide)]⟩)
        | true => exact .inr (.inr (.inl ⟨rfl, rfl, rfl, rfl, by rw [hw, if_pos hb]; rfl⟩))
  | cmd => exact .inr (.inr (.inr (.inr (.inr (.inr (hlock (fun s => { s with cmd := v }) rfl rfl .cmd))))))
  | param => exact .inr (.inr (.inr (.inr (.inr (.inr (hlock (fun s => { s with param := v }) rfl rfl .param))))))
  | maddr => exact .inr (.inr (.inr (.inr (.inr (.inr (hlock (fun s => { s with maddr := v }) rfl rfl .maddr))))))
  | base i =>
    exact .inr (.inr (.inr (.inr (.inr (.inr (hlock (fun s => s.setDesc i fun d => { d with base := v }) rfl rfl
      (.desc _ _ rfl (by intro h; cases h))))))))
  | rows i =>
    exact .inr (.inr (.inr (.inr (.inr (.inr (hlock (fun s => s.setDesc i fun d => { d with rows := v.setWidth 24 }) rfl rfl
      (.desc _ _ rfl (by intro h; cases h))))))))
  | cols i =>
    exact .inr (.inr (.inr (.inr (.inr (.inr (hlock (fun s => s.setDesc i fun d => { d with cols := v.setWidth 24 }) rfl rfl
      (.desc _ _ rfl (by intro h; cases h))))))))
  | stride i =>
    exact .inr (.inr (.inr (.inr (.inr (.inr (hlock (fun s => s.setDesc i fun d => { d with stride := v.setWidth 24 }) rfl rfl
      (.desc _ _ rfl (by intro h; cases h))))))))
  | mdata =>
    refine .inr (.inr (.inr (.inr (.inr (.inr ?_)))))
    cases hb : s.busy with
    | true => exact .inl ⟨rfl, rfl, by simp [State.writeReg, State.mdataWrite, hb, State.refuseAccess]⟩
    | false =>
      refine .inr ⟨rfl, rfl, ?_⟩
      by_cases hw : s.maddr.toNat < s.cfg.mmemWords
      · have : s.writeReg v .mdata = { s.writeWord s.maddr.toNat v with maddr := s.maddr + 1 } := by
          simp [State.writeReg, State.mdataWrite, hb, hw, State.advanceAddress]
        rw [this]; exact .word hw
      · have : s.writeReg v .mdata = { s with maddr := s.maddr + 1, aerr := true } := by
          simp [State.writeReg, State.mdataWrite, hb, hw, State.advanceAddress, State.addressError]
        rw [this]; exact .outside (by omega)

/-- The draw of the unwritten words of MM changes only by power-on reset (70_reset_and_hazards.md R300; log 4). -/
theorem step_powerDraw {s t : State} (h : step s = .next t) :
    t.powerDraw = s.powerDraw ∨ ∃ rest, s.inputs = .powerOn :: rest := by
  have turn : ∀ rest, ({ s with inputs := rest } : State).engineTurn = .next t → t.powerDraw = s.powerDraw := by
    intro rest h
    cases hb : ({ s with inputs := rest } : State).busy with
    | false => rw [engineTurn_idle hb] at h; rw [← Host.Outcome.next.inj h]
    | true =>
      obtain ⟨u, hu, ⟨_, _, _, _, _, _, _, _, _, _, hk⟩, _⟩ := engineTurn_busy hb
      rw [hu] at h; rw [← Host.Outcome.next.inj h]
      exact hk
  rcases step_cases h with ⟨_, h⟩ | ⟨i, rest, hin, h⟩
  · exact .inl (turn s.inputs h)
  · cases i with
    | complete => exact .inl (turn rest h)
    | powerOn => exact .inr ⟨rest, hin⟩
    | read w off =>
      rw [← Host.Outcome.next.inj h, State.busRead]
      split
      · rcases State.readReg_state { s with inputs := rest } (regAt off) with h | ⟨_, _, h⟩ | ⟨_, _, _, h⟩ | ⟨_, _, _, h⟩ <;>
          exact .inl (by simp only [h])
      · exact .inl rfl
    | write w off v =>
      rw [← Host.Outcome.next.inj h, State.busWrite]
      split
      · refine .inl ?_
        rcases State.writeReg_cases { s with inputs := rest } v (regAt off) with
          h | ⟨_, h⟩ | ⟨_, _, h⟩ | ⟨_, _, _, h⟩ | ⟨_, _, _, _, h⟩ | ⟨_, _, _, _, h⟩ | ⟨_, _, h⟩ | ⟨_, _, h⟩
        case inr.inr.inr.inr.inr.inr.inr =>
          generalize State.writeReg { s with inputs := rest } v (regAt off) = u at h
          generalize regAt off = r at h
          cases h <;> rfl
        all_goals rw [h]
        case inr.inr.inl =>
          show (State.softReset _).powerDraw = _
          simp only [State.softReset]
          split <;> simp
        all_goals rfl
      · exact .inl rfl

end Sys2Proof.Machine
end

