-- ==== Sys2Proof/Tests/Slice0.lean ====
section
/-! SUPPORT. Tests of the model against the worked values of spec/ (30_encoding.md, 95_test_vectors.md), and for every statement
with hypotheses the witnesses that meet them. -/

set_option Elab.async false

namespace Sys2Proof.Tests

open Sys2Proof Sys2Proof.Machine

/-! Small states -/

/-- Tables with the two sourced entries (41_permutation.md R161) and 0 elsewhere. -/
def testCfg (words : Nat) : Params :=
  { mmemWords := words
    theta := 3 :: List.replicate 25 0
    phi := ((1 :: List.replicate 25 0) :: List.replicate 6 (List.replicate 26 0)) ::
      List.replicate 3 (List.replicate 7 (List.replicate 26 0)) }

/-- The listed bytes of consecutive words from word address a. -/
def cells (a : Nat) : List Word → Memory
  | [] => []
  | w :: ws => (4 * a, lane w 0) :: (4 * a + 1, lane w 1) :: (4 * a + 2, lane w 2) :: (4 * a + 3, lane w 3) :: cells (a + 1) ws

/-- Three descriptors MD0 to MD2, the others 0, and a memory; 1024 words. -/
def small (d0 d1 d2 : Desc) (m : Memory) : State :=
  { State.powerOnWith (testCfg 1024) with
    md := #v[d0, d1, d2, Desc.zero, Desc.zero, Desc.zero, Desc.zero, Desc.zero], mm := m }

/-- STATUS, ERRINFO and some words of MM after one step. -/
def seen (o : Host.Outcome State Fault Refusal) (as : List Nat) : Option (Word × Word × List Word) :=
  match o with
  | .next t => some (t.statusWord, t.errinfo, as.map t.readWord)
  | .fault _ | .refused _ => none

/-- The response data and STATUS after a run of host accesses from reset. -/
def afterRun (inputs : List Input) : Option (Option Response × Word × Word) :=
  match Host.Core.run Sys2Proof.core inputs.length { State.powerOnWith (testCfg 1024) with inputs := inputs } with
  | .next t => some (t.resp, t.statusWord, t.maddr)
  | .fault _ | .refused _ => none

/-! WellFormed refuses an ill-formed command (30_encoding.md R102) -/

theorem test_perm_reserved_is_ill_formed : Instr.wellFormed (.perm 0 false ⟨0, 1, true⟩) = false := by decide
theorem test_asmh_reserved_is_ill_formed : Instr.wellFormed (.asmh 0 ⟨2, 0, true⟩) = false := by decide
theorem test_perm_word_bit18_is_ill_formed : (decodePermParam 0x00040100).reserved = true := by decide

/-! Decoding, words of 95_test_vectors.md V2 (DEC-1 to DEC-17) and 30_encoding.md R107 -/

theorem test_decode_nop : decode 0x00000000 0 = .ok .nop := by decide
theorem test_decode_perm : decode 0x01000001 0x00000100 = .ok (.perm 0 true ⟨0, 1, false⟩) := by decide
theorem test_decode_asmh : decode 0x00000002 0x00020000 = .ok (.asmh 0 ⟨0, 2, false⟩) := by decide
theorem test_decode_inv : decode 0x00301203 0 = .ok (.inv 2 1 3) := by decide
theorem test_decode_mul : decode 0x03032104 0 = .ok (.mul 1 2 3 true true) := by decide
theorem test_decode_zero : decode 0x00007705 0 = .ok (.zero 7) := by decide
theorem test_decode_ident : decode 0x01000006 0 = .ok (.ident 0 true) := by decide
theorem test_decode_copy : decode 0x02007407 0 = .ok (.copy 4 7 true) := by decide
theorem test_decode_add : decode 0x00770708 0 = .ok (.add 7 0 7) := by decide
theorem test_decode_refuses_flags :
    [0x01000000, 0x02000001, 0x01007407, 0x02000006, 0x01200103, 0x01000002].map (fun w : Word => (decode w 0).toOption) =
      List.replicate 6 none := by decide
theorem test_decode_refuses_reserved_bits :
    [0x03032904, 0x80000005, 0x04000004, 0x00008005, 0x00080005, 0x00800005].map (fun w : Word => decode w 0) =
      List.replicate 6 (.error .reservedBit) := by decide
theorem test_decode_refuses_opcodes :
    [0x00000009, 0x000000FF].map (fun w : Word => decode w 0) = List.replicate 2 (.error .unassignedOpcode) := by decide

/-- 30_encoding.md R105, R107: written forms and their words. -/
theorem test_command_text :
    commandText (.perm 0 true ⟨0, 1, false⟩) = some "PERM.X MD0, M=128, k=1" ∧
    commandText (.mul 1 2 3 true true) = some "MUL.T.X MD1, MD2, MD3" ∧
    commandText (.asmh 0 ⟨2, 0, false⟩) = some "ASMH MD0, M=512, R=1/2" ∧
    commandText (.asmh 0 ⟨2, 0, true⟩) = none := by decide +kernel

/-- 30_encoding.md R106: SETD, ISSUE and ACK as accesses. -/
theorem test_host_program :
    setDescriptor 1 4 3 3 1 = [.write .w32 0x110 4, .write .w32 0x114 3, .write .w32 0x118 3, .write .w32 0x11C 1] ∧
    issueCommand (.inv 1 0 2) false = [.write .w32 0x010 0x00200103, .write .w32 0x014 0, .write .w32 0x008 1] ∧
    acknowledge = [.write .w32 0x00C 0x1A] := by decide

/-! Commands, vectors of 95_test_vectors.md -/

/-- INV-1: the worked inverse; D's words were 0. -/
theorem test_inv_1 :
    seen (step ((small ⟨0, 3, 3, 1⟩ ⟨4, 3, 3, 1⟩ ⟨8, 3, 3, 1⟩ (cells 0 [3, 6, 7, 0, 0, 0, 0])).issue 0x00200103 0))
      [0, 1, 2, 4, 5, 6] = some (2, 0, [3, 6, 7, 6, 7, 5]) := by decide +kernel
/-- INV-8: SINGULAR(2). -/
theorem test_inv_8 :
    seen (step ((small ⟨0, 3, 3, 1⟩ ⟨4, 3, 3, 1⟩ ⟨8, 3, 3, 1⟩ (cells 0 [3, 6, 5])).issue 0x00200103 0)) [0, 1, 2] =
      some (0x606, 2, [3, 6, 5]) := by decide +kernel
/-- MUL-4: transposed and accumulated. -/
theorem test_mul_4 :
    seen (step ((small ⟨0, 2, 3, 1⟩ ⟨2, 3, 2, 1⟩ ⟨8, 2, 2, 1⟩ (cells 0 [5, 6, 3, 2, 0] ++ cells 8 [1, 0])).issue
      0x03010204 0)) [8, 9] = some (2, 0, [0, 3]) := by decide +kernel
/-- MUL-14: bits outside the elements stay. -/
theorem test_mul_14 :
    seen (step ((small ⟨0, 2, 3, 1⟩ ⟨2, 3, 2, 1⟩ ⟨8, 2, 2, 1⟩ (cells 0 [5, 6, 3, 2, 0] ++
      cells 8 [0xFFFFFFF0, 0xFFFFFFF0])).issue 0x00010204 0)) [8, 9] = some (2, 0, [0xFFFFFFF3, 0xFFFFFFF2]) := by decide +kernel
/-- UT-4: two words a row. -/
theorem test_zero_ut4 :
    seen (step ((small ⟨0, 2, 40, 2⟩ Desc.zero Desc.zero
      (cells 0 [0xFFFFFFFF, 0xFFFFFFFF, 0xFFFFFFFF, 0xFFFFFFFF])).issue 0x00000005 0)) [0, 1, 2, 3] =
      some (2, 0, [0, 0xFFFFFF00, 0, 0xFFFFFF00]) := by decide +kernel
/-- UT-5 and UT-7. -/
theorem test_ident_ut5 :
    seen (step ((small ⟨0, 3, 3, 1⟩ Desc.zero Desc.zero (cells 0 [0, 0, 0])).issue 0x00000006 0)) [0, 1, 2] =
      some (2, 0, [1, 2, 4]) := by decide +kernel
theorem test_ident_ut7 :
    seen (step ((small ⟨0, 3, 4, 1⟩ Desc.zero Desc.zero (cells 0 [0, 0, 0])).issue 0x00000006 0)) [0, 1, 2] =
      some (0x406, 0, [0, 0, 0]) := by decide +kernel
/-- UT-9: transposed copy; UT-12: overlap. -/
theorem test_copy_ut9 :
    seen (step ((small ⟨0, 2, 3, 1⟩ ⟨4, 3, 2, 1⟩ Desc.zero (cells 0 [3, 4] ++ cells 4 [0, 0, 0])).issue 0x02000107 0))
      [4, 5, 6] = some (2, 0, [1, 1, 2]) := by decide +kernel
theorem test_copy_ut12 :
    seen (step ((small ⟨0, 3, 3, 1⟩ ⟨1, 3, 3, 1⟩ Desc.zero (cells 0 [3, 4, 5, 6])).issue 0x00000107 0)) [0, 1, 2, 3] =
      some (0x506, 0, [3, 4, 5, 6]) := by decide +kernel
/-- UT-15: the sum. UT-16: in place. -/
theorem test_add_ut15 :
    seen (step ((small ⟨0, 1, 4, 1⟩ ⟨1, 1, 4, 1⟩ ⟨2, 1, 4, 1⟩ (cells 0 [0xB, 0xE, 0])).issue 0x00010208 0)) [0, 1, 2] =
      some (2, 0, [0xB, 0xE, 5]) := by decide +kernel
theorem test_add_ut16 :
    seen (step ((small ⟨0, 1, 4, 1⟩ ⟨1, 1, 4, 1⟩ ⟨2, 1, 4, 1⟩ (cells 0 [0xB, 0xE, 0])).issue 0x00010008 0)) [0, 1, 2] =
      some (2, 0, [5, 0xE, 0]) := by decide +kernel
/-- UT-1: NOP needs no descriptor. -/
theorem test_nop_ut1 : seen (step (State.reset.issue 0x00000000 0)) [] = some (2, 0, []) := by decide
/-- PERM-1, PERM-2: rows 0, 30 and 31 of Π_1 at M = 128. -/
theorem test_perm_1 :
    seen (step ((small ⟨0, 128, 128, 4⟩ Desc.zero Desc.zero []).issue 0x00000001 0x00000100))
      [0, 1, 2, 3, 123, 124, 127] = some (2, 0, [0, 0, 0, 2, 0x80000000, 0, 1]) := by decide +kernel
/-- PERM-10: BAD_DESC(0). -/
theorem test_perm_10 :
    seen (step ((small ⟨0, 128, 128, 3⟩ Desc.zero Desc.zero []).issue 0x00000001 0x00000100)) [] = some (0x306, 0, []) := by
  decide +kernel
/-- ASMH-2: the source's shape is refused. ASMH-1: the columns of row 31. -/
theorem test_asmh_2 :
    seen (step (({ small ⟨0, 1536, 2048, 64⟩ Desc.zero Desc.zero [] with cfg := testCfg 200000 } : State).issue
      0x00000002 0x00000002)) [] = some (0x406, 0, []) := by decide +kernel
theorem test_asmh_1 :
    (List.range 1408).filter (hElement (testCfg 1024) 2 0 31) = [1055, 1311, 1376] := by decide +kernel
/-- VO-3: role A before role B. -/
theorem test_vo_3 :
    seen (step ((small ⟨0, 1, 1, 1⟩ Desc.zero Desc.zero []).issue 0x00065004 0)) [] = some (0x306, 5, []) := by decide +kernel
/-- UT-2: BAD_OPCODE. -/
theorem test_bad_opcode : seen (step (State.reset.issue 0x01000000 0)) [] = some (0x106, 0, []) := by decide

/-! Host accesses, vectors of 95_test_vectors.md V1 and V9 -/

/-- HI-5: a written word read back, with both post-increments. -/
theorem test_hi_5 :
    afterRun [.write .w32 0x020 5, .write .w32 0x024 0xDEADBEEF, .write .w32 0x020 5, .read .w32 0x024] =
      some (some ⟨some 0xDEADBEEF, false⟩, 0, 6) := by decide +kernel
/-- HI-6: a write outside MM. -/
theorem test_hi_6 : afterRun [.write .w32 0x020 1024, .write .w32 0x024 1] = some (some ⟨none, false⟩, 0x10, 1025) := by
  decide +kernel
/-- HI-7: MADDR wraps. -/
theorem test_hi_7 :
    afterRun [.write .w32 0x020 0xFFFFFFFF, .read .w32 0x024] = some (some ⟨some 0, false⟩, 0x10, 0) := by decide +kernel
/-- HI-8: an 8-bit read has no effect. -/
theorem test_hi_8 :
    afterRun [.write .w32 0x020 5, .read .w8 0x024] = some (some ⟨some 0, true⟩, 0, 5) := by decide +kernel
/-- HI-10, HI-11: a refused descriptor write while busy, then completion. -/
theorem test_hi_10 :
    afterRun [.write .w32 0x008 1, .write .w32 0x104 7, .read .w32 0x104] = some (some ⟨some 0, false⟩, 9, 0) := by decide +kernel
theorem test_hi_11 :
    afterRun [.write .w32 0x008 1, .write .w32 0x104 7, .complete, .read .w32 0x00C] =
      some (some ⟨some 0xA, false⟩, 0xA, 0) := by decide +kernel
/-- RS-3, RS-4: SRST while busy, and SRST with START. -/
theorem test_rs_3 : afterRun [.write .w32 0x008 1, .write .w32 0x008 2] = some (some ⟨none, false⟩, 0, 0) := by decide +kernel
theorem test_rs_4 : afterRun [.write .w32 0x010 5, .write .w32 0x008 3] = some (some ⟨none, false⟩, 0, 0) := by decide +kernel

/-! Witnesses: a state and operands that meet the hypotheses of each statement that has some -/

/-- INV-1's state, idle, before the command is issued. -/
def invState : State := small ⟨0, 3, 3, 1⟩ ⟨4, 3, 3, 1⟩ ⟨8, 3, 3, 1⟩ (cells 0 [3, 6, 7])
/-- INV-8's state: the last row is the sum of the rows before it. -/
def singularState : State := small ⟨0, 3, 3, 1⟩ ⟨4, 3, 3, 1⟩ ⟨8, 3, 3, 1⟩ (cells 0 [3, 6, 5])
/-- MUL-1's state. -/
def mulState : State := small ⟨0, 2, 3, 1⟩ ⟨2, 3, 2, 1⟩ ⟨8, 2, 2, 1⟩ (cells 0 [5, 6, 3, 2, 0] ++ cells 8 [0, 0])
/-- UT-15's state. -/
def addState : State := small ⟨0, 1, 4, 1⟩ ⟨1, 1, 4, 1⟩ ⟨2, 1, 4, 1⟩ (cells 0 [0xB, 0xE, 0])
/-- UT-9's state. -/
def copyState : State := small ⟨0, 2, 3, 1⟩ ⟨4, 3, 2, 1⟩ Desc.zero (cells 0 [3, 4])
/-- An M = 128 square at MD0. -/
def permState : State := small ⟨0, 128, 128, 4⟩ Desc.zero Desc.zero []
/-- ASMH-1's descriptor. -/
def asmhState : State := { small ⟨0, 384, 1408, 44⟩ Desc.zero Desc.zero [] with cfg := testCfg 16896 }
/-- A busy engine: INV-1 started, nothing arriving. -/
def busyState : State := { invState with cmd := 0x00200103 }.start
/-- A busy engine with a word that does not decode (DEC-3). -/
def badWordState : State := { invState with cmd := 0x00000009 }.start

/-- SoftResetClearsRegistersAndKeepsMemoryOutsideWriteSet: an idle engine, a running command, and a running word that does
not decode. -/
theorem test_witness_soft_reset : BitVec.getLsbD (2 : Word) 1 = true ∧
    (Memory.wf 1024 invState.mm ∧ invState.eng = .idle) ∧
    (Memory.wf 1024 busyState.mm ∧ busyState.eng = .busy ⟨0x00200103, 0, invState.md⟩ ∧ decode 0x00200103 0 = .ok (.inv 1 0 2)) ∧
    (Memory.wf 1024 badWordState.mm ∧ badWordState.eng = .busy ⟨0x00000009, 0, invState.md⟩ ∧
      decode 0x00000009 0 = .error .unassignedOpcode) := by
  refine ⟨by decide, ⟨by decide +kernel, rfl⟩, ⟨by decide +kernel, rfl, by decide⟩, by decide +kernel, rfl, by decide⟩

/-- The parameter hypotheses (ResetMeetsTheInvariant, FirstPermutationHasTheWorkedColumns, FirstBlockRowHasWeightThree,
AssembledRowsHaveTheWorkedColumns). -/
theorem test_witness_params : (testCfg 1).inRange ∧ (testCfg 1024).inRange ∧ (testCfg (2 ^ 31)).inRange ∧
    (testCfg 1024).sourced ∧ (testCfg 1024).theta.getD 0 0 = 3 := by decide +kernel

/-- EveryStepKeepsTheInvariant and CommandsReadOnlyTheSnapshot, from a busy engine. -/
theorem test_witness_inv_busy : busyState.Inv := by
  refine ⟨by decide +kernel, by decide +kernel, by decide +kernel, rfl, ?_, by decide⟩
  intro snap h; cases h; exact ⟨rfl, rfl, rfl, rfl⟩

/-! Canonical memory and ChecksPass, for every command and flag -/

/-- The hypotheses of a statement about a command: a canonical memory and passing checks. -/
def Ready (s : State) (i : Instr) : Prop := Memory.wf s.cfg.mmemWords s.mm ∧ ChecksPass s i

theorem ready_of {s : State} {i : Instr} (h : Memory.wf s.cfg.mmemWords s.mm) (h' : validationOf s i = none) : Ready s i :=
  ⟨h, (validationOf_eq_none s i).mp h'⟩

/-- NopCompletes, FirstFailingCheckIsReported's last clause. -/
theorem test_witness_nop : Ready State.reset .nop := ready_of (by decide +kernel) (by decide +kernel)
/-- PermWritesThePermutation. -/
theorem test_witness_perm : Ready permState (.perm 0 false ⟨0, 1, false⟩) ∧ Ready permState (.perm 0 true ⟨0, 26, false⟩) :=
  ⟨ready_of (by decide +kernel) (by decide +kernel), ready_of (by decide +kernel) (by decide +kernel)⟩
/-- AsmhWritesTheParityCheckMatrix. -/
theorem test_witness_asmh : Ready asmhState (.asmh 0 ⟨0, 2, false⟩) := ready_of (by decide +kernel) (by decide +kernel)
/-- MulWritesTheProduct. -/
theorem test_witness_mul : Ready mulState (.mul 2 0 1 false false) ∧ Ready mulState (.mul 2 0 1 true true) :=
  ⟨ready_of (by decide +kernel) (by decide +kernel), ready_of (by decide +kernel) (by decide +kernel)⟩
/-- ZeroClearsTheMatrix. -/
theorem test_witness_zero : Ready invState (.zero 0) := ready_of (by decide +kernel) (by decide +kernel)
/-- IdentWritesTheIdentity. -/
theorem test_witness_ident : Ready invState (.ident 0 false) ∧ Ready invState (.ident 0 true) :=
  ⟨ready_of (by decide +kernel) (by decide +kernel), ready_of (by decide +kernel) (by decide +kernel)⟩
/-- CopyWritesTheSource, onto another and onto an identical descriptor. -/
theorem test_witness_copy : Ready copyState (.copy 1 0 true) ∧ Ready copyState (.copy 0 0 false) ∧ copyState.Identical 0 0 :=
  ⟨ready_of (by decide +kernel) (by decide +kernel), ready_of (by decide +kernel) (by decide +kernel), rfl⟩
/-- AddWritesTheSum, also in place. -/
theorem test_witness_add : Ready addState (.add 2 0 1) ∧ Ready addState (.add 0 0 1) :=
  ⟨ready_of (by decide +kernel) (by decide +kernel), ready_of (by decide +kernel) (by decide +kernel)⟩

/-- AccumulatingTwiceRestoresMemory, for PERM, IDENT and MUL. -/
theorem test_witness_accumulating :
    (permState.Inv ∧ ChecksPass permState (.perm 0 true ⟨0, 26, false⟩)) ∧
    (invState.Inv ∧ ChecksPass invState (.ident 0 true)) ∧ (mulState.Inv ∧ ChecksPass mulState (.mul 2 0 1 true true)) := by
  refine ⟨⟨?_, test_witness_perm.2.2⟩, ⟨?_, test_witness_ident.2.2⟩, ⟨?_, test_witness_mul.2.2⟩⟩
  all_goals
    refine ⟨by decide +kernel, by decide +kernel, by decide +kernel, rfl, ?_, by decide⟩
    intro _ h; cases h

/-- InvWritesTheInverse: the worked inverse of INV-1. -/
theorem test_witness_inverse : Ready invState (.inv 1 0 2) ∧
    IsInverse (invState.rowsOf 0) (fun r c => Nat.testBit (List.getD [6, 7, 5] r 0) c) (invState.bit (invState.operand 0)) := by
  refine ⟨ready_of (by decide +kernel) (by decide +kernel), ?_⟩
  show ∀ i < 3, ∀ j < 3, _ = _
  decide +kernel

/-- InvReportsTheFirstDependentRow at the last row, INV-8. -/
theorem test_witness_dependent : Ready singularState (.inv 1 0 2) ∧
    RowDependent (singularState.rowsOf 0) (singularState.bit (singularState.operand 0)) 2 ∧
    ∀ t < 2, ¬ RowDependent (singularState.rowsOf 0) (singularState.bit (singularState.operand 0)) t := by
  refine ⟨ready_of (by decide +kernel) (by decide +kernel), ⟨fun _ => true, ?_⟩, ?_⟩
  · show ∀ c < 3, _ = _
    decide +kernel
  · rintro t ht ⟨e, he⟩
    have b00 : singularState.bit (singularState.operand 0) 0 0 = true := by decide +kernel
    have b10 : singularState.bit (singularState.operand 0) 1 0 = false := by decide +kernel
    have b11 : singularState.bit (singularState.operand 0) 1 1 = true := by decide +kernel
    have h0 := he 0 (by decide)
    rcases (show t = 0 ∨ t = 1 by omega) with rfl | rfl
    · rw [b00] at h0; simp [xorSum] at h0
    · have h1 := he 1 (by decide)
      rw [b10] at h0; rw [b11] at h1
      simp only [xorSum, b00] at h0 h1
      cases h2 : e 0 <;> simp [h2] at h0 h1

/-! The checks that fail (FirstFailingCheckIsReported and the errors of PERM and ASMH) -/

theorem test_witness_param_fails : ¬ ParamPasses (.perm 0 false ⟨0, 0, false⟩) ∧ ¬ ParamPasses (.perm 0 false ⟨0, 27, false⟩) ∧
    ¬ ParamPasses (.perm 0 false ⟨7, 1, false⟩) ∧ ¬ ParamPasses (.asmh 0 ⟨0, 0, false⟩) ∧
    ¬ ParamPasses (.asmh 0 ⟨2, 3, false⟩) := by
  simp only [ParamPasses]; decide
theorem test_witness_desc_fails : ParamPasses (.mul 0 5 6 false false) ∧
    rolesUsed (.mul 0 5 6 false false) = [0] ++ 5 :: [6] ∧ (∀ j ∈ [(0 : DescIx)], invState.OperandValid j) ∧
    ¬ invState.OperandValid 5 := by
  simp only [ParamPasses, State.OperandValid]; decide +kernel
theorem test_witness_shape_fails : (∀ k ∈ rolesUsed (.mul 0 1 0 false false), mulState.OperandValid k) ∧
    ¬ ShapePasses mulState (.mul 0 1 0 false false) := by
  simp only [ShapePasses, State.OperandValid]; decide +kernel
theorem test_witness_overlap_fails : (∀ k ∈ rolesUsed (.inv 0 0 2), invState.OperandValid k) ∧
    ShapePasses invState (.inv 0 0 2) ∧ OverlapFails invState (.inv 0 0 2) := by
  simp only [ShapePasses, State.OperandValid, OverlapFails, State.Overlap]; decide +kernel
theorem test_witness_ill_formed : Instr.wellFormed (.perm 0 false (decodePermParam 0x00000108)) = false := by decide

/-- UnassignedOpcodesRaiseBadOpcode and DecodingFollowsTheOpcodeTable at the first reserved opcode. -/
theorem test_witness_bad_word : badWordState.eng = .busy ⟨0x00000009, 0, invState.md⟩ ∧
    9 ≤ ((0x00000009 : Word).extractLsb' 0 8).toNat ∧ decode 0x00000009 0 = .error .unassignedOpcode ∧
    [Opcode.nop, .perm, .asmh, .inv, .mul, .zero, .ident, .copy, .add].all (fun o =>
      decide (0x00000009 &&& (opcodeRow o).1 ≠ (opcodeRow o).2)) = true := by
  refine ⟨rfl, ?_, ?_, ?_⟩ <;> decide

/-- UnreadFieldsAreIgnored: DEC-11 with and without its unread S field, PERM with an unread RATE, ASMH with an unread KIDX. -/
theorem test_witness_unread : decode 0x00770708 0 = decode 0x00070708 0xFFFFFFFF ∧ decode 0x00070708 0 = .ok (.add 7 0 7) ∧
    decode 0x00000001 0x00030100 = .ok (.perm 0 false ⟨0, 1, false⟩) ∧
    decode 0x00000002 0x00021F00 = .ok (.asmh 0 ⟨0, 2, false⟩) := by
  decide

/-- ValidationFailureChangesNothingElse and CommandsWriteOnlyTheirWriteSet. -/
theorem test_witness_failed_turn : badWordState.busy = true ∧
    ∃ t, badWordState.engineTurn = .next t ∧ t.errcode = .badOpcode := ⟨rfl, _, rfl, rfl⟩
theorem test_witness_finished : Memory.wf invState.cfg.mmemWords invState.mm ∧
    ∃ t, exec (.zero 0) invState = .next t ∧ t.errcode = .none := ⟨by decide +kernel, _, rfl, rfl⟩

/-! Host accesses -/

/-- Accesses that are refused by width or alignment, and one that is not (R120). -/
theorem test_witness_access : accessOk .w16 0x000 = false ∧ accessOk .w8 0x024 = false ∧ accessOk .w32 0x102 = false ∧
    accessOk .w32 0xFFC = true := by decide
/-- Read-only and reserved offsets at the ends of their ranges (R23, R34). -/
theorem test_witness_offsets : [0x01C, 0x02C, 0x0FC, 0x180, 0xFFC].map (fun o : BitVec 12 => regAt o) =
      List.replicate 5 .reserved ∧ regAt 0x100 = .base 0 ∧ regAt 0x17C = .stride 7 := by decide +kernel
/-- The busy and the idle engine, with the CTRL values of ControlWriteResetsEnablesOrStarts and StartLatchesTheCommand. -/
theorem test_witness_engine : busyState.eng = .busy ⟨0x00200103, 0, invState.md⟩ ∧ invState.eng = .idle ∧
    decode 0x00200103 0 = .ok (.inv 1 0 2) ∧ Reg.locked (regAt 0x104) = true ∧
    BitVec.getLsbD (2 : Word) 1 = true ∧ BitVec.getLsbD (4 : Word) 1 = false ∧ BitVec.getLsbD (4 : Word) 0 = false ∧
    BitVec.getLsbD (1 : Word) 0 = true ∧ BitVec.getLsbD (1 : Word) 1 = false := by
  refine ⟨rfl, rfl, ?_⟩; decide
/-- A refused START with bit 2 set changes OVR and not IRQEN (R126; log 15); the same bit with START = 0 is taken (R126). -/
theorem test_refused_start :
    (busyState.writeReg 5 .ctrl).irqen = false ∧ (busyState.writeReg 5 .ctrl).ovr = true ∧
    (busyState.writeReg 4 .ctrl).irqen = true := by decide +kernel
/-- MADDR at the last word of MM and just outside it (R127, R128). -/
theorem test_witness_window : ({ invState with maddr := 1023 } : State).maddr.toNat < invState.cfg.mmemWords ∧
    invState.cfg.mmemWords ≤ ({ invState with maddr := 1024 } : State).maddr.toNat := by decide

/-! The whole machine: for each clause a step that meets its hypotheses -/

/-- Every kind of step is taken, so the statements about a step have cases of each (EveryStepKeepsTheInvariant,
TablesNeverChange, StepTakesInputsInOrder, PowerOnResetsAtAnyTime). -/
theorem test_witness_steps :
    (∃ t, step busyState = .next t ∧ busyState.done = false ∧ t.done = true) ∧
    (∃ t, step { invState with inputs := [.write .w32 0x008 1] } = .next t ∧ invState.busy = false ∧ t.busy = true) ∧
    (∃ t, step { busyState with inputs := [.read .w32 0x024] } = .next t ∧ busyState.ovr = false ∧ t.ovr = true) ∧
    (∃ t, step { busyState with inputs := [.write .w32 0x104 7] } = .next t ∧ t.ovr = true) ∧
    (∃ t, step { busyState with inputs := [.write .w32 0x008 1] } = .next t ∧ t.ovr = true) ∧
    (∃ t, step { invState with maddr := 1024, inputs := [.read .w32 0x024] } = .next t ∧ invState.aerr = false ∧ t.aerr = true) ∧
    (∃ t, step { invState with aerr := true, inputs := [.write .w32 0x00C 0x10] } = .next t ∧ t.aerr = false) ∧
    (∃ t, step { invState with inputs := [.powerOn] } = .next t ∧ t.mm ≠ invState.mm) :=
  ⟨⟨_, rfl, rfl, rfl⟩, ⟨_, rfl, rfl, rfl⟩, ⟨_, rfl, rfl, rfl⟩, ⟨_, rfl, rfl⟩, ⟨_, rfl, rfl⟩, ⟨_, rfl, rfl, rfl⟩, ⟨_, rfl, rfl⟩,
    ⟨_, rfl, by decide +kernel⟩⟩

/-- MemoryChangesOnlyAsStated: MM changes by an MDATA write and by a command, and its unlisted words by power-on reset. -/
theorem test_witness_memory_changes :
    (∃ t, step { State.reset with inputs := [.powerOn] } = .next t ∧ t.powerDraw ≠ State.reset.powerDraw) ∧
    (∃ t, step { invState with maddr := 1023, inputs := [.write .w32 0x024 1] } = .next t ∧ t.mm ≠ invState.mm) ∧
    (∃ t, step { addState with cmd := 0x00010208 }.start = .next t ∧ t.mm ≠ addState.mm) :=
  ⟨⟨_, rfl, by decide⟩, ⟨_, rfl, by decide +kernel⟩, ⟨_, rfl, by decide +kernel⟩⟩

/-- InterruptRisesOnlyAsStated: irq rises with a completion and with a CTRL write (HI-14). -/
theorem test_witness_irq :
    (∃ t, step { busyState with irqen := true } = .next t ∧ ({ busyState with irqen := true } : State).irq = false ∧
      t.irq = true) ∧
    (∃ t, step { invState with done := true, inputs := [.write .w32 0x008 4] } = .next t ∧ t.irq = true) :=
  ⟨⟨_, rfl, rfl, rfl⟩, ⟨_, rfl, rfl⟩⟩

/-- StepRunsTheDecodedCommand: opcode-table words that decode. -/
theorem test_witness_table_word : decodeTableWord 32 0x00000002 = some (.asmh 0 ⟨0, 0, false⟩) ∧
    decodeTableWord 64 0x0000010000000001 = some (.perm 0 false ⟨0, 1, false⟩) := by decide

/-- ResultsIgnoreBitsOutsideSources: INV-1's state with other bits outside the elements of A. -/
theorem test_witness_same_sources : Memory.wf 1024 (cells 0 [0xFFFFFFFB, 6, 0xF7, 1, 2]) ∧
    ∀ r < 3, ∀ c < 3, ({ invState with mm := cells 0 [0xFFFFFFFB, 6, 0xF7, 1, 2], powerDraw := 1 } : State).bit
      (invState.operand 0) r c = invState.bit (invState.operand 0) r c := by decide +kernel

/-! Descriptors and geometry -/

/-- DescriptorValidityIsExact (VO-7 to VO-13), SpansCoverElementsAndDecideOverlap at the last element, and a block column
that is a multiple of 32. -/
theorem test_witness_descriptors : Desc.valid 1024 ⟨1000, 3, 40, 2⟩ = true ∧ Desc.valid 1024 ⟨1023, 1, 32, 1⟩ = true ∧
    Desc.valid 1024 ⟨1023, 1, 33, 2⟩ = false ∧ Desc.valid 1024 ⟨0, 1, 1, 0⟩ = false ∧
    Desc.valid 1024 ⟨0xFFFFFFFF, 1, 1, 1⟩ = false ∧ Desc.valid (2 ^ 31) ⟨0, 0x00FFFFFF, 1, 1⟩ = true ∧
    (Desc.addr ⟨1000, 3, 40, 2⟩ 2 39 = 1005 ∧ Desc.spanEnd ⟨1000, 3, 40, 2⟩ = 1006) ∧
    Desc.block ⟨0, 1536, 2560, 80⟩ 0 1024 1536 1536 = ⟨32, 1536, 1536, 80⟩ ∧
    Desc.parityBlock ⟨0, 1536, 2560, 80⟩ 2 512 = ⟨32, 1536, 1536, 80⟩ := by decide

/-- The rates FirstBlockRowHasWeightThree speaks of. -/
theorem test_witness_rates : bigK 0 = some 2 ∧ bigK 1 = some 4 ∧ bigK 2 = some 8 ∧ bigK 3 = none := by decide

end Sys2Proof.Tests
end

section
/-! What a step does with each form of the list of inputs (log 1), and the statements of 00_scope.md. -/

namespace Sys2Proof.Machine

/-- When nothing arrives any more, the step is the engine's turn (70_reset_and_hazards.md R312). -/
theorem step_of_inputs_nil {s : State} (h : s.inputs = []) : step s = s.engineTurn := by
  rw [step, h]

/-- An input that arrives is taken off the list, and the step is what that input does. -/
theorem step_of_inputs_cons {s : State} {i : Input} {rest : List Input} (h : s.inputs = i :: rest) :
    step s = ({ s with inputs := rest } : State).handle i := by
  rw [step, h]

section
variable (s : State) (w : Width) (off : BitVec 12) (v : Word)

@[simp] theorem State.handle_read : s.handle (.read w off) = .next (s.busRead w off) := rfl
@[simp] theorem State.handle_write : s.handle (.write w off v) = .next (s.busWrite w off v) := rfl
@[simp] theorem State.handle_complete : s.handle .complete = s.engineTurn := rfl
@[simp] theorem State.handle_powerOn : s.handle .powerOn = .next s.powerOnReset := rfl

end

theorem State.busy_of_idle {s : State} (h : s.eng = .idle) : s.busy = false := by
  rw [State.busy, h]

/-- Settles O49: the head of the list decides the step, and an idle engine's turn does nothing. -/
theorem stepTakesInputsInOrder : Obligations.StepTakesInputsInOrder := by
  refine ⟨?read, ?write, ?nothing, ?completion, ?idle⟩
  case read => intro s w off rest h; rw [step_of_inputs_cons h, State.handle_read]
  case write => intro s w off v rest h; rw [step_of_inputs_cons h, State.handle_write]
  case nothing => intro s h; exact step_of_inputs_nil h
  case completion => intro s rest h; rw [step_of_inputs_cons h, State.handle_complete]
  case idle => intro s h; exact engineTurn_idle (State.busy_of_idle h)

/-- Settles O27: row by row, each of the four formulas of 00_scope.md R10 gives the entry of its column. -/
theorem geometryTableHolds : Obligations.GeometryTableHolds := by
  intro row hrow
  fin_cases hrow
  all_goals exact ⟨rfl, rfl, rfl, rfl⟩

end Sys2Proof.Machine
end

section
/-! What one input can do to the state (40_host_interface.md R120 to R131), said once, and the statements of 10_state.md. -/

namespace Sys2Proof.Machine

/-! Soft reset (70_reset_and_hazards.md R302) -/

/-- A soft reset is the register reset, with MM and the draw counter as the aborted command left them. -/
theorem State.softReset_eq (s : State) :
    s.softReset = { s.resetRegisters with mm := s.softReset.mm, draws := s.softReset.draws } := by
  cases h : s.eng with
  | idle => simp [State.softReset, h, State.resetRegisters]
  | busy snap => simp [State.softReset, h, State.resetRegisters]

section
variable (s : State)

@[simp] theorem State.softReset_irqen : s.softReset.irqen = false := by rw [State.softReset_eq]; rfl
@[simp] theorem State.softReset_done : s.softReset.done = false := by rw [State.softReset_eq]; rfl
@[simp] theorem State.softReset_ovr : s.softReset.ovr = false := by rw [State.softReset_eq]; rfl
@[simp] theorem State.softReset_aerr : s.softReset.aerr = false := by rw [State.softReset_eq]; rfl
@[simp] theorem State.softReset_errcode : s.softReset.errcode = .none := by rw [State.softReset_eq]; rfl
@[simp] theorem State.softReset_errinfo : s.softReset.errinfo = 0 := by rw [State.softReset_eq]; rfl
@[simp] theorem State.softReset_cfg : s.softReset.cfg = s.cfg := by rw [State.softReset_eq]; rfl
@[simp] theorem State.softReset_eng : s.softReset.eng = .idle := by rw [State.softReset_eq]; rfl
@[simp] theorem State.softReset_powerDraw : s.softReset.powerDraw = s.powerDraw := by rw [State.softReset_eq]; rfl

end

theorem State.draws_le_softReset (s : State) : s.draws ≤ s.softReset.draws := by
  rw [State.softReset]
  cases s.eng with
  | idle => exact le_refl _
  | busy snap => simp

/-- A soft reset keeps the canonical form of MM. -/
theorem State.softReset_wf {s : State} (h : Memory.wf s.cfg.mmemWords s.mm) :
    Memory.wf s.cfg.mmemWords s.softReset.mm := by
  rw [State.softReset]
  cases s.eng with
  | idle => exact h
  | busy snap => exact State.scramble_wf s _ h

/-! The registers a completion keeps, one by one (R131) -/

section
variable {s t : State} (h : RegistersKept s t)
include h

theorem RegistersKept.irqen_eq : t.irqen = s.irqen := by obtain ⟨hirqen, _⟩ := h; exact hirqen
theorem RegistersKept.ovr_eq : t.ovr = s.ovr := by obtain ⟨_, hovr, _⟩ := h; exact hovr
theorem RegistersKept.aerr_eq : t.aerr = s.aerr := by obtain ⟨_, _, haerr, _⟩ := h; exact haerr
theorem RegistersKept.cfg_eq : t.cfg = s.cfg := by obtain ⟨_, _, _, _, _, _, _, hcfg, _⟩ := h; exact hcfg
theorem RegistersKept.powerDraw_eq : t.powerDraw = s.powerDraw := by
  obtain ⟨_, _, _, _, _, _, _, _, _, _, hdraw⟩ := h
  exact hdraw

end

/-! What one input can do -/

/-- The accesses the busy lock refuses: an MDATA read, a write of a locked register, and a START without SRST (R126). -/
def Input.Refusable (a : Input) : Prop :=
  a = .read .w32 0x024 ∨ (∃ off v, a = .write .w32 off v ∧ off.toNat % 4 = 0 ∧
    ((regAt off).locked = true ∨ (off = 0x008 ∧ v.getLsbD 0 = true ∧ v.getLsbD 1 = false)))

/-- Everything an input can do to a state, the response of an access left open (R120 to R131; 70_reset_and_hazards.md R300,
R302). -/
inductive InputEffect (s : State) : Input → State → Prop where
  /-- Nothing but the response changes. -/
  | quiet (i : Input) (r : Option Response) : InputEffect s i { s with resp := r }
  /-- The turn of a busy engine (R131). -/
  | completed (t : State) (busy : s.busy = true) (kept : RegistersKept s t) (idle : t.eng = .idle) (done : t.done = true)
      (info : t.errcode.infoOk t.errinfo) (draws : s.draws ≤ t.draws)
      (wf : Memory.wf s.cfg.mmemWords s.mm → Memory.wf t.cfg.mmemWords t.mm) : InputEffect s .complete t
  /-- An access the busy lock refuses (R126). -/
  | refused (i : Input) (r : Option Response) (busy : s.busy = true) (refusable : i.Refusable) :
      InputEffect s i { s with ovr := true, resp := r }
  /-- An MDATA access outside MM (R127, R128). -/
  | outside (i : Input) (r : Option Response) (idle : s.busy = false) (out : s.cfg.mmemWords ≤ s.maddr.toNat)
      (access : i = .read .w32 0x024 ∨ ∃ v, i = .write .w32 0x024 v) :
      InputEffect s i { s with maddr := s.maddr + 1, aerr := true, resp := r }
  /-- Registers the lock covers change while the engine is idle (R125, R127). -/
  | stored (i : Input) (cmd param maddr : Word) (md : Vector Desc 8) (r : Option Response) (idle : s.busy = false) :
      InputEffect s i { s with cmd := cmd, param := param, maddr := maddr, md := md, resp := r }
  /-- An MDATA write inside MM (R128). -/
  | word (v : Word) (r : Option Response) (idle : s.busy = false) (inside : s.maddr.toNat < s.cfg.mmemWords) :
      InputEffect s (.write .w32 0x024 v) { s.writeWord s.maddr.toNat v with maddr := s.maddr + 1, resp := r }
  /-- A STATUS write (R124). -/
  | cleared (v : Word) (r : Option Response) : InputEffect s (.write .w32 0x00C v) { s.clearFlags v with resp := r }
  /-- A CTRL write without SRST and START (R123). -/
  | enabled (v : Word) (r : Option Response) (noReset : v.getLsbD 1 = false) :
      InputEffect s (.write .w32 0x008 v) { s with irqen := v.getLsbD 2, resp := r }
  /-- An accepted START (R123, R130). -/
  | started (v : Word) (r : Option Response) (idle : s.busy = false) (start : v.getLsbD 0 = true)
      (noReset : v.getLsbD 1 = false) :
      InputEffect s (.write .w32 0x008 v) { State.start { s with irqen := v.getLsbD 2 } with resp := r }
  /-- A CTRL write with SRST (R123). -/
  | softReset (v : Word) (r : Option Response) (reset : v.getLsbD 1 = true) :
      InputEffect s (.write .w32 0x008 v) { s.softReset with resp := r }
  /-- Power-on reset (R300). -/
  | powerOn : InputEffect s .powerOn s.powerOnReset

theorem accessOk_iff (w : Width) (off : BitVec 12) : accessOk w off = true ↔ w = .w32 ∧ off.toNat % 4 = 0 := by
  simp [accessOk]

theorem State.busRead_effect (s : State) (w : Width) (off : BitVec 12) :
    InputEffect s (.read w off) (s.busRead w off) := by
  rw [State.busRead]
  split
  case isFalse => exact .quiet _ _
  case isTrue hok =>
    obtain ⟨rfl, -⟩ := (accessOk_iff w off).mp hok
    obtain ⟨-, -, hoff⟩ := regAt_eq_iff off
    rcases s.readReg_state (regAt off) with h | ⟨hr, hb, h⟩ | ⟨hr, hb, hin, h⟩ | ⟨hr, hb, hout, h⟩
    all_goals simp only [h]
    · exact .quiet _ _
    · exact .refused _ _ hb (.inl (by rw [hoff.mp hr]))
    · exact .stored _ s.cmd s.param _ s.md _ hb
    · exact .outside _ _ hb hout (.inl (by rw [hoff.mp hr]))

/-- A write that finds an idle engine stores a register, stores a word of MM, or lies outside MM. -/
theorem IdleWrite.effect {s t : State} {v : Word} {off : BitVec 12} (h : IdleWrite s v (regAt off) t)
    (hb : s.busy = false) (r : Option Response) : InputEffect s (.write .w32 off v) { t with resp := r } := by
  obtain ⟨-, -, hoff⟩ := regAt_eq_iff off
  generalize regAt off = reg at h hoff
  cases h with
  | cmd => exact .stored _ v s.param s.maddr s.md r hb
  | param => exact .stored _ s.cmd v s.maddr s.md r hb
  | maddr => exact .stored _ s.cmd s.param v s.md r hb
  | desc _ md => exact .stored _ s.cmd s.param s.maddr md r hb
  | word hin => rw [hoff.mp rfl]; exact .word v r hb hin
  | outside hout => exact .outside _ r hb hout (.inr ⟨v, by rw [hoff.mp rfl]⟩)

theorem State.busWrite_effect (s : State) (w : Width) (off : BitVec 12) (v : Word) :
    InputEffect s (.write w off v) (s.busWrite w off v) := by
  rw [State.busWrite]
  split
  case isFalse => exact .quiet _ _
  case isTrue hok =>
    obtain ⟨rfl, halign⟩ := (accessOk_iff w off).mp hok
    obtain ⟨hctrl, hstatus, -⟩ := regAt_eq_iff off
    rcases s.writeReg_cases v (regAt off) with
      h | ⟨hr, h⟩ | ⟨hr, h1, h⟩ | ⟨hr, h1, -, h⟩ | ⟨hr, h1, h0, hb, h⟩ | ⟨hr, h1, h0, hb, h⟩ | ⟨hl, hb, h⟩ | ⟨-, hb, hw⟩
    case inr.inr.inr.inr.inr.inr.inr => exact hw.effect hb _
    all_goals rw [h]
    · exact .quiet _ _
    · rw [hstatus.mp hr]; exact .cleared v _
    · rw [hctrl.mp hr]; exact .softReset v _ h1
    · rw [hctrl.mp hr]; exact .enabled v _ h1
    · rw [hctrl.mp hr]; exact .started v _ hb h0 h1
    · exact .refused _ _ hb (.inr ⟨off, v, rfl, halign, .inr ⟨hctrl.mp hr, h0, h1⟩⟩)
    · exact .refused _ _ hb (.inr ⟨off, v, rfl, halign, .inl hl⟩)

theorem State.engineTurn_effect {s t : State} (h : s.engineTurn = .next t) : InputEffect s .complete t := by
  cases hb : s.busy with
  | false =>
    rw [engineTurn_idle hb] at h
    rw [← Host.Outcome.next.inj h]
    exact .quiet _ s.resp
  | true =>
    obtain ⟨u, hu, hkept, hidle, hdone, hinfo, hdraws, hwf⟩ := engineTurn_busy hb
    obtain rfl : u = t := Host.Outcome.next.inj (hu.symm.trans h)
    exact .completed u hb hkept hidle hdone hinfo hdraws (hkept.cfg_eq ▸ hwf)

theorem State.handle_effect {s t : State} {i : Input} (h : s.handle i = .next t) : InputEffect s i t := by
  cases i with
  | read w off => rw [← Host.Outcome.next.inj h]; exact s.busRead_effect w off
  | write w off v => rw [← Host.Outcome.next.inj h]; exact s.busWrite_effect w off v
  | complete => exact State.engineTurn_effect h
  | powerOn => rw [← Host.Outcome.next.inj h]; exact .powerOn

/-- The input a step takes and what still arrives: the head of the list, or the engine's turn when the list is empty (log 1). -/
inductive State.Takes (s : State) : Input → List Input → Prop where
  | head (i : Input) (rest : List Input) (h : s.inputs = i :: rest) : State.Takes s i rest
  | turn (h : s.inputs = []) : State.Takes s .complete []

theorem State.Takes.inputs_eq {s : State} {i : Input} {rest : List Input} (h : s.Takes i rest) (hi : i ≠ .complete) :
    s.inputs = i :: rest := by
  cases h with
  | head _ _ h => exact h
  | turn => exact absurd rfl hi

theorem State.Takes.inputs_of_complete {s : State} {rest : List Input} (h : s.Takes .complete rest) :
    s.inputs = [] ∨ ∃ rest, s.inputs = .complete :: rest := by
  cases h with
  | head _ _ h => exact .inr ⟨rest, h⟩
  | turn h => exact .inl h

/-- Every step takes one input and does what that input can do. -/
theorem step_effect {s t : State} (h : step s = .next t) :
    ∃ i rest, s.Takes i rest ∧ InputEffect { s with inputs := rest } i t := by
  rcases step_cases h with ⟨hnil, hturn⟩ | ⟨i, rest, hcons, hi⟩
  · refine ⟨.complete, [], .turn hnil, ?_⟩
    rw [← hnil]
    exact State.engineTurn_effect hturn
  · exact ⟨i, rest, .head i rest hcons, State.handle_effect hi⟩

/-! What an input keeps -/

theorem InputEffect.cfg_eq {s t : State} {i : Input} (h : InputEffect s i t) : t.cfg = s.cfg := by
  cases h with
  | completed _ _ kept => exact kept.cfg_eq
  | softReset => exact s.softReset_cfg
  | _ => rfl

/-- In an idle state the clause about a running command is empty. -/
theorem State.Inv.of_idle {s : State} (hwf : Memory.wf s.cfg.mmemWords s.mm) (hrange : s.cfg.inRange)
    (hsourced : s.cfg.sourced) (hinfo : s.errcode.infoOk s.errinfo) (hidle : s.eng = .idle)
    (hdraws : s.powerDraw < s.draws) : s.Inv :=
  ⟨hwf, hrange, hsourced, hinfo, fun _ hbusy => (Engine.noConfusion (hidle.symm.trans hbusy)), hdraws⟩

theorem State.eng_of_not_busy {s : State} (h : s.busy = false) : s.eng = .idle := by
  cases he : s.eng with
  | idle => rfl
  | busy snap => simp [State.busy, he] at h

theorem InputEffect.inv {s t : State} {i : Input} (h : InputEffect s i t) (hs : s.Inv) : t.Inv := by
  have hcfg := h.cfg_eq
  obtain ⟨hwf, hrange, hsourced, hinfo, hrun, hdraws⟩ := hs
  cases h with
  | quiet | refused | outside | enabled => exact ⟨hwf, hrange, hsourced, hinfo, hrun, hdraws⟩
  | completed t busy kept idle done info draws wf =>
    exact .of_idle (wf hwf) (hcfg ▸ hrange) (hcfg ▸ hsourced) info idle (by rw [kept.powerDraw_eq]; omega)
  | stored _ _ _ _ _ _ idle => exact .of_idle hwf hrange hsourced hinfo (State.eng_of_not_busy idle) hdraws
  | word v _ idle =>
    exact .of_idle (State.patch_wf s _ _ _ hwf) hrange hsourced hinfo (State.eng_of_not_busy idle) hdraws
  | cleared v =>
    refine ⟨hwf, hrange, hsourced, hinfo, fun snap hbusy => ?_, hdraws⟩
    obtain ⟨hsnap, hdone, hcode, hval⟩ := hrun snap hbusy
    exact ⟨hsnap, by simp [hdone], hcode, hval⟩
  | started => exact ⟨hwf, hrange, hsourced, rfl, fun _ hbusy => ⟨(Engine.busy.inj hbusy).symm, rfl, rfl, rfl⟩, hdraws⟩
  | softReset =>
    have hreset := State.softReset_wf hwf
    rw [State.softReset_eq]
    exact .of_idle hreset hrange hsourced rfl rfl (lt_of_lt_of_le hdraws s.draws_le_softReset)
  | powerOn => exact .of_idle (Memory.wf_nil _) hrange hsourced rfl rfl (Nat.lt_succ_self _)

/-- Settles O52: every input an invariant state takes leaves an invariant state. -/
theorem everyStepKeepsTheInvariant : Obligations.EveryStepKeepsTheInvariant := by
  intro s t hs h
  obtain ⟨i, rest, -, heff⟩ := step_effect h
  exact heff.inv hs

/-- Settles O53: no input changes the parameters. -/
theorem tablesNeverChange : Obligations.TablesNeverChange := by
  intro s t h
  obtain ⟨i, rest, -, heff⟩ := step_effect h
  exact heff.cfg_eq

/-! When a flag rises or falls -/

/-- DONE rises only by the turn of a busy engine, which is idle afterwards (R27, R131). -/
theorem InputEffect.done_rises {s t : State} {i : Input} (h : InputEffect s i t) (hs : s.done = false)
    (ht : t.done = true) : i = .complete ∧ s.busy = true ∧ t.busy = false ∧ t.irqen = s.irqen := by
  cases h with
  | completed _ busy kept idle => exact ⟨rfl, busy, State.busy_of_idle idle, kept.irqen_eq⟩
  | _ => simp [hs] at ht

/-- BUSY rises only by an accepted START (R130). -/
theorem InputEffect.busy_rises {s t : State} {i : Input} (h : InputEffect s i t) (hs : s.busy = false)
    (ht : t.busy = true) : ∃ v, i = .write .w32 0x008 v ∧ v.getLsbD 0 = true ∧ v.getLsbD 1 = false := by
  have hidle := State.eng_of_not_busy hs
  cases h with
  | started v _ _ start noReset => exact ⟨v, rfl, start, noReset⟩
  | completed _ busy => simp [hs] at busy
  | _ => simp [State.busy, hidle] at ht

/-- OVR rises only by an access refused while busy (R43, R126). -/
theorem InputEffect.ovr_rises {s t : State} {i : Input} (h : InputEffect s i t) (hs : s.ovr = false)
    (ht : t.ovr = true) : s.busy = true ∧ i.Refusable := by
  cases h with
  | refused _ _ busy refusable => exact ⟨busy, refusable⟩
  | completed _ _ kept => rw [kept.ovr_eq, hs] at ht; cases ht
  | _ => simp [hs] at ht

/-- AERR rises only by an MDATA access outside MM of an idle engine (R43, R127, R128). -/
theorem InputEffect.aerr_rises {s t : State} {i : Input} (h : InputEffect s i t) (hs : s.aerr = false)
    (ht : t.aerr = true) : s.busy = false ∧ s.cfg.mmemWords ≤ s.maddr.toNat ∧
      (i = .read .w32 0x024 ∨ ∃ v, i = .write .w32 0x024 v) := by
  cases h with
  | outside _ _ idle out access => exact ⟨idle, out, access⟩
  | completed _ _ kept => rw [kept.aerr_eq, hs] at ht; cases ht
  | _ => simp [hs] at ht

/-- OVR and AERR fall only by a STATUS write or a reset (R124, R43). -/
theorem InputEffect.accessFlag_falls {s t : State} {i : Input} (h : InputEffect s i t)
    (hf : (s.ovr = true ∧ t.ovr = false) ∨ (s.aerr = true ∧ t.aerr = false)) :
    i = .powerOn ∨ ∃ v, i = .write .w32 0x00C v ∨ (i = .write .w32 0x008 v ∧ v.getLsbD 1 = true) := by
  cases h with
  | cleared v => exact .inr ⟨v, .inl rfl⟩
  | softReset v _ reset => exact .inr ⟨v, .inr ⟨rfl, reset⟩⟩
  | powerOn => exact .inl rfl
  | completed _ _ kept => rw [kept.ovr_eq, kept.aerr_eq] at hf; simp at hf
  | _ => simp at hf

/-- IRQEN rises only by a CTRL write that sets its bit and does not reset (R123). -/
theorem InputEffect.irqen_rises {s t : State} {i : Input} (h : InputEffect s i t) (hs : s.irqen = false)
    (ht : t.irqen = true) : ∃ v, i = .write .w32 0x008 v ∧ v.getLsbD 2 = true ∧ v.getLsbD 1 = false := by
  cases h with
  | enabled v _ noReset => exact ⟨v, rfl, ht, noReset⟩
  | started v _ _ _ noReset => exact ⟨v, rfl, ht, noReset⟩
  | completed _ _ kept => rw [kept.irqen_eq, hs] at ht; cases ht
  | _ => simp [hs] at ht

/-- Settles O54: DONE rises by the turn of a busy engine, BUSY by an accepted START. -/
theorem doneAndBusyRiseOnlyAsStated : Obligations.DoneAndBusyRiseOnlyAsStated := by
  intro s t h
  obtain ⟨i, rest, htakes, heff⟩ := step_effect h
  constructor
  · intro hs ht
    obtain ⟨rfl, hbusy, hidle, -⟩ := heff.done_rises hs ht
    exact ⟨hbusy, hidle, htakes.inputs_of_complete⟩
  · intro hs ht
    obtain ⟨v, rfl, hstart, hreset⟩ := heff.busy_rises hs ht
    exact ⟨v, rest, htakes.inputs_eq (by simp), hstart, hreset⟩

/-- Settles O55: a refused access sets OVR, an MDATA access outside MM sets AERR, and a STATUS write or a reset clears them. -/
theorem accessFlagsChangeOnlyAsStated : Obligations.AccessFlagsChangeOnlyAsStated := by
  intro s t h
  obtain ⟨i, rest, htakes, heff⟩ := step_effect h
  refine ⟨fun hs ht => ?ovr, fun hs ht => ?aerr, fun hf => ?falls⟩
  case ovr =>
    obtain ⟨hbusy, hrefusable⟩ := heff.ovr_rises hs ht
    refine ⟨hbusy, i, rest, htakes.inputs_eq ?_, hrefusable⟩
    rintro rfl
    simp [Input.Refusable] at hrefusable
  case aerr =>
    obtain ⟨hidle, hout, haccess⟩ := heff.aerr_rises hs ht
    refine ⟨hidle, hout, i, rest, htakes.inputs_eq ?_, haccess⟩
    rintro rfl
    simp at haccess
  case falls =>
    have hcause := heff.accessFlag_falls hf
    refine ⟨i, rest, htakes.inputs_eq ?_, hcause⟩
    rintro rfl
    simp at hcause

theorem State.irq_iff (s : State) : s.irq = true ↔ s.irqen = true ∧ s.done = true := by
  simp [State.irq]

/-- Settles O57: irq rises with DONE, by a completion that keeps IRQEN, or with IRQEN, by a CTRL write while DONE = 1. -/
theorem interruptRisesOnlyAsStated : Obligations.InterruptRisesOnlyAsStated := by
  refine ⟨State.irq_iff, fun s t h hs ht => ?_⟩
  obtain ⟨hirqen, hdone⟩ := t.irq_iff.mp ht
  obtain ⟨i, rest, htakes, heff⟩ := step_effect h
  cases hd : s.done with
  | false =>
    obtain ⟨-, hbusy, hidle, hkept⟩ := heff.done_rises hd hdone
    exact .inl ⟨hbusy, hidle, hkept.symm.trans hirqen⟩
  | true =>
    have hoff : s.irqen = false := by simpa [State.irq, hd] using hs
    obtain ⟨v, rfl, hset, hreset⟩ := heff.irqen_rises hoff hirqen
    exact .inr ⟨rfl, v, rest, htakes.inputs_eq (by simp), hset, hreset⟩

/-! A running command and the live registers (R41, 20_memory.md R76) -/

/-- The state with other values in CMD, PARAM and the descriptor registers. -/
def State.withLive (s : State) (cmd param : Word) (md : Vector Desc 8) : State :=
  { s with cmd := cmd, param := param, md := md }

section
variable (s : State) (cmd param : Word) (md : Vector Desc 8)

theorem State.withLive_store (d : Desc) (x : Nat → Nat → Bool) :
    (s.withLive cmd param md).store d x = (s.store d x).withLive cmd param md := rfl

theorem State.withLive_raise (e : ErrorReport) :
    (s.withLive cmd param md).raise e = (s.raise e).withLive cmd param md := rfl

theorem State.withLive_complete : (s.withLive cmd param md).complete = s.complete.withLive cmd param md := rfl

theorem State.withLive_mat (d : Desc) : (s.withLive cmd param md).mat d = s.mat d := rfl

theorem State.withLive_scramble (ds : List Desc) :
    (s.withLive cmd param md).scramble ds = (s.scramble ds).withLive cmd param md := by
  have hfold := List.foldl_hom (l := ds) (init := s) (fun u : State => u.withLive cmd param md)
    (g₁ := fun u d => u.store d fun r c => Config.anyBit s.draws (d.bitIndex r c))
    (g₂ := fun u d => u.store d fun r c => Config.anyBit s.draws (d.bitIndex r c)) (fun _ _ => rfl)
  exact congrArg (fun u : State => { u with draws := s.draws + 1 }) hfold

end

section
variable {s : State} {snap : Snap} (hs : s.eng = .busy snap) (cmd param : Word) (md : Vector Desc 8)
include hs

/-- The operands of a running command are the latched ones. -/
theorem State.withLive_operand (k : DescIx) : (s.withLive cmd param md).operand k = s.operand k := by
  simp [State.operand, State.latched, State.withLive, hs]

theorem State.withLive_firstBadDesc (ks : List DescIx) :
    (s.withLive cmd param md).firstBadDesc ks = s.firstBadDesc ks := by
  induction ks with
  | nil => rfl
  | cons k ks ih =>
    rw [State.firstBadDesc, State.firstBadDesc, State.withLive_operand hs, ih]
    rfl

theorem validationOf_withLive (i : Instr) : validationOf (s.withLive cmd param md) i = validationOf s i := by
  have hshape : shapeChecked (s.withLive cmd param md) i = shapeChecked s i := by
    cases i <;> simp [shapeChecked, State.withLive_operand hs]
  have hoverlap : overlapChecked (s.withLive cmd param md) i = overlapChecked s i := by
    cases i <;> simp [overlapChecked, State.withLive_operand hs]
  rw [validationOf, validationOf, State.validate, State.validate, hshape, hoverlap, State.withLive_firstBadDesc hs]

theorem resultMatrix_withLive (i : Instr) : resultMatrix (s.withLive cmd param md) i = resultMatrix s i := by
  cases i <;> simp [resultMatrix, State.withLive_operand hs, State.withLive_mat] <;> rfl

/-- The result of a running command under other live registers is its result, with those registers. -/
theorem exec_withLive (i : Instr) :
    ∃ t, exec i s = .next t ∧ exec i (s.withLive cmd param md) = .next (t.withLive cmd param md) := by
  have hvalid := validationOf_withLive hs cmd param md i
  have hchecks : ChecksPass s i → ChecksPass (s.withLive cmd param md) i := by
    rw [← validationOf_eq_none, ← validationOf_eq_none, hvalid]
    exact id
  rcases exec_cases i s with ⟨e, he, h⟩ | ⟨rfl, h⟩ | ⟨d, hc, hd, -, hi, h⟩ | ⟨d, a, sc, rfl, hc, hinv⟩
  · exact ⟨_, h, by rw [exec_of_error (hvalid.trans he), State.withLive_raise]⟩
  · exact ⟨_, h, by rw [exec_nop, State.withLive_complete]⟩
  · refine ⟨_, h, ?_⟩
    rw [exec_of_checks (hchecks hc) hd hi, resultMatrix_withLive hs, State.withLive_operand hs, State.withLive_store,
      State.withLive_complete]
  · have hexec := exec_inv_of_checks (hchecks hc)
    simp only [State.rowsOf, State.withLive_operand hs, State.withLive_mat] at hexec hinv
    rcases hinv with ⟨k, hk, h⟩ | ⟨x, hx, h⟩
    · refine ⟨_, h, ?_⟩
      simp only [hexec, hk, State.withLive_scramble, State.withLive_raise]
    · refine ⟨_, h, ?_⟩
      simp only [hexec, hx, State.withLive_store, State.withLive_scramble, State.withLive_complete]

end

/-- Settles O58: validation, operands and result of a busy engine's command do not see the live registers. -/
theorem commandsReadOnlyTheSnapshot : Obligations.CommandsReadOnlyTheSnapshot := by
  intro i s snap cmd param md hs
  exact exec_withLive hs cmd param md i

/-! Reads after reset (R23, R34) -/

theorem statusWord_powerOnWith (cfg : Params) : (State.powerOnWith cfg).statusWord = 0 := by
  simp [State.statusWord, State.powerOnWith, State.err, State.busy, ErrCode.code]

/-- Every register but ID, VERSION, MMSIZE and the window MDATA reads 0 after reset. -/
theorem readReg_powerOnWith (cfg : Params) {r : Reg} (h : r ∉ [.id, .version, .mmsize, .mdata]) :
    (State.powerOnWith cfg).readReg r = (0, State.powerOnWith cfg) := by
  cases r with
  | id | version | mmsize | mdata => simp at h
  | ctrl | base | rows | cols | stride => simp [State.readReg, State.powerOnWith, State.ctrlWord, Desc.zero]
  | status => rw [State.readReg, statusWord_powerOnWith]
  | cmd | param | errinfo | maddr | reserved => rfl

theorem descReg_notMem (o : Nat) : descReg o ∉ [.id, .version, .mmsize, .mdata] := by
  rw [descReg]
  split <;> simp

/-- Settles O2: the offsets of the descriptor file, then each register named in R23, then the reserved offsets. -/
theorem readsAfterResetMatchRegisterMap : Obligations.ReadsAfterResetMatchRegisterMap := by
  intro cfg off _ hmdata
  by_cases hfile : 0x100 ≤ off.toNat ∧ off.toNat < 0x180
  · have hne : ∀ c : BitVec 12, c.toNat < 0x100 → off ≠ c := by
      rintro c hc rfl
      omega
    rw [regAt, if_pos hfile, readReg_powerOnWith cfg (descReg_notMem _), if_neg (hne _ (by decide)),
      if_neg (hne _ (by decide)), if_neg (hne _ (by decide))]
  · have hoffset : ∀ n, off.toNat = n → off = BitVec.ofNat 12 n := by
      rintro n rfl
      simp
    rw [regAt, if_neg hfile]
    split
    case h_9 h => exact absurd (hoffset _ h) hmdata
    case h_1 h | h_2 h | h_10 h => rw [hoffset _ h]; rfl
    case h_3 h | h_4 h | h_5 h | h_6 h | h_7 h | h_8 h => rw [hoffset _ h]; exact readReg_powerOnWith cfg (by simp)
    case h_11 hid hversion _ _ _ _ _ _ _ hmmsize =>
      rw [if_neg fun h => hid (by rw [h]; rfl), if_neg fun h => hversion (by rw [h]; rfl),
        if_neg fun h => hmmsize (by rw [h]; rfl)]
      rfl

end Sys2Proof.Machine
end

section
/-! Spans, overlap and what a result depends on (20_memory.md R63 and R65). -/

namespace Sys2Proof.Machine

/-! Spans and overlap (R63) -/

/-- The word that holds an element lies in the span of its descriptor. -/
theorem Desc.addr_mem_span {d : Desc} {r c : Nat} (hr : r < d.rows.toNat) (hc : c < d.cols.toNat) :
    d.base.toNat ≤ d.addr r c ∧ d.addr r c < d.spanEnd := by
  have hspan := Desc.bitIndex_lt_spanEnd hr hc
  rw [Desc.bitIndex] at hspan
  omega

/-- Two spans that share a word share the later of their two first words. -/
theorem Desc.overlaps_iff (d e : Desc) :
    d.overlaps e = true ↔ ∃ a, (d.base.toNat ≤ a ∧ a < d.spanEnd) ∧ e.base.toNat ≤ a ∧ a < e.spanEnd := by
  rw [Desc.overlaps, decide_eq_true_iff]
  constructor
  · intro h
    exact ⟨max d.base.toNat e.base.toNat, by omega, by omega⟩
  · rintro ⟨a, hd, he⟩
    omega

theorem Desc.identical_iff (d e : Desc) :
    d.identical e = true ↔ d.base = e.base ∧ d.rows = e.rows ∧ d.cols = e.cols ∧ d.stride = e.stride := by
  rw [Desc.identical, decide_eq_true_iff]
  cases d
  cases e
  simp only [Desc.mk.injEq]

/-- A view of one word a row, on every second word, holds bits only in words of its base's parity. -/
theorem Desc.holds_parity {d : Desc} (hcols : d.cols.toNat ≤ 32) (hstride : d.stride.toNat = 2) {a i : Nat}
    (h : d.holds a i) : a % 2 = d.base.toNat % 2 := by
  obtain ⟨r, c, -, hc, ha, -⟩ := h
  rw [Desc.addr, hstride] at ha
  omega

/-- Settles O23: the bounds of the span, the word two spans share, and for the interleaved views the parity of their words. -/
theorem spansCoverElementsAndDecideOverlap : Obligations.SpansCoverElementsAndDecideOverlap := by
  refine ⟨fun _ d r c _ hr hc => ?_, Desc.overlaps_iff, Desc.identical_iff, by decide, ?_⟩
  · exact Desc.addr_mem_span hr hc
  · rintro a i ⟨heven, hodd⟩
    have h0 := Desc.holds_parity (by decide) (by decide) heven
    have h1 := Desc.holds_parity (by decide) (by decide) hodd
    exact absurd (h0.symm.trans h1) (by decide)

/-! What a result depends on (R65) -/

/-- `Mat(d)` is the same in two states that agree on the elements of d. -/
theorem State.mat_congr {s u : State} {d : Desc}
    (h : ∀ r < d.rows.toNat, ∀ c < d.cols.toNat, u.bit d r c = s.bit d r c) : u.mat d = s.mat d := by
  have hat : ∀ r c, (u.mat d).at r c = (s.mat d).at r c := by
    intro r c
    rw [State.at_mat, State.at_mat]
    by_cases hin : r < d.rows.toNat ∧ c < d.cols.toNat
    · rw [h r hin.1 c hin.2]
    · rcases not_and_or.mp hin with hr | hc
      · simp [hr]
      · simp [hc]
  refine List.map_congr_left fun r hr => Nat.eq_of_testBit_eq fun c => ?_
  simpa only [BitMat.at, State.mat, BitMat.row_map, if_pos (List.mem_range.mp hr)] using hat r c

/-- The error validation reports is an error. -/
theorem State.validate_code_ne_none {s : State} {p : Bool} {is : List DescIx} {sh ov : Bool} {e : ErrorReport}
    (h : s.validate p is sh ov = some e) : e.code ≠ .none := by
  rw [State.validate] at h
  split at h
  · cases h; simp
  · split at h
    · cases h; simp
    · split at h
      · cases h; simp
      · split at h
        · cases h; simp
        · cases h

/-- The state with another matrix memory: other written bytes, and another draw for the unwritten ones (log 3, log 4). -/
def State.withMemory (s : State) (mm : Memory) (draw : Nat) : State := { s with mm := mm, powerDraw := draw }

section
variable (s : State) (mm : Memory) (draw : Nat)

@[simp] theorem State.withMemory_cfg : (s.withMemory mm draw).cfg = s.cfg := rfl
@[simp] theorem State.withMemory_operand (k : DescIx) : (s.withMemory mm draw).operand k = s.operand k := rfl

theorem State.withMemory_firstBadDesc (ks : List DescIx) :
    (s.withMemory mm draw).firstBadDesc ks = s.firstBadDesc ks := by
  induction ks with
  | nil => rfl
  | cons k ks ih => rw [State.firstBadDesc, State.firstBadDesc, ih, State.withMemory_operand, State.withMemory_cfg]

/-- Validation does not look at matrix memory (R133). -/
theorem validationOf_withMemory (i : Instr) : validationOf (s.withMemory mm draw) i = validationOf s i := by
  have hshape : shapeChecked (s.withMemory mm draw) i = shapeChecked s i := by cases i <;> rfl
  have hoverlap : overlapChecked (s.withMemory mm draw) i = overlapChecked s i := by cases i <;> rfl
  rw [validationOf, validationOf, State.validate, State.validate, hshape, hoverlap, State.withMemory_firstBadDesc]

end

section
variable {s : State} {mm : Memory} {draw : Nat}

theorem mem_rolesUsed_of_mem_destination {i : Instr} {k : DescIx} (h : k ∈ destination i) : k ∈ rolesUsed i := by
  cases i with
  | nop => exact h
  | perm | asmh | inv | mul | zero | ident | copy | add => exact List.mem_singleton.mp h ▸ List.mem_cons_self

/-- A result is computed from the matrices of the sources alone. -/
theorem resultMatrix_withMemory {i : Instr}
    (h : ∀ k ∈ sourceRoles i, (s.withMemory mm draw).mat (s.operand k) = s.mat (s.operand k)) :
    resultMatrix (s.withMemory mm draw) i = resultMatrix s i := by
  cases i with
  | nop | asmh | inv | zero => rfl
  | perm d x p | ident d x =>
    cases x with
    | false => rfl
    | true => simp [resultMatrix, h d (by simp [sourceRoles])]
  | mul d a b x t =>
    have ha := h a (by simp [sourceRoles])
    have hb := h b (by simp [sourceRoles])
    cases x with
    | false => simp [resultMatrix, ha, hb]
    | true => simp [resultMatrix, ha, hb, h d (by simp [sourceRoles])]
  | copy d a t => simp [resultMatrix, h a (by simp [sourceRoles])]
  | add d a b => simp [resultMatrix, h a (by simp [sourceRoles]), h b (by simp [sourceRoles])]

/-- Two runs of a command agree on its outcome and, where it succeeded, on every element of its destination. -/
def SameResult (s : State) (i : Instr) (t u : State) : Prop :=
  u.errcode = t.errcode ∧ u.errinfo = t.errinfo ∧
  (t.errcode = .none → ∀ k ∈ destination i, ∀ r < s.rowsOf k, ∀ c < s.colsOf k,
    u.bit (s.operand k) r c = t.bit (s.operand k) r c)

theorem SameResult.of_error {t u : State} {i : Instr} {e : ErrorReport} (he : e.code ≠ .none) :
    SameResult s i (t.raise e) (u.raise e) := ⟨rfl, rfl, fun hok => absurd hok he⟩

theorem SameResult.of_complete {t u : State} {i : Instr}
    (h : ∀ k ∈ destination i, ∀ r < s.rowsOf k, ∀ c < s.colsOf k, u.bit (s.operand k) r c = t.bit (s.operand k) r c) :
    SameResult s i t.complete u.complete := ⟨rfl, rfl, fun _ => h⟩

/-- The inverse is stored in D and then S is left free: D's elements are those of the inverse, since S does not overlap D. -/
theorem State.bit_store_scramble (s : State) {d e : Desc} (x : Nat → Nat → Bool) (hs : Memory.wf s.cfg.mmemWords s.mm)
    (hd : d.valid s.cfg.mmemWords = true) (hde : d.overlaps e = false) {r c : Nat} (hr : r < d.rows.toNat)
    (hc : c < d.cols.toNat) : ((s.store d x).scramble [e]).bit d r c = x r c := by
  rw [State.bit_scramble_of_disjoint _ (State.store_wf s d x hs) (Desc.overlaps_comm d e ▸ hde) hr hc,
    State.bit_store s d x hs hd hr hc]

variable (hs : Memory.wf s.cfg.mmemWords s.mm) (hmm : Memory.wf s.cfg.mmemWords mm)
include hs hmm

/-- INV of an A with the same elements in another memory reports the same row or stores the same inverse. -/
theorem exec_inv_withMemory {d a sc : DescIx} (hc : ChecksPass s (.inv d a sc))
    (hc' : ChecksPass (s.withMemory mm draw) (.inv d a sc))
    (hsrc : (s.withMemory mm draw).mat (s.operand a) = s.mat (s.operand a)) :
    ∃ t u, exec (.inv d a sc) s = .next t ∧ exec (.inv d a sc) (s.withMemory mm draw) = .next u ∧
      SameResult s (.inv d a sc) t u := by
  have hrows : (s.withMemory mm draw).rowsOf a = s.rowsOf a := rfl
  rw [exec_inv_of_checks hc, exec_inv_of_checks hc', hrows]
  simp only [State.withMemory_operand, hsrc]
  cases invertMatrix (s.rowsOf a) (s.mat (s.operand a)) with
  | error n => exact ⟨_, _, rfl, rfl, SameResult.of_error (by simp)⟩
  | ok inverse =>
    refine ⟨_, _, rfl, rfl, SameResult.of_complete fun k hk r hr c hcol => ?_⟩
    obtain ⟨-, hvalid, -, hoverlap⟩ := hc
    obtain rfl : k = d := by simpa [destination] using hk
    have hd : (s.operand k).valid s.cfg.mmemWords = true := hvalid k (mem_rolesUsed_of_mem_destination hk)
    have hfree : (s.operand k).overlaps (s.operand sc) = false := by
      simp only [OverlapFails, State.Overlap, not_or, Bool.not_eq_true] at hoverlap
      obtain ⟨-, hdsc, -⟩ := hoverlap
      exact hdsc
    rw [State.bit_store_scramble s _ hs hd hfree hr hcol,
      State.bit_store_scramble (s.withMemory mm draw) _ hmm hd hfree hr hcol]

/-- A command whose sources hold the same elements in another memory has the same result there. -/
theorem exec_withMemory {i : Instr}
    (hsrc : ∀ k ∈ sourceRoles i, (s.withMemory mm draw).mat (s.operand k) = s.mat (s.operand k)) :
    ∃ t u, exec i s = .next t ∧ exec i (s.withMemory mm draw) = .next u ∧ SameResult s i t u := by
  have hvalid := validationOf_withMemory s mm draw i
  have hchecks : ChecksPass s i → ChecksPass (s.withMemory mm draw) i := by
    rw [← validationOf_eq_none, ← validationOf_eq_none, hvalid]
    exact id
  rcases exec_cases i s with ⟨e, he, h⟩ | ⟨rfl, h⟩ | ⟨d, hc, hd, -, hi, h⟩ | ⟨d, a, sc, rfl, hc, -⟩
  · exact ⟨_, _, h, exec_of_error (hvalid.trans he), SameResult.of_error (State.validate_code_ne_none he)⟩
  · exact ⟨_, _, h, exec_nop _, SameResult.of_complete (by simp [destination])⟩
  · refine ⟨_, _, h, exec_of_checks (hchecks hc) hd hi, SameResult.of_complete fun k hk r hr c hcol => ?_⟩
    obtain ⟨-, hoperands, -, -⟩ := hc
    obtain rfl : k = d := by simpa [hd] using hk
    have hdv : (s.operand k).valid s.cfg.mmemWords = true := hoperands k (mem_rolesUsed_of_mem_destination hk)
    rw [resultMatrix_withMemory hsrc, State.withMemory_operand, State.bit_store s _ _ hs hdv hr hcol,
      State.bit_store (s.withMemory mm draw) _ _ hmm hdv hr hcol]
  · exact exec_inv_withMemory hs hmm hc (hchecks hc) (hsrc a (by simp [sourceRoles]))

end

/-- Settles O59: validation does not see MM, and both runs read the same source matrices. -/
theorem resultsIgnoreBitsOutsideSources : Obligations.ResultsIgnoreBitsOutsideSources := by
  intro i s mm draw hs hmm hsrc
  exact exec_withMemory hs hmm fun k hk => State.mat_congr (hsrc k hk)

end Sys2Proof.Machine
end

section
/-! Fields and masks of the two words of a command (30_encoding.md R91, R92), and the statements of 30_encoding.md. -/

namespace Sys2Proof

open Sys2Proof.Machine

/-! Masks and the fields they cover -/

/-- The mask with the `n` bits from bit `lo` up set. -/
def fieldMask (lo n : Nat) : Word := (BitVec.allOnes n).setWidth 32 <<< lo

theorem getElem_fieldMask {lo n i : Nat} (hi : i < 32) : (fieldMask lo n)[i] = decide (lo ≤ i ∧ i < lo + n) := by
  by_cases hlo : lo ≤ i
  · simp [fieldMask, hlo, show i - lo < n ↔ i < lo + n by omega]
  · simp [fieldMask, hlo]

theorem and_fieldMask_eq_zero (w : Word) {lo n : Nat} (h : lo + n ≤ 32) :
    w &&& fieldMask lo n = 0#32 ↔ w.extractLsb' lo n = 0#n := by
  simp only [BitVec.eq_of_getElem_eq_iff, BitVec.getElem_and, getElem_fieldMask, BitVec.getElem_extractLsb',
    BitVec.getElem_zero]
  constructor
  · intro hz i hi
    simpa [BitVec.getLsbD_eq_getElem (show lo + i < 32 by omega), hi] using hz (lo + i) (by omega)
  · intro hz i hi
    by_cases hin : lo ≤ i ∧ i < lo + n
    · have hbit := hz (i - lo) (by omega)
      rw [show lo + (i - lo) = i by omega, BitVec.getLsbD_eq_getElem hi] at hbit
      simp [hbit]
    · simp [hin]

theorem and_bitMask_eq_zero (w : Word) {lo : Nat} (h : lo < 32) : w &&& fieldMask lo 1 = 0#32 ↔ w.getLsbD lo = false := by
  rw [and_fieldMask_eq_zero w h]
  simp [BitVec.eq_of_getElem_eq_iff]

/-- Words that agree under a mask agree on every field the mask covers. -/
theorem extractLsb'_eq_of_and_eq {w w' m : Word} (h : w &&& m = w' &&& m) {lo n : Nat}
    (hm : m.extractLsb' lo n = BitVec.allOnes n) : w.extractLsb' lo n = w'.extractLsb' lo n := by
  have hfield := congrArg (BitVec.extractLsb' lo n) h
  simpa only [BitVec.extractLsb'_and, hm, BitVec.and_allOnes] using hfield

/-- A match under two masks, the second of which must give 0, is a match under each. -/
theorem and_or_eq_iff {a b v : Word} (ha : v &&& a = v) (hb : v &&& b = 0#32) (w : Word) :
    w &&& (a ||| b) = v ↔ w &&& a = v ∧ w &&& b = 0#32 := by
  constructor
  · rintro rfl
    have ha' : (a ||| b) &&& a = a := by ext i; simp; tauto
    have hb' : (a ||| b) &&& b = b := by ext i; simp; tauto
    rw [BitVec.and_assoc, ha'] at ha
    rw [BitVec.and_assoc, hb'] at hb
    exact ⟨ha, hb⟩
  · rintro ⟨hwa, hwb⟩
    rw [BitVec.and_or_distrib_left, hwa, hwb, BitVec.or_zero]

theorem and_0xFF_eq_iff (w : Word) (c : BitVec 8) : w &&& 0xFF = c.setWidth 32 ↔ w.extractLsb' 0 8 = c := by
  have hw : w &&& 0xFF = (w.extractLsb' 0 8).setWidth 32 := by
    have hmod : w.toNat &&& 255 = w.toNat % 256 := Nat.and_two_pow_sub_one_eq_mod w.toNat 8
    exact BitVec.eq_of_toNat_eq (by simp [hmod]; omega)
  rw [hw]
  exact ⟨fun h => by simpa using congrArg (BitVec.setWidth 8) h, fun h => by rw [h]⟩

/-! Reserved bits (R91, R92) -/

theorem cmdReserved_eq_false_iff (w : Word) : cmdReserved w = false ↔ w &&& 0xFC888800 = 0#32 := by
  have hm : (0xFC888800 : Word) =
      fieldMask 26 6 ||| fieldMask 23 1 ||| fieldMask 19 1 ||| fieldMask 15 1 ||| fieldMask 11 1 := by decide
  rw [hm]
  simp only [BitVec.and_or_distrib_left, BitVec.or_eq_zero_iff, and_bitMask_eq_zero w (show 23 < 32 by omega),
    and_bitMask_eq_zero w (show 19 < 32 by omega), and_bitMask_eq_zero w (show 15 < 32 by omega),
    and_bitMask_eq_zero w (show 11 < 32 by omega), and_fieldMask_eq_zero w (show 26 + 6 ≤ 32 by omega)]
  simp [cmdReserved]

theorem paramReserved_eq_true_iff (w : Word) : paramReserved w = true ↔ w &&& 0xFFFCE0F8 ≠ 0 := by
  have hm : (0xFFFCE0F8 : Word) = fieldMask 3 5 ||| fieldMask 13 3 ||| fieldMask 18 14 := by decide
  have hzero : w &&& 0xFFFCE0F8 = 0 ↔
      (w.extractLsb' 3 5 = 0 ∧ w.extractLsb' 13 3 = 0) ∧ w.extractLsb' 18 14 = 0 := by
    rw [hm, BitVec.and_or_distrib_left, BitVec.and_or_distrib_left]
    simp [BitVec.or_eq_zero_iff, and_fieldMask_eq_zero]
  rw [ne_eq, hzero]
  simp [paramReserved, or_iff_not_imp_left]

/-! The rows of the opcode table (R93, R99) -/

/-- The mask of a flag bit, in the rows of the opcodes that do not allow the flag. -/
def flagMask (lo : Nat) (allowed : Bool) : Word := if allowed then 0 else fieldMask lo 1

theorem and_flagMask_eq_zero (w : Word) {lo : Nat} (h : lo < 32) (allowed : Bool) :
    w &&& flagMask lo allowed = 0#32 ↔ (w.getLsbD lo = true → allowed = true) := by
  cases allowed with
  | true => simp [flagMask]
  | false => simp [flagMask, and_bitMask_eq_zero w h]

/-- A row masks OPC, the reserved bits and the flags its opcode forbids, and matches the opcode's code (R93, R99). -/
theorem opcodeRow_eq (o : Opcode) :
    opcodeRow o = (0xFF ||| (0xFC888800 ||| flagMask 24 o.allowsX ||| flagMask 25 o.allowsT), o.code.setWidth 32) := by
  cases o <;> decide

/-- The word matches the opcode's row exactly when it passes each check of the decoder for that opcode (R99). -/
theorem matches_opcodeRow_iff (w : Word) (o : Opcode) :
    w &&& (opcodeRow o).1 = (opcodeRow o).2 ↔
      cmdReserved w = false ∧ w.extractLsb' 0 8 = o.code ∧ (w.getLsbD 24 = true → o.allowsX = true) ∧
        (w.getLsbD 25 = true → o.allowsT = true) := by
  have hcode : o.code.setWidth 32 &&& 0xFF = o.code.setWidth 32 := by cases o <;> decide
  have hrest : o.code.setWidth 32 &&& (0xFC888800 ||| flagMask 24 o.allowsX ||| flagMask 25 o.allowsT) = 0#32 := by
    cases o <;> decide
  rw [opcodeRow_eq, and_or_eq_iff hcode hrest, and_0xFF_eq_iff, BitVec.and_or_distrib_left, BitVec.and_or_distrib_left,
    BitVec.or_eq_zero_iff, BitVec.or_eq_zero_iff, ← cmdReserved_eq_false_iff, and_flagMask_eq_zero w (by omega),
    and_flagMask_eq_zero w (by omega)]
  tauto

/-- A pair of words decodes to the command its fields give, of the opcode whose row the command word matches (R99). -/
theorem decode_eq_ok_iff_matches (cmd param : Word) (i : Instr) :
    decode cmd param = .ok i ↔
      cmd &&& (opcodeRow (opcodeOf i)).1 = (opcodeRow (opcodeOf i)).2 ∧ buildCommand (opcodeOf i) cmd param = i := by
  rw [decode_eq_ok, matches_opcodeRow_iff]
  constructor
  · rintro ⟨hreserved, o, hcode, hx, ht, rfl⟩
    rw [opcodeOf_buildCommand]
    exact ⟨⟨hreserved, hcode, hx, ht⟩, rfl⟩
  · rintro ⟨⟨hreserved, hcode, hx, ht⟩, hbuild⟩
    exact ⟨hreserved, _, hcode, hx, ht, hbuild⟩

theorem exists_decode_iff_matches (cmd param : Word) (o : Opcode) :
    (∃ i, decode cmd param = .ok i ∧ opcodeOf i = o) ↔ cmd &&& (opcodeRow o).1 = (opcodeRow o).2 := by
  constructor
  · rintro ⟨i, hdecode, rfl⟩
    exact ((decode_eq_ok_iff_matches cmd param i).mp hdecode).1
  · intro hmatch
    refine ⟨buildCommand o cmd param, ?_, opcodeOf_buildCommand o cmd param⟩
    rw [decode_eq_ok_iff_matches, opcodeOf_buildCommand]
    exact ⟨hmatch, rfl⟩

theorem opcodeRow_unique {w : Word} {o o' : Opcode} (h : w &&& (opcodeRow o).1 = (opcodeRow o).2)
    (h' : w &&& (opcodeRow o').1 = (opcodeRow o').2) : o = o' := by
  obtain ⟨-, hcode, -⟩ := (matches_opcodeRow_iff w o).mp h
  obtain ⟨-, hcode', -⟩ := (matches_opcodeRow_iff w o').mp h'
  have hsome := (Opcode.ofCode_eq_some _ o).mpr hcode
  rw [(Opcode.ofCode_eq_some _ o').mpr hcode'] at hsome
  exact (Option.some.inj hsome).symm

theorem Opcode.code_lt (o : Opcode) : o.code.toNat < 9 := by cases o <;> decide

/-! The fields a decoded command holds (R91, R92) -/

theorem toNat_extractLsb'_eq_bitsOf (w : Word) (lo n : Nat) : (w.extractLsb' lo n).toNat = bitsOf w lo n := by
  rw [BitVec.extractLsb'_toNat, Nat.shiftRight_eq_div_pow, bitsOf]

theorem permParamRead_decode (w : Word) : PermParamRead w (decodePermParam w) :=
  ⟨toNat_extractLsb'_eq_bitsOf .., toNat_extractLsb'_eq_bitsOf .., paramReserved_eq_true_iff w⟩

theorem asmhParamRead_decode (w : Word) : AsmhParamRead w (decodeAsmhParam w) :=
  ⟨toNat_extractLsb'_eq_bitsOf .., toNat_extractLsb'_eq_bitsOf .., paramReserved_eq_true_iff w⟩

theorem fieldsRead_buildCommand (o : Opcode) (cmd param : Word) : FieldsRead cmd param (buildCommand o cmd param) := by
  cases o <;>
    simp [buildCommand, FieldsRead, descField_val, permParamRead_decode, asmhParamRead_decode]

/-! The fields of an encoded command (R105) -/

section
variable (o : Opcode) (d a b sc : DescIx) (x t : Bool)

@[simp] theorem descField_cmdWord :
    descField (cmdWord o d a b sc x t) 8 = d ∧ descField (cmdWord o d a b sc x t) 12 = a ∧
      descField (cmdWord o d a b sc x t) 16 = b ∧ descField (cmdWord o d a b sc x t) 20 = sc := by
  simp (disch := omega) only [descField, cmdWord, BitVec.extractLsb'_append_eq_of_le,
    BitVec.extractLsb'_append_eq_of_add_le]
  simp

@[simp] theorem flag_cmdWord : (cmdWord o d a b sc x t)[24] = x ∧ (cmdWord o d a b sc x t)[25] = t := by
  simp only [← BitVec.getLsbD_eq_getElem, cmdWord, BitVec.getLsbD_append]
  simp

theorem toNat_cmdWord :
    (cmdWord o d a b sc x t).toNat = o.code.toNat ||| d.val <<< 8 ||| a.val <<< 12 ||| b.val <<< 16 ||| sc.val <<< 20 |||
      x.toNat <<< 24 ||| t.toNat <<< 25 := by
  simp only [cmdWord, BitVec.toNat_append]
  simp [Nat.shiftLeft_or_distrib, ← Nat.shiftLeft_add, Nat.or_assoc, Nat.or_comm, Nat.or_left_comm]

/-- The command word is the assembler's formula (R105). -/
theorem cmdWord_eq_ofNat :
    cmdWord o d a b sc x t = BitVec.ofNat 32 (o.code.toNat ||| d.val <<< 8 ||| a.val <<< 12 ||| b.val <<< 16 |||
      sc.val <<< 20 ||| x.toNat <<< 24 ||| t.toNat <<< 25) := by
  rw [← toNat_cmdWord, BitVec.ofNat_toNat, BitVec.setWidth_eq]

end

section
variable (m : BitVec 3) (k : BitVec 5) (r : BitVec 2) (reserved : Bool)

@[simp] theorem paramReserved_paramWord : paramReserved (paramWord m k r reserved) = reserved := by
  simp (disch := omega) only [paramReserved, paramWord, BitVec.extractLsb'_append_eq_of_le,
    BitVec.extractLsb'_append_eq_of_add_le]
  cases reserved <;> simp

@[simp] theorem decodePermParam_paramWord : decodePermParam (paramWord m k r reserved) = ⟨m, k, reserved⟩ := by
  rw [decodePermParam, paramReserved_paramWord]
  simp (disch := omega) only [paramWord, BitVec.extractLsb'_append_eq_of_le, BitVec.extractLsb'_append_eq_of_add_le]
  simp

@[simp] theorem decodeAsmhParam_paramWord : decodeAsmhParam (paramWord m k r reserved) = ⟨m, r, reserved⟩ := by
  rw [decodeAsmhParam, paramReserved_paramWord]
  simp (disch := omega) only [paramWord, BitVec.extractLsb'_append_eq_of_le, BitVec.extractLsb'_append_eq_of_add_le]
  simp

theorem toNat_paramWord : (paramWord m k r false).toNat = m.toNat ||| k.toNat <<< 8 ||| r.toNat <<< 16 := by
  simp only [paramWord, BitVec.toNat_append]
  simp [Nat.shiftLeft_or_distrib, ← Nat.shiftLeft_add, Nat.or_assoc, Nat.or_comm]

/-- The parameter word without a reserved bit is the assembler's formula (R105). -/
theorem paramWord_eq_ofNat : paramWord m k r false = BitVec.ofNat 32 (m.toNat ||| k.toNat <<< 8 ||| r.toNat <<< 16) := by
  rw [← toNat_paramWord, BitVec.ofNat_toNat, BitVec.setWidth_eq]

end

theorem encode_matches_opcodeRow (i : Instr) : (encode i).1 &&& (opcodeRow (opcodeOf i)).1 = (opcodeRow (opcodeOf i)).2 := by
  cases i with
  | nop => exact Laws.EncodedLegal.nop
  | perm d x p => exact Laws.EncodedLegal.perm d x p
  | asmh d p => exact Laws.EncodedLegal.asmh d p
  | inv d a sc => exact Laws.EncodedLegal.inv d a sc
  | mul d a b x t => exact Laws.EncodedLegal.mul d a b x t
  | zero d => exact Laws.EncodedLegal.zero d
  | ident d x => exact Laws.EncodedLegal.ident d x
  | copy d a t => exact Laws.EncodedLegal.copy d a t
  | add d a b => exact Laws.EncodedLegal.add d a b

/-- The fields of the encoded words are the operands, for every command. -/
theorem buildCommand_encode (i : Instr) : buildCommand (opcodeOf i) (encode i).1 (encode i).2 = i := by
  cases i <;> simp [opcodeOf, encode, buildCommand]

/-! The fields a command reads (R101) -/

/-- Two legal command words of one opcode that agree on the fields it reads build the same command (R91, R93, R101). -/
theorem buildCommand_congr {o : Opcode} {cmd cmd' : Word} (param : Word)
    (hx : cmd.getLsbD 24 = cmd'.getLsbD 24) (ht : cmd.getLsbD 25 = cmd'.getLsbD 25)
    (hd : o ≠ .nop → descField cmd 8 = descField cmd' 8)
    (ha : o = .inv ∨ o = .mul ∨ o = .copy ∨ o = .add → descField cmd 12 = descField cmd' 12)
    (hb : o = .mul ∨ o = .add → descField cmd 16 = descField cmd' 16)
    (hsc : o = .inv → descField cmd 20 = descField cmd' 20) : buildCommand o cmd param = buildCommand o cmd' param := by
  cases o <;> simp_all [buildCommand]

/-- PARAM is read by PERM and ASMH only (R93, R104). -/
theorem buildCommand_congr_param {o : Opcode} (cmd param param' : Word) (hperm : o ≠ .perm) (hasmh : o ≠ .asmh) :
    buildCommand o cmd param = buildCommand o cmd param' := by
  cases o with
  | perm => exact absurd rfl hperm
  | asmh => exact absurd rfl hasmh
  | _ => rfl

theorem decode_congr_param {cmd param param' : Word} {i : Instr} (h : decode cmd param = .ok i)
    (hbuild : buildCommand (opcodeOf i) cmd param = buildCommand (opcodeOf i) cmd param') : decode cmd param' = .ok i := by
  rw [decode_eq_ok_iff_matches, ← hbuild]
  exact (decode_eq_ok_iff_matches cmd param i).mp h

theorem paramReserved_congr {w w' m : Word} (h : w &&& m = w' &&& m) (h3 : m.extractLsb' 3 5 = BitVec.allOnes 5)
    (h13 : m.extractLsb' 13 3 = BitVec.allOnes 3) (h18 : m.extractLsb' 18 14 = BitVec.allOnes 14) :
    paramReserved w = paramReserved w' := by
  rw [paramReserved, paramReserved, extractLsb'_eq_of_and_eq h h3, extractLsb'_eq_of_and_eq h h13,
    extractLsb'_eq_of_and_eq h h18]

/-- PERM does not read RATE (R101). -/
theorem decodePermParam_congr {w w' : Word} (h : w &&& 0xFFFCFFFF = w' &&& 0xFFFCFFFF) :
    decodePermParam w = decodePermParam w' := by
  rw [decodePermParam, decodePermParam, paramReserved_congr h (by decide) (by decide) (by decide),
    extractLsb'_eq_of_and_eq h (lo := 0) (n := 3) (by decide), extractLsb'_eq_of_and_eq h (lo := 8) (n := 5) (by decide)]

/-- ASMH does not read KIDX (R101). -/
theorem decodeAsmhParam_congr {w w' : Word} (h : w &&& 0xFFFFE0FF = w' &&& 0xFFFFE0FF) :
    decodeAsmhParam w = decodeAsmhParam w' := by
  rw [decodeAsmhParam, decodeAsmhParam, paramReserved_congr h (by decide) (by decide) (by decide),
    extractLsb'_eq_of_and_eq h (lo := 0) (n := 3) (by decide), extractLsb'_eq_of_and_eq h (lo := 16) (n := 2) (by decide)]

end Sys2Proof

namespace Sys2Proof.Machine

/-! How an undecodable word and a reserved parameter bit end (R100, R102; 40_host_interface.md R137) -/

theorem State.raise_rejected (s : State) (e : ErrorReport) : Rejected s (s.raise e) e.code e.info := by
  simp [Rejected, Completed, RegistersKept]

theorem engineTurn_of_undecodable {s : State} {snap : Snap} (h : s.eng = .busy snap)
    (hd : ∀ i, decode snap.cmd snap.param ≠ .ok i) : ∃ t, s.engineTurn = .next t ∧ Rejected s t .badOpcode 0 := by
  refine ⟨s.raise ⟨.badOpcode, 0⟩, ?_, State.raise_rejected s _⟩
  cases hdecode : decode snap.cmd snap.param with
  | error e => simp [State.engineTurn, h, hdecode]
  | ok i => exact absurd hdecode (hd i)

theorem paramChecked_of_not_wellFormed {i : Instr} (h : i.wellFormed = false) : paramChecked i = false := by
  cases i with
  | perm d x p => simp_all [Instr.wellFormed, paramChecked, permParamOk]
  | asmh d p =>
    obtain hr : p.reserved = true := by simpa [Instr.wellFormed] using h
    rw [paramChecked, asmhParamOk]
    cases bigK p.rate <;> simp [hr]
  | _ => simp [Instr.wellFormed] at h

theorem exec_of_param_error {i : Instr} (s : State) (h : paramChecked i = false) :
    ∃ t, exec i s = .next t ∧ Rejected s t .invalidParam 0 := by
  have hv : validationOf s i = some ⟨.invalidParam, 0⟩ := by simp [validationOf, State.validate, h]
  exact ⟨_, exec_of_error hv, State.raise_rejected s _⟩

/-! The statements -/

/-- Settles O16: the command word matches the row of its opcode, and each field read back is the operand written there. -/
theorem decodingInvertsEncoding : Obligations.DecodingInvertsEncoding := fun i =>
  (decode_eq_ok_iff_matches _ _ i).mpr ⟨encode_matches_opcodeRow i, buildCommand_encode i⟩

/-- Settles O15: a row is exactly the decoder's checks for its opcode, and rows differ in their codes. -/
theorem decodingFollowsTheOpcodeTable : Obligations.DecodingFollowsTheOpcodeTable := by
  refine ⟨exists_decode_iff_matches, ?fields, fun _ _ _ => opcodeRow_unique, ?noRow⟩
  case fields =>
    intro cmd param i h
    obtain ⟨-, hbuild⟩ := (decode_eq_ok_iff_matches cmd param i).mp h
    exact hbuild ▸ fieldsRead_buildCommand (opcodeOf i) cmd param
  case noRow =>
    intro s snap hbusy hrows
    refine engineTurn_of_undecodable hbusy fun i hdecode => hrows (opcodeOf i) ?_
    exact (exists_decode_iff_matches _ _ _).mp ⟨i, hdecode, rfl⟩

/-- Settles O19: a legal word decodes to what its opcode builds from the fields it reads. -/
theorem unreadFieldsAreIgnored : Obligations.UnreadFieldsAreIgnored := by
  refine ⟨?param, ?cmd, ?perm, ?asmh⟩
  case param =>
    intro cmd param param' i h hperm hasmh
    exact decode_congr_param h (buildCommand_congr_param cmd param param' hperm hasmh)
  case cmd =>
    intro cmd cmd' param i i' h h' ho hx ht hd ha hb hsc
    obtain ⟨-, hi⟩ := (decode_eq_ok_iff_matches cmd param i).mp h
    obtain ⟨-, hi'⟩ := (decode_eq_ok_iff_matches cmd' param i').mp h'
    rw [← hi, ← hi', ← ho]
    exact buildCommand_congr param hx ht (fun h => congrArg BitVec.toFin (hd h)) (fun h => congrArg BitVec.toFin (ha h))
      (fun h => congrArg BitVec.toFin (hb h)) (fun h => congrArg BitVec.toFin (hsc h))
  case perm =>
    intro cmd param param' i h ho hparam
    refine decode_congr_param h ?_
    rw [ho, buildCommand, buildCommand, decodePermParam_congr hparam]
  case asmh =>
    intro cmd param param' i h ho hparam
    refine decode_congr_param h ?_
    rw [ho, buildCommand, buildCommand, decodeAsmhParam_congr hparam]

/-- Settles O20: the reserved fields of R92 are the mask, and a command with one set fails the parameter check. -/
theorem reservedParameterBitsAreRefused : Obligations.ReservedParameterBitsAreRefused :=
  ⟨paramReserved_eq_true_iff, paramReserved_eq_true_iff,
    fun _ s hill => exec_of_param_error s (paramChecked_of_not_wellFormed hill)⟩

/-- Settles O17: each word is closed, so the decoder and the encoder evaluate. -/
theorem writtenOutWordsDecode : Obligations.WrittenOutWordsDecode := by
  unfold Obligations.WrittenOutWordsDecode
  decide

/-- Settles O18: the fields a command does not read are 0, and drop out of the formula of the whole word. -/
theorem encodingIsTheAssemblersFormula : Obligations.EncodingIsTheAssemblersFormula := by
  intro d a b sc x t m k r
  simp only [encode, cmdWord_eq_ofNat, paramWord_eq_ofNat]
  simp [Opcode.code]

/-- Settles O21: the code of every opcode is below 9. -/
theorem unassignedOpcodesRaiseBadOpcode : Obligations.UnassignedOpcodesRaiseBadOpcode := by
  intro s snap hbusy hcode
  refine engineTurn_of_undecodable hbusy fun i hdecode => ?_
  obtain ⟨-, o, ho, -⟩ := (decode_eq_ok snap.cmd snap.param i).mp hdecode
  have hlt := o.code_lt
  rw [← ho] at hlt
  omega

end Sys2Proof.Machine
end

section
/-! The register window: what an access does by its form and by the state of the engine (40_host_interface.md R120 to R130),
and the statements about single accesses. -/

namespace Sys2Proof.Machine

/-! Width and alignment (R120) -/

section
variable (s : State) {w : Width} {off : BitVec 12}

theorem State.busRead_of_refused (h : w ≠ .w32 ∨ off.toNat % 4 ≠ 0) :
    s.busRead w off = { s with resp := some ⟨some 0, true⟩ } := by
  rw [State.busRead, if_neg]
  rw [accessOk_iff]
  tauto

theorem State.busWrite_of_refused (v : Word) (h : w ≠ .w32 ∨ off.toNat % 4 ≠ 0) :
    s.busWrite w off v = { s with resp := some ⟨none, true⟩ } := by
  rw [State.busWrite, if_neg]
  rw [accessOk_iff]
  tauto

theorem State.busRead_of_aligned (h : off.toNat % 4 = 0) :
    s.busRead .w32 off = { (s.readReg (regAt off)).2 with resp := some ⟨some (s.readReg (regAt off)).1, false⟩ } := by
  rw [State.busRead, if_pos ((accessOk_iff _ _).mpr ⟨rfl, h⟩)]

theorem State.busWrite_of_aligned (v : Word) (h : off.toNat % 4 = 0) :
    s.busWrite .w32 off v = { s.writeReg v (regAt off) with resp := some ⟨none, false⟩ } := by
  rw [State.busWrite, if_pos ((accessOk_iff _ _).mpr ⟨rfl, h⟩)]

end

/-! The words CTRL and STATUS read as (R121) -/

/-- Appending is positional: the upper part counts by the weight of the lower one. -/
theorem toNat_append_eq_add {m n : Nat} (x : BitVec m) (y : BitVec n) :
    (x ++ y).toNat = 2 ^ n * x.toNat + y.toNat := by
  rw [BitVec.toNat_append, ← Nat.shiftLeft_add_eq_or_of_lt y.isLt, Nat.shiftLeft_eq, Nat.mul_comm]

theorem State.ctrlWord_eq_ofNat (s : State) : s.ctrlWord = BitVec.ofNat 32 (4 * s.irqen.toNat) := by
  have hirqen := s.irqen.toNat_le
  apply BitVec.eq_of_toNat_eq
  simp only [State.ctrlWord, toNat_append_eq_add, BitVec.toNat_ofBool, BitVec.toNat_ofNat]
  omega

theorem State.statusWord_eq_ofNat (s : State) :
    s.statusWord = BitVec.ofNat 32 (256 * s.errcode.code.toNat + 16 * s.aerr.toNat + 8 * s.ovr.toNat +
      4 * s.err.toNat + 2 * s.done.toNat + s.busy.toNat) := by
  have hcode := s.errcode.code.isLt
  have haerr := s.aerr.toNat_le
  have hovr := s.ovr.toNat_le
  have herr := s.err.toNat_le
  have hdone := s.done.toNat_le
  have hbusy := s.busy.toNat_le
  apply BitVec.eq_of_toNat_eq
  simp only [State.statusWord, toNat_append_eq_add, BitVec.toNat_ofBool, BitVec.toNat_ofNat]
  omega

/-! Accesses by the state of the engine (R125 to R128) -/

theorem State.advanceAddress_eq (s : State) :
    s.advanceAddress = { s with maddr := BitVec.ofNat 32 (s.maddr.toNat + 1) } := by
  simp [State.advanceAddress, BitVec.ofNat_add]

section
variable {s : State} (v : Word) (hidle : s.eng = .idle)
include hidle

theorem State.lockedWrite_of_idle (f : State → State) : s.lockedWrite f = f s := by
  rw [State.lockedWrite, State.busy_of_idle hidle, if_neg Bool.false_ne_true]

theorem State.mdataRead_of_inside (hin : s.maddr.toNat < s.cfg.mmemWords) :
    s.mdataRead = (s.readWord s.maddr.toNat, s.advanceAddress) := by
  rw [State.mdataRead, State.busy_of_idle hidle, if_neg Bool.false_ne_true, if_pos hin]

theorem State.mdataRead_of_outside (hout : s.cfg.mmemWords ≤ s.maddr.toNat) :
    s.mdataRead = (0, s.addressError.advanceAddress) := by
  rw [State.mdataRead, State.busy_of_idle hidle, if_neg Bool.false_ne_true, if_neg (not_lt.mpr hout)]

theorem State.mdataWrite_of_inside (hin : s.maddr.toNat < s.cfg.mmemWords) :
    s.mdataWrite v = (s.writeWord s.maddr.toNat v).advanceAddress := by
  rw [State.mdataWrite, State.busy_of_idle hidle, if_neg Bool.false_ne_true, if_pos hin]

theorem State.mdataWrite_of_outside (hout : s.cfg.mmemWords ≤ s.maddr.toNat) :
    s.mdataWrite v = s.addressError.advanceAddress := by
  rw [State.mdataWrite, State.busy_of_idle hidle, if_neg Bool.false_ne_true, if_neg (not_lt.mpr hout)]

end

section
variable {s : State} (v : Word) (hbusy : s.busy = true)
include hbusy

theorem State.lockedWrite_of_busy (f : State → State) : s.lockedWrite f = s.refuseAccess := by
  rw [State.lockedWrite, if_pos hbusy]

theorem State.mdataRead_of_busy : s.mdataRead = (0, s.refuseAccess) := by
  rw [State.mdataRead, if_pos hbusy]

theorem State.mdataWrite_of_busy : s.mdataWrite v = s.refuseAccess := by
  rw [State.mdataWrite, if_pos hbusy]

/-- A busy engine refuses a write to every register the lock covers (R126). -/
theorem State.writeReg_locked_of_busy {r : Reg} (h : r.locked = true) : s.writeReg v r = s.refuseAccess := by
  cases r with
  | id | version | ctrl | status | errinfo | mmsize | reserved => cases h
  | mdata => exact State.mdataWrite_of_busy v hbusy
  | cmd | param | maddr | base | rows | cols | stride => rw [State.writeReg, State.lockedWrite_of_busy hbusy]

end

theorem State.busy_of_eng {s : State} {snap : Snap} (h : s.eng = .busy snap) : s.busy = true := by
  rw [State.busy, h]

/-! STATUS writes (R124) -/

/-- A flag after a write that clears it where its bit is 1. -/
theorem and_not_eq_ite (flag bit : Bool) : (flag && !bit) = if bit then false else flag := by
  cases bit with
  | false => exact Bool.and_true flag
  | true => exact Bool.and_false flag

/-! CTRL writes (R123, R126, R130) -/

section
variable {s : State} {v : Word}

theorem State.writeCtrl_of_reset (h1 : v.getLsbD 1 = true) : s.writeCtrl v = s.softReset := by
  rw [State.writeCtrl, if_pos h1]

theorem State.writeCtrl_of_enable (h1 : v.getLsbD 1 = false) (h0 : v.getLsbD 0 = false) :
    s.writeCtrl v = { s with irqen := v.getLsbD 2 } := by
  rw [State.writeCtrl, h1, h0, if_neg Bool.false_ne_true, if_neg Bool.false_ne_true]

theorem State.writeCtrl_of_start (h1 : v.getLsbD 1 = false) (h0 : v.getLsbD 0 = true) :
    s.writeCtrl v = s.lockedWrite fun s => State.start { s with irqen := v.getLsbD 2 } := by
  rw [State.writeCtrl, h1, if_neg Bool.false_ne_true, if_pos h0]

theorem State.writeCtrl_of_refused_start (h1 : v.getLsbD 1 = false) (h0 : v.getLsbD 0 = true) (hbusy : s.busy = true) :
    s.writeCtrl v = s.refuseAccess := by
  rw [State.writeCtrl_of_start h1 h0, State.lockedWrite_of_busy hbusy]

theorem State.writeCtrl_of_accepted_start (h1 : v.getLsbD 1 = false) (h0 : v.getLsbD 0 = true) (hidle : s.eng = .idle) :
    s.writeCtrl v = State.start { s with irqen := v.getLsbD 2 } := by
  rw [State.writeCtrl_of_start h1 h0, State.lockedWrite_of_idle hidle]

end

/-! The statements -/

/-- Settles O6: CTRL and STATUS as numbers, the descriptor file and the reserved offsets; every other register by its offset. -/
theorem readsGiveMappedValuesAndChangeNothing : Obligations.ReadsGiveMappedValuesAndChangeNothing := by
  intro s
  refine ⟨rfl, rfl, ?ctrl, ?status, rfl, rfl, rfl, rfl, rfl, rfl, ?desc, ?reserved⟩
  case ctrl => exact Prod.ext s.ctrlWord_eq_ofNat rfl
  case status => exact Prod.ext s.statusWord_eq_ofNat rfl
  case desc =>
    intro k
    obtain ⟨hbase, hrows, hcols, hstride⟩ := regAt_desc k
    rw [hbase, hrows, hcols, hstride]
    simp [State.readReg]
  case reserved =>
    intro off h
    rw [regAt_reserved h, State.readReg]

/-- Settles O11: each refused access is `refuseAccess`, and only MDATA's read has an effect. -/
theorem busyLockRefusesAccesses : Obligations.BusyLockRefusesAccesses := by
  intro s snap off v heng
  have hbusy := State.busy_of_eng heng
  refine ⟨fun hlocked => ?locked, fun h0 h1 => ?start, ?mdata, fun hne => ?other⟩
  case locked => exact State.writeReg_locked_of_busy v hbusy hlocked
  case start => exact State.writeCtrl_of_refused_start h1 h0 hbusy
  case mdata => exact State.mdataRead_of_busy hbusy
  case other =>
    rcases s.readReg_state (regAt off) with h | ⟨hr, _⟩ | ⟨hr, _⟩ | ⟨hr, _⟩
    · exact h
    all_goals exact absurd hr hne

/-- Settles O13: MADDR inside MM, where the word is written, and outside, where the write is dropped. -/
theorem dataWindowWritePostIncrements : Obligations.DataWindowWritePostIncrements := by
  intro s v hidle hwf
  refine ⟨s.mdataWrite v, rfl, ?_⟩
  rcases lt_or_ge s.maddr.toNat s.cfg.mmemWords with hin | hout
  · rw [State.mdataWrite_of_inside v hidle hin, State.advanceAddress_eq]
    have hword := State.readWord_writeWord hwf hin v
    refine ⟨rfl, fun _ => ⟨?same, fun a ha => ?other, rfl⟩, fun hout => absurd hin (not_lt.mpr hout)⟩
    case same => exact (hword _).trans (if_pos rfl)
    case other => exact (hword a).trans (if_neg ha)
  · rw [State.mdataWrite_of_outside v hidle hout, State.advanceAddress_eq]
    exact ⟨rfl, fun hin => absurd hin (not_lt.mpr hout), fun _ => rfl⟩

/-- Settles O5: `accessOk` is exactly a 32-bit access to a multiple of 4. -/
theorem badAccessHasNoEffect : Obligations.BadAccessHasNoEffect := by
  intro s w off v
  refine ⟨fun h => ⟨s.busRead_of_refused h, s.busWrite_of_refused v h⟩, ?_⟩
  rintro rfl halign
  exact ⟨s.busRead_of_aligned halign, s.busWrite_of_aligned v halign⟩

/-- Settles O7: each of these offsets names a register whose write is the identity. -/
theorem writesToReadOnlyRegistersAreIgnored : Obligations.WritesToReadOnlyRegistersAreIgnored := by
  rintro s off v (rfl | rfl | rfl | rfl | rfl | hreserved)
  case inr.inr.inr.inr.inr => rw [regAt_reserved (.inr hreserved), State.writeReg]
  all_goals rfl

/-- Settles O8: bit 1, then bit 0 and the state of the engine decide what a CTRL write does. -/
theorem controlWriteResetsEnablesOrStarts : Obligations.ControlWriteResetsEnablesOrStarts := by
  intro s v
  refine ⟨State.writeCtrl_of_reset, State.writeCtrl_of_enable, fun h1 h0 => ⟨fun snap hbusy => ?_, ?_⟩⟩
  · exact State.writeCtrl_of_refused_start h1 h0 (State.busy_of_eng hbusy)
  · exact State.writeCtrl_of_accepted_start h1 h0

/-- Settles O9: a flag is kept exactly when its bit is 0, and irq needs DONE. -/
theorem statusWriteClearsOnlyItsFlags : Obligations.StatusWriteClearsOnlyItsFlags := by
  intro s v
  refine ⟨s.clearFlags v, rfl, ?done, ?ovr, ?aerr, rfl, fun h1 => ?irq⟩
  case done => exact and_not_eq_ite s.done (v.getLsbD 1)
  case ovr => exact and_not_eq_ite s.ovr (v.getLsbD 3)
  case aerr => exact and_not_eq_ite s.aerr (v.getLsbD 4)
  case irq => simp [State.irq, h1]

/-- Settles O10: the lock is open, and a 24-bit field keeps the low bits of the word. -/
theorem idleWritesStoreTheirFields : Obligations.IdleWritesStoreTheirFields := by
  intro s v hidle
  have hopen := State.lockedWrite_of_idle hidle
  have hlow : v.extractLsb' 0 24 = v.setWidth 24 := (BitVec.setWidth_eq_extractLsb' (by decide)).symm
  refine ⟨?cmd, ?param, ?maddr, fun k => ?desc⟩
  case cmd => exact hopen fun s => { s with cmd := v }
  case param => exact hopen fun s => { s with param := v }
  case maddr => exact hopen fun s => { s with maddr := v }
  case desc =>
    obtain ⟨hbase, hrows, hcols, hstride⟩ := regAt_desc k
    rw [hbase, hrows, hcols, hstride, hlow]
    simp only [State.writeReg, hopen]
    exact ⟨rfl, rfl, rfl, rfl⟩

/-- Settles O12: MADDR inside MM, where the word is read, and outside. -/
theorem dataWindowReadPostIncrements : Obligations.DataWindowReadPostIncrements := by
  intro s hidle
  have hread : s.readReg (regAt 0x024) = s.mdataRead := rfl
  rw [s.busRead_of_aligned (by decide), hread]
  constructor
  · intro hin
    rw [State.mdataRead_of_inside hidle hin, State.advanceAddress_eq]
  · intro hout
    rw [State.mdataRead_of_outside hidle hout, State.advanceAddress_eq]
    rfl

/-- Settles O14: an accepted START, IRQEN aside, is `State.start`. -/
theorem startLatchesTheCommand : Obligations.StartLatchesTheCommand := by
  intro s v hidle h0 h1
  have hstart : s.writeReg v (regAt 0x008) = State.start { s with irqen := v.getLsbD 2 } :=
    State.writeCtrl_of_accepted_start h1 h0 hidle
  refine ⟨_, hstart, ?_⟩
  simp [State.busy]

end Sys2Proof.Machine
end

section
/-! How a command is checked, run and ended (40_host_interface.md R131 to R138), what changes matrix memory, and the statements
about them. -/

namespace Sys2Proof.Machine

/-! Descriptor validity (R134) -/

theorem Desc.valid_iff (words : Nat) (d : Desc) :
    d.valid words = true ↔
      1 ≤ d.rows.toNat ∧ 1 ≤ d.cols.toNat ∧ (d.cols.toNat + 31) / 32 ≤ d.stride.toNat ∧
      d.base.toNat + (d.rows.toNat - 1) * d.stride.toNat + (d.cols.toNat + 31) / 32 ≤ words := by
  simp only [Desc.valid, Bool.and_eq_true, decide_eq_true_eq, and_assoc]
  rfl

/-! The first check that fails (R133) -/

theorem exec_rejected {s : State} {i : Instr} {e : ErrorReport} (h : validationOf s i = some e) :
    ∃ t, exec i s = .next t ∧ Rejected s t e.code e.info :=
  ⟨_, exec_of_error h, State.raise_rejected s e⟩

section
variable {s : State} {i : Instr} (hparam : ParamPasses i)
include hparam

theorem validationOf_of_bad_operand {before after : List DescIx} {k : DescIx} (hroles : rolesUsed i = before ++ k :: after)
    (hbefore : ∀ j ∈ before, s.OperandValid j) (hk : ¬ s.OperandValid k) :
    validationOf s i = some ⟨.badDesc, BitVec.ofNat 32 k.val⟩ := by
  have hfirst : s.firstBadDesc (rolesUsed i) = some k :=
    (s.firstBadDesc_eq_some _ k).mpr ⟨before, after, hroles, Bool.eq_false_of_not_eq_true hk, hbefore⟩
  simp [validationOf, State.validate, (paramChecked_iff i).mpr hparam, hfirst]

variable (hoperands : ∀ k ∈ rolesUsed i, s.OperandValid k)
include hoperands

theorem validationOf_of_bad_shape (hshape : ¬ ShapePasses s i) : validationOf s i = some ⟨.shapeMismatch, 0⟩ := by
  have hbad : shapeChecked s i = false := by rwa [← shapeChecked_iff s i hparam, Bool.not_eq_true] at hshape
  simp [validationOf, State.validate, (paramChecked_iff i).mpr hparam, (s.firstBadDesc_eq_none _).mpr hoperands, hbad]

theorem validationOf_of_overlap (hshape : ShapePasses s i) (hoverlap : OverlapFails s i) :
    validationOf s i = some ⟨.overlap, 0⟩ := by
  simp [validationOf, State.validate, (paramChecked_iff i).mpr hparam, (s.firstBadDesc_eq_none _).mpr hoperands,
    (shapeChecked_iff s i hparam).mpr hshape, (overlapChecked_iff s i).mpr hoverlap]

end

/-! The command a turn runs (R131, R132) -/

theorem engineTurn_of_decoded {s : State} {snap : Snap} {i : Instr} (h : s.eng = .busy snap)
    (hd : decode snap.cmd snap.param = .ok i) : s.engineTurn = exec i s := by
  simp only [State.engineTurn, h, hd]

/-- The words of an opcode-table row decode to the command the row does (30_encoding.md R90). -/
theorem decode_of_decodeTableWord {nbits w : Nat} {i : Instr} (h : decodeTableWord nbits w = some i) :
    decode (BitVec.ofNat 32 (w % 2 ^ nbits)) (BitVec.ofNat 32 ((w % 2 ^ nbits) >>> 32)) = .ok i := by
  simp only [decodeTableWord] at h
  cases hd : decode (BitVec.ofNat 32 (w % 2 ^ nbits)) (BitVec.ofNat 32 ((w % 2 ^ nbits) >>> 32)) with
  | error e => rw [hd] at h; cases h
  | ok j => rw [hd] at h; rw [Option.some.inj h]

/-! Outcomes (R131, R137, R138) -/

/-- A command ends with the error validation found, with success, or, for INV alone, with SINGULAR. -/
theorem exec_outcome {i : Instr} {s t : State} (h : exec i s = .next t) :
    (∃ e, validationOf s i = some e ∧ t = s.raise e) ∨ t.errcode = .none ∨
      (opcodeOf i = .inv ∧ t.errcode = .singular) := by
  rcases exec_cases i s with ⟨e, he, h'⟩ | ⟨-, h'⟩ | ⟨d, -, -, -, -, h'⟩ | ⟨d, a, sc, rfl, -, ⟨k, -, h'⟩ | ⟨x, -, h'⟩⟩
  all_goals obtain rfl := Host.Outcome.next.inj (h.symm.trans h')
  · exact .inl ⟨e, he, rfl⟩
  · exact .inr (.inl rfl)
  · exact .inr (.inl rfl)
  · exact .inr (.inr ⟨rfl, rfl⟩)
  · exact .inr (.inl rfl)

/-- The turn of a busy engine ends in a raised error with nothing else changed, in success or in SINGULAR. -/
theorem engineTurn_outcome {s t : State} (hbusy : s.busy = true) (h : s.engineTurn = .next t) :
    (∃ code info, Rejected s t code info) ∨ t.errcode = .none ∨ t.errcode = .singular := by
  cases heng : s.eng with
  | idle => simp [State.busy, heng] at hbusy
  | busy snap =>
    cases hd : decode snap.cmd snap.param with
    | error e =>
      obtain ⟨u, hu, hrej⟩ := engineTurn_of_undecodable heng (by simp [hd])
      obtain rfl := Host.Outcome.next.inj (h.symm.trans hu)
      exact .inl ⟨_, _, hrej⟩
    | ok i =>
      rw [engineTurn_of_decoded heng hd] at h
      rcases exec_outcome h with ⟨e, -, rfl⟩ | hnone | ⟨-, hsingular⟩
      · exact .inl ⟨_, _, State.raise_rejected s e⟩
      · exact .inr (.inl hnone)
      · exact .inr (.inr hsingular)

section
variable {s t : State} {ds : List Desc} (h : MemoryKept s t ds)
include h

/-- A completion does not touch MM. -/
theorem MemoryKept.raise (e : ErrorReport) : MemoryKept s (t.raise e) ds := h
theorem MemoryKept.complete : MemoryKept s t.complete ds := h

end

/-- Whatever the outcome, a command keeps MM outside its write set (R138). -/
theorem exec_memoryKept {i : Instr} {s t : State} (hwf : Memory.wf s.cfg.mmemWords s.mm) (h : exec i s = .next t) :
    MemoryKept s t ((writeRoles i).map s.operand) := by
  rcases exec_cases i s with
    ⟨e, -, h'⟩ | ⟨-, h'⟩ | ⟨d, -, -, hroles, -, h'⟩ | ⟨d, a, sc, rfl, -, ⟨k, -, h'⟩ | ⟨x, -, h'⟩⟩
  all_goals obtain rfl := Host.Outcome.next.inj (h.symm.trans h')
  · exact (MemoryKept.refl s _).raise e
  · exact (MemoryKept.refl s _).complete
  · rw [hroles]
    exact (State.store_memoryKept s (s.operand d) _ hwf).complete
  · exact (State.scramble_memoryKept s [s.operand d, s.operand sc] hwf).raise _
  · have hstore := State.store_memoryKept s (s.operand d) (BitMat.at x) hwf
    have hfree := State.scramble_memoryKept (s.store (s.operand d) (BitMat.at x)) [s.operand sc] (State.store_wf s _ _ hwf)
    exact (hstore.trans hfree).complete

/-- Only INV takes a new draw (43_invert.md R205; log 4). -/
theorem exec_draws {i : Instr} {s t : State} (h : exec i s = .next t) (hi : opcodeOf i ≠ .inv) : t.draws = s.draws := by
  rcases exec_cases i s with ⟨e, -, h'⟩ | ⟨-, h'⟩ | ⟨d, -, -, -, -, h'⟩ | ⟨d, a, sc, rfl, -⟩
  case inr.inr.inr => exact absurd rfl hi
  all_goals
    obtain rfl := Host.Outcome.next.inj (h.symm.trans h')
    rfl

theorem eq_nop_of_opcodeOf {i : Instr} (h : opcodeOf i = .nop) : i = .nop := by
  cases i with
  | nop => rfl
  | _ => cases h

/-! What changes matrix memory (R129, 20_memory.md R73) -/

theorem State.softReset_mm_of_idle {s : State} (h : s.eng = .idle) : s.softReset.mm = s.mm := by
  rw [State.softReset, h]
  rfl

/-- The inputs that change MM, or the draw of its unwritten words, and the engine state each needs. -/
theorem InputEffect.memory_changes {s t : State} {i : Input} (h : InputEffect s i t)
    (hne : t.mm ≠ s.mm ∨ t.powerDraw ≠ s.powerDraw) :
    (s.busy = false ∧ s.maddr.toNat < s.cfg.mmemWords ∧ ∃ v, i = .write .w32 0x024 v) ∨
    (s.busy = true ∧ t.busy = false ∧ t.done = true ∧ i = .complete) ∨
    (s.busy = true ∧ ∃ v, i = .write .w32 0x008 v ∧ v.getLsbD 1 = true) ∨ i = .powerOn := by
  cases h with
  | word v _ idle inside => exact .inl ⟨idle, inside, v, rfl⟩
  | completed _ busy _ idle done => exact .inr (.inl ⟨busy, State.busy_of_idle idle, done, rfl⟩)
  | softReset v _ reset =>
    cases hb : s.busy with
    | true => exact .inr (.inr (.inl ⟨rfl, v, rfl, reset⟩))
    | false => simp [State.softReset_mm_of_idle (State.eng_of_not_busy hb)] at hne
  | powerOn => exact .inr (.inr (.inr rfl))
  | _ => simp at hne

/-! The statements -/

/-- Settles O33: each check in its order gives the error validation reports, and a command whose checks pass has none. -/
theorem firstFailingCheckIsReported : Obligations.FirstFailingCheckIsReported := by
  refine ⟨?decode, fun i s => ⟨?param, ?desc, ?shape, ?overlap, ?pass⟩⟩
  case decode =>
    intro s snap e hbusy hd
    exact engineTurn_of_undecodable hbusy (by simp [hd])
  case param =>
    intro hparam
    exact exec_of_param_error s (by rwa [← paramChecked_iff, Bool.not_eq_true] at hparam)
  case desc =>
    intro before k after hparam hroles hbefore hk
    exact exec_rejected (validationOf_of_bad_operand hparam hroles hbefore hk)
  case shape =>
    intro hparam hoperands hshape
    exact exec_rejected (validationOf_of_bad_shape hparam hoperands hshape)
  case overlap =>
    intro hparam hoperands hshape hoverlap
    exact exec_rejected (validationOf_of_overlap hparam hoperands hshape hoverlap)
  case pass =>
    intro hchecks
    obtain ⟨t, ht, -⟩ := exec_spec i s
    refine ⟨t, ht, (exec_outcome ht).resolve_left ?_⟩
    rintro ⟨e, he, -⟩
    rw [(validationOf_eq_none s i).mpr hchecks] at he
    cases he

/-- Settles O34: the other two outcomes of a turn have the codes 0 and 6. -/
theorem validationFailureChangesNothingElse : Obligations.ValidationFailureChangesNothingElse := by
  intro s t h hbusy hcode
  rcases engineTurn_outcome hbusy h with ⟨code, info, ⟨-, -, hidle, hdone⟩, hkept, hmm, -⟩ | hnone | hsingular
  · exact ⟨hmm, hkept, hidle, hdone⟩
  · simp [hnone] at hcode
  · simp [hsingular] at hcode

/-- Settles O35: the frame of MM by the outcome, and the completion record every command leaves. -/
theorem commandsWriteOnlyTheirWriteSet : Obligations.CommandsWriteOnlyTheirWriteSet := by
  intro i s t hwf h
  obtain ⟨u, hu, hkept, hidle, hdone, -⟩ := exec_spec i s
  obtain rfl := Host.Outcome.next.inj (h.symm.trans hu)
  refine ⟨exec_memoryKept hwf h, hkept, hidle, hdone, exec_draws h, fun hnop => ?_⟩
  rw [eq_nop_of_opcodeOf hnop, exec_nop] at h
  rw [← Host.Outcome.next.inj h, State.complete_mm]

/-- Settles O56: each input that changes MM is one of the four named agents. -/
theorem memoryChangesOnlyAsStated : Obligations.MemoryChangesOnlyAsStated := by
  intro s t h hne
  obtain ⟨i, rest, htakes, heff⟩ := step_effect h
  rcases heff.memory_changes hne with
    ⟨hidle, hin, v, rfl⟩ | ⟨hbusy, hidle, hdone, rfl⟩ | ⟨hbusy, v, rfl, hreset⟩ | rfl
  · exact .inl ⟨hidle, hin, v, rest, htakes.inputs_eq (by simp)⟩
  · exact .inr (.inl ⟨hbusy, hidle, hdone, htakes.inputs_of_complete⟩)
  · exact .inr (.inr (.inl ⟨hbusy, v, rest, htakes.inputs_eq (by simp), hreset⟩))
  · exact .inr (.inr (.inr ⟨rest, htakes.inputs_eq (by simp)⟩))

/-- Settles O22: the four conditions of DescValid; the examples are closed, and one row in the last word ends at `words`. -/
theorem descriptorValidityIsExact : Obligations.DescriptorValidityIsExact := by
  refine ⟨Desc.valid_iff, by decide, by decide, by decide, fun words b cols stride hcols hword hstride hlast => ?_⟩
  rw [Desc.valid_iff]
  have hrows : (1 : BitVec 24).toNat = 1 := rfl
  simp only [hrows]
  omega

/-- Settles O48: both forms of a busy engine's step are its turn, and withFetchWord latches the words of the row. -/
theorem stepRunsTheDecodedCommand : Obligations.StepRunsTheDecodedCommand := by
  refine ⟨fun s snap i hbusy hd => ⟨fun hnil => ?nothing, fun rest hcons => ?completion⟩, fun s nbits w i hw => ?word⟩
  case nothing => rw [step_of_inputs_nil hnil, engineTurn_of_decoded hbusy hd]
  case completion =>
    rw [step_of_inputs_cons hcons, State.handle_complete]
    exact engineTurn_of_decoded hbusy hd
  case word =>
    have hinputs : (s.withFetchWord nbits w).inputs = .complete :: s.inputs := rfl
    rw [step_of_inputs_cons hinputs, State.handle_complete]
    exact engineTurn_of_decoded rfl (decode_of_decodeTableWord hw)

end Sys2Proof.Machine
end

section
/-! The permutation sub-matrix (41_permutation.md R160 to R165), what a command writes through its destination, and the commands
that add to it (R163, 44_multiply.md R221, 45_matrix_utility.md R242). -/

namespace Sys2Proof.Machine

/-! Where the 1 of a row lies (R160, R164) -/

section
variable (p : Params) (mcode k i : Nat)

/-- Row i of quadrant j has its 1 in column quadrant (theta[k − 1] + j) mod 4. -/
theorem permColumn_div :
    permColumn p mcode k i / (32 * 2 ^ mcode) = (thetaAt p k + i / (32 * 2 ^ mcode)) % 4 := by
  have hpos : 0 < 32 * 2 ^ mcode := by positivity
  rw [permColumn_eq, Nat.mul_add_div hpos, Nat.div_eq_of_lt (Nat.mod_lt _ hpos), Nat.add_zero]

/-- Inside its column quadrant the 1 is shifted cyclically by phi. -/
theorem permColumn_mod :
    permColumn p mcode k i % (32 * 2 ^ mcode) = (phiAt p (i / (32 * 2 ^ mcode)) mcode k + i) % (32 * 2 ^ mcode) := by
  rw [permColumn_eq, Nat.mul_add_mod, Nat.mod_mod]

end

/-- A column of Π_k determines the quadrant of its row, and then the row's place in the quadrant. -/
theorem permColumn_injOn (p : Params) (mcode k : Nat) : Set.InjOn (permColumn p mcode k) (Finset.range (128 * 2 ^ mcode)) := by
  intro i hi j hj h
  have hquadrant : ∀ n ∈ Finset.range (128 * 2 ^ mcode), n / (32 * 2 ^ mcode) < 4 := by
    intro n hn
    rw [Finset.mem_range] at hn
    exact Nat.div_lt_of_lt_mul (by omega)
  have hdiv : i / (32 * 2 ^ mcode) = j / (32 * 2 ^ mcode) := by
    have hcol := congrArg (· / (32 * 2 ^ mcode)) h
    simp only [permColumn_div] at hcol
    exact (Nat.ModEq.add_left_cancel' _ hcol).eq_of_lt_of_lt (hquadrant i hi) (hquadrant j hj)
  have hmod : i % (32 * 2 ^ mcode) = j % (32 * 2 ^ mcode) := by
    have hcol := congrArg (· % (32 * 2 ^ mcode)) h
    simp only [permColumn_mod, hdiv] at hcol
    exact Nat.ModEq.add_left_cancel' _ hcol
  rw [← Nat.div_add_mod i (32 * 2 ^ mcode), hdiv, hmod, Nat.div_add_mod]

/-- Π_k has a 1 in every column: it has as many rows as columns, and no two rows share one. -/
theorem permColumn_surjOn (p : Params) (mcode k : Nat) :
    Set.SurjOn (permColumn p mcode k) (Finset.range (128 * 2 ^ mcode)) (Finset.range (128 * 2 ^ mcode)) :=
  Finset.surjOn_of_injOn_of_card_le _ (fun i _ => by simpa using permColumn_lt p mcode k i) (permColumn_injOn p mcode k)
    (le_refl _)

/-- Settles O29: the quadrant and the shift of each row, and each column is that of exactly one row. -/
theorem permutationMatrixHasOneOnePerColumn : Obligations.PermutationMatrixHasOneOnePerColumn := by
  intro p mcode k _ _ _
  refine ⟨fun i _ => ⟨permColumn_lt p mcode k i, permColumn_div p mcode k i, permColumn_mod p mcode k i⟩, fun c hc => ?_⟩
  obtain ⟨i, hi, rfl⟩ := permColumn_surjOn p mcode k (by simpa using hc)
  exact ⟨i, by simpa using hi, rfl, fun j hj h => permColumn_injOn p mcode k (by simpa using hj) hi h⟩

/-- Settles O28: the rows below 32 are those of quadrant 0, which goes to quadrant 3 under the shift 1. -/
theorem firstPermutationHasTheWorkedColumns : Obligations.FirstPermutationHasTheWorkedColumns := by
  rintro p ⟨htheta, hphi⟩
  have hrow : ∀ i < 32, permColumn p 0 1 i = 96 + (1 + i) % 32 := by
    intro i hi
    have htheta' : thetaAt p 1 = 3 := htheta
    have hphi' : phiAt p 0 0 1 = 1 := hphi
    have hquadrant : i / (32 * 2 ^ 0) = 0 := Nat.div_eq_of_lt hi
    rw [permColumn_eq, hquadrant, htheta', hphi']
    norm_num
  exact ⟨hrow 0 (by decide), hrow 30 (by decide), hrow 31 (by decide), hrow⟩

/-- Settles O25: the reserved fields of R92 are the mask of R162, and a parameter that fails is refused by validation. -/
theorem permParameterCheckIsExact : Obligations.PermParameterCheckIsExact := by
  refine ⟨fun w => ?_, fun _ _ _ s hbad => exec_of_param_error s hbad⟩
  have hreserved : (decodePermParam w).reserved = false ↔ w &&& 0xFFFCE0F8 = 0 := by
    rw [decodePermParam, ← Bool.not_eq_true, paramReserved_eq_true_iff, not_ne_iff]
  simp only [permParamOk, Bool.and_eq_true, decide_eq_true_eq, Bool.not_eq_true', hreserved, and_assoc]
  rfl

/-! What a command writes (R138) -/

/-- A command keeps the canonical form of MM. -/
theorem exec_wf {i : Instr} {s t : State} (h : exec i s = .next t) (hwf : Memory.wf s.cfg.mmemWords s.mm) :
    Memory.wf s.cfg.mmemWords t.mm := by
  obtain ⟨u, hu, -, -, -, -, -, hkept⟩ := exec_spec i s
  obtain rfl := Host.Outcome.next.inj (h.symm.trans hu)
  exact hkept hwf

/-- A command other than NOP and INV whose checks pass succeeds, and each element of its destination is that of its result. -/
theorem exec_writes_resultMatrix {s : State} {i : Instr} {d : DescIx} (hwf : Memory.wf s.cfg.mmemWords s.mm)
    (hc : ChecksPass s i) (hd : destination i = [d]) (hi : opcodeOf i ≠ .inv) :
    ∃ t, exec i s = .next t ∧ Succeeded s t [s.operand d] ∧ t.draws = s.draws ∧
      ∀ r < s.rowsOf d, ∀ c < s.colsOf d, t.bit (s.operand d) r c = (resultMatrix s i).at r c := by
  have hexec := exec_of_checks hc hd hi
  obtain ⟨-, hoperands, -, -⟩ := hc
  have hvalid : s.OperandValid d := hoperands d (mem_rolesUsed_of_mem_destination (by simp [hd]))
  refine ⟨_, hexec, ⟨by simp [Completed], by simp [RegistersKept], ?_⟩, rfl, fun r hr c hcol => ?_⟩
  · exact (State.store_memoryKept s (s.operand d) _ hwf).complete
  · exact State.bit_store s _ _ hwf hvalid hr hcol

/-- With X the result is added to the old destination. -/
theorem at_accumulated (s : State) {d : Desc} (x : Bool) {m : BitMat} (hm : m.length = d.rows.toNat) {r c : Nat}
    (hr : r < d.rows.toNat) (hc : c < d.cols.toNat) :
    (if x then (s.mat d).xor m else m).at r c = ((x && s.bit d r c) ^^ m.at r c) := by
  cases x with
  | false => simp
  | true => simp [BitMat.at_xor _ _ ((s.mat_length d).trans hm.symm), State.at_mat, hr, hc]

/-- Settles O37: the result is Π_k, or with X the old destination with Π_k added, and each row of Π_k has one 1. -/
theorem permWritesThePermutation : Obligations.PermWritesThePermutation := by
  intro d x p s hwf hc
  obtain ⟨t, ht, hsucc, hdraws, hbits⟩ := exec_writes_resultMatrix hwf hc rfl (by simp [opcodeOf])
  refine ⟨t, ht, hsucc, hdraws, fun r hr c hcol => ?_⟩
  obtain ⟨-, -, ⟨hrows, hcols⟩, -⟩ := hc
  have hr' : r < s.rowsOf d := hrows ▸ hr
  have hcol' : c < s.colsOf d := hcols ▸ hcol
  have hlength := (permMatrix_length s.cfg p.mcode.toNat p.kidx.toNat).trans hrows.symm
  have hrow : r < 128 * 2 ^ p.mcode.toNat := hr
  rw [hbits r hr' c hcol', resultMatrix, at_accumulated s x hlength hr' hcol', at_permMatrix, decide_eq_true hrow,
    Bool.true_and]

/-! Commands with X (R163, 44_multiply.md R221, 45_matrix_utility.md R242) -/

/-- The commands with X set whose destination is d (30_encoding.md R91). -/
inductive AccumulatesInto (d : DescIx) : Instr → Prop where
  | perm (p : PermParam) : AccumulatesInto d (.perm d true p)
  | ident : AccumulatesInto d (.ident d true)
  | mul (a b : DescIx) (t : Bool) : AccumulatesInto d (.mul d a b true t)

/-- The command with X clear. -/
def withoutX : Instr → Instr
  | .perm d _ p => .perm d false p
  | .ident d _ => .ident d false
  | .mul d a b _ t => .mul d a b false t
  | i => i

section
variable {s u : State} {i : Instr} {d : DescIx}

/-- START does not touch MM (R130). -/
theorem MemoryKept.start {ds : List Desc} (h : MemoryKept s u ds) : MemoryKept s u.start ds := h
theorem State.start_bit (e : Desc) (r c : Nat) : s.start.bit e r c = s.bit e r c := rfl

/-- The elements of a matrix that does not overlap the one written are kept. -/
theorem MemoryKept.mat_of_disjoint {e f : Desc} (h : MemoryKept s u [e]) (hdisjoint : e.overlaps f = false) :
    u.mat f = s.mat f := by
  refine State.mat_congr fun r hr c hc => h _ _ (Nat.mod_lt _ (by decide)) fun g hg hholds => ?_
  rw [List.mem_singleton.mp hg, Desc.holds_iff _ (Nat.mod_lt _ (by decide))] at hholds
  have hnone : e.elementAt (32 * f.addr r c + c % 32) = none := Desc.elementAt_of_disjoint hdisjoint hr hc
  simp [hnone] at hholds

/-- MM is restored when its bits outside a matrix and the elements of the matrix are. -/
theorem MemoryKept.readWord_eq {e : Desc} (h : MemoryKept s u [e])
    (hbits : ∀ r < e.rows.toNat, ∀ c < e.cols.toNat, u.bit e r c = s.bit e r c) (a : Nat) : u.readWord a = s.readWord a := by
  refine BitVec.eq_of_getLsbD_eq fun n hn => ?_
  by_cases hholds : e.holds a n
  · obtain ⟨r, c, hr, hc, rfl, rfl⟩ := hholds
    exact hbits r hr c hc
  · exact h a n hn fun f hf => List.mem_singleton.mp hf ▸ hholds

/-- Every check depends on the parameters and the operands alone (40_host_interface.md R133). -/
theorem ChecksPass.congr (hcfg : u.cfg = s.cfg) (hop : u.operand = s.operand) (h : ChecksPass s i) : ChecksPass u i := by
  have hshape : ShapePasses u i = ShapePasses s i := by
    cases i with
    | mul d a b x t => cases t <;> simp only [ShapePasses, State.rowsOf, State.colsOf, hop]
    | copy d a t => cases t <;> simp only [ShapePasses, State.rowsOf, State.colsOf, hop]
    | _ => simp only [ShapePasses, State.rowsOf, State.colsOf, hop]
  have hoverlap : OverlapFails u i = OverlapFails s i := by
    cases i with
    | copy d a t => cases t <;> simp only [OverlapFails, State.Overlap, State.Identical, hop]
    | _ => simp only [OverlapFails, State.Overlap, State.Identical, hop]
  rwa [ChecksPass, hshape, hoverlap, forall₂_congr fun k _ => by rw [State.OperandValid, hcfg, hop, ← State.OperandValid]]

variable (hacc : AccumulatesInto d i)
include hacc

theorem AccumulatesInto.destination_eq : destination i = [d] := by cases hacc <;> rfl

theorem AccumulatesInto.opcodeOf_ne_inv : opcodeOf i ≠ .inv := by cases hacc <;> simp [opcodeOf]

/-- What a command with X adds has the rows of its destination. -/
theorem AccumulatesInto.addend_length (hshape : ShapePasses s i) :
    (resultMatrix s (withoutX i)).length = s.rowsOf d := by
  cases hacc with
  | perm p =>
    obtain ⟨hrows, -⟩ := hshape
    exact (permMatrix_length ..).trans hrows.symm
  | ident => exact BitMat.ident_length _
  | mul a b t =>
    cases t with
    | false =>
      obtain ⟨-, hrows, -⟩ := hshape
      exact (BitMat.mul_length ..).trans ((State.mat_length ..).trans hrows.symm)
    | true =>
      obtain ⟨-, hrows, -⟩ := hshape
      exact (BitMat.transpose_length ..).trans hrows.symm

/-- A command with X adds what it writes with X clear. -/
theorem AccumulatesInto.at_resultMatrix (hshape : ShapePasses s i) {r c : Nat} (hr : r < s.rowsOf d) (hc : c < s.colsOf d) :
    (resultMatrix s i).at r c = (s.bit (s.operand d) r c ^^ (resultMatrix s (withoutX i)).at r c) := by
  have hresult : resultMatrix s i = (s.mat (s.operand d)).xor (resultMatrix s (withoutX i)) := by cases hacc <;> rfl
  rw [hresult]
  exact at_accumulated s true (hacc.addend_length hshape) hr hc

/-- What a command with X adds does not change while it writes: its sources do not overlap its destination. -/
theorem AccumulatesInto.addend_congr (hcfg : u.cfg = s.cfg) (hop : u.operand = s.operand)
    (hkept : MemoryKept s u [s.operand d]) (hoverlap : ¬ OverlapFails s i) :
    resultMatrix u (withoutX i) = resultMatrix s (withoutX i) := by
  cases hacc with
  | perm p => simp [withoutX, resultMatrix, hcfg]
  | ident => simp [withoutX, resultMatrix, hop]
  | mul a b t =>
    simp only [OverlapFails, State.Overlap, not_or, Bool.not_eq_true] at hoverlap
    obtain ⟨ha, hb⟩ := hoverlap
    simp [withoutX, resultMatrix, hop, hkept.mat_of_disjoint ha, hkept.mat_of_disjoint hb]

/-- A command with X whose checks pass XORs its addend into each element of its destination. -/
theorem AccumulatesInto.exec_adds (hwf : Memory.wf s.cfg.mmemWords s.mm) (hc : ChecksPass s i) :
    ∃ t, exec i s = .next t ∧ Succeeded s t [s.operand d] ∧ ∀ r < s.rowsOf d, ∀ c < s.colsOf d,
      t.bit (s.operand d) r c = (s.bit (s.operand d) r c ^^ (resultMatrix s (withoutX i)).at r c) := by
  obtain ⟨t, ht, hsucc, -, hbits⟩ := exec_writes_resultMatrix hwf hc hacc.destination_eq hacc.opcodeOf_ne_inv
  obtain ⟨-, -, hshape, -⟩ := hc
  refine ⟨t, ht, hsucc, fun r hr c hcol => ?_⟩
  rw [hbits r hr c hcol, hacc.at_resultMatrix hshape hr hcol]

/-- A command with X issued twice with the same operands restores MM: each element has one addend XORed into it twice. -/
theorem AccumulatesInto.exec_restores (hwf : Memory.wf s.cfg.mmemWords s.mm) (hc : ChecksPass s i)
    (hop : ∀ t, RegistersKept s t → t.start.operand = s.operand) :
    ∃ t u, exec i s = .next t ∧ exec i t.start = .next u ∧ ∀ a, u.readWord a = s.readWord a := by
  obtain ⟨t, ht, ⟨-, hregs, hfirst⟩, hbits⟩ := hacc.exec_adds hwf hc
  have hcfg : t.start.cfg = s.cfg := hregs.cfg_eq
  have hsame : t.start.operand = s.operand := hop t hregs
  have hwf' : Memory.wf t.start.cfg.mmemWords t.start.mm := by
    rw [hcfg, State.start_mm]
    exact exec_wf ht hwf
  obtain ⟨u, hu, ⟨-, -, hsecond⟩, hbits'⟩ := hacc.exec_adds hwf' (hc.congr hcfg hsame)
  obtain ⟨-, -, -, hoverlap⟩ := hc
  simp only [State.rowsOf, State.colsOf, hsame, hacc.addend_congr hcfg hsame hfirst.start hoverlap] at hsecond hbits'
  have hkept : MemoryKept s u [s.operand d] := (hfirst.start.trans hsecond).mono (by simp)
  refine ⟨t, u, ht, hu, hkept.readWord_eq fun r hr c hcol => ?_⟩
  rw [hbits' r hr c hcol, State.start_bit, hbits r hr c hcol, Bool.xor_assoc, Bool.xor_self, Bool.xor_false]

end

/-- A state that meets the invariant latches what its registers hold, busy or idle, so a command issued again has the same
operands (R41, 40_host_interface.md R130). -/
theorem State.Inv.operand_start {s t : State} (h : s.Inv) (hkept : RegistersKept s t) : t.start.operand = s.operand := by
  obtain ⟨-, -, -, -, hbusy, -⟩ := h
  obtain ⟨-, -, -, -, -, -, hmd, -⟩ := hkept
  have hlatched : s.latched.md = s.md := by
    rw [State.latched]
    cases heng : s.eng with
    | idle => rfl
    | busy snap =>
      obtain ⟨rfl, -⟩ := hbusy snap heng
      rfl
  funext k
  rw [State.operand, State.operand, hlatched, ← hmd]
  rfl

/-- Settles O47: each of the three forms accumulates into its destination, and the second START latches the same operands. -/
theorem accumulatingTwiceRestoresMemory : Obligations.AccumulatingTwiceRestoresMemory := by
  intro i s hinv hform hc
  obtain ⟨d, hacc⟩ : ∃ d, AccumulatesInto d i := by
    rcases hform with ⟨d, p, rfl⟩ | ⟨d, rfl⟩ | ⟨d, a, b, t, rfl⟩
    · exact ⟨d, .perm p⟩
    · exact ⟨d, .ident⟩
    · exact ⟨d, .mul a b t⟩
  have hwf : Memory.wf s.cfg.mmemWords s.mm := by obtain ⟨hwf, -⟩ := hinv; exact hwf
  exact hacc.exec_restores hwf hc fun _ => hinv.operand_start

end Sys2Proof.Machine
end

section
/-! The parity-check matrix assembler: the parameters it accepts (42_assembler.md R181, R182), its templates (R184 to R187, R190),
and the first block row of H (R188, R189). -/

namespace Sys2Proof.Machine

/-! The parameters ASMH accepts (R181, R182) -/

/-- The rates with their bigK (30_encoding.md R97). -/
theorem bigK_eq_some_iff (rate : BitVec 2) (k : Nat) :
    bigK rate = some k ↔ rate = 0 ∧ k = 2 ∨ rate = 1 ∧ k = 4 ∨ rate = 2 ∧ k = 8 := by
  have hcode : rate = 0 ∨ rate = 1 ∨ rate = 2 ∨ rate = 3 := by
    revert rate
    decide
  rcases hcode with rfl | rfl | rfl | rfl <;> simp [bigK, eq_comm]

theorem supportedPair_iff (m k : Nat) : supportedPair m k = true ↔ k * m = 1024 ∨ k * m = 4096 ∨ k * m = 16384 := by
  simp [supportedPair, or_assoc]

/-- The parameter check passes with no reserved bit, a rate, and a size that rate supports. -/
theorem asmhParamOk_iff (p : AsmhParam) :
    asmhParamOk p = true ↔
      p.reserved = false ∧ ∃ k, bigK p.rate = some k ∧ p.mcode.toNat ≤ 6 ∧ supportedPair (matrixSize p.mcode) k = true := by
  rw [asmhParamOk]
  cases bigK p.rate with
  | none => simp
  | some k => simp [and_comm]

/-- The sizes each bigK supports: the rows of the table of R181. -/
theorem supportedPair_table (m : BitVec 3) :
    (m.toNat ≤ 6 ∧ supportedPair (matrixSize m) 2 = true ↔ m = 2 ∨ m = 4 ∨ m = 6) ∧
    (m.toNat ≤ 6 ∧ supportedPair (matrixSize m) 4 = true ↔ m = 1 ∨ m = 3 ∨ m = 5) ∧
    (m.toNat ≤ 6 ∧ supportedPair (matrixSize m) 8 = true ↔ m = 0 ∨ m = 2 ∨ m = 4) := by
  revert m
  decide

/-- The parameter check accepts the nine pairs of the table (R181). -/
theorem asmhParamOk_iff_pair (p : AsmhParam) :
    asmhParamOk p = true ↔
      p.reserved = false ∧
      ((p.rate = 0 ∧ (p.mcode = 2 ∨ p.mcode = 4 ∨ p.mcode = 6)) ∨ (p.rate = 1 ∧ (p.mcode = 1 ∨ p.mcode = 3 ∨ p.mcode = 5)) ∨
        (p.rate = 2 ∧ (p.mcode = 0 ∨ p.mcode = 2 ∨ p.mcode = 4))) := by
  obtain ⟨htwo, hfour, height⟩ := supportedPair_table p.mcode
  rw [asmhParamOk_iff, ← htwo, ← hfour, ← height]
  simp only [bigK_eq_some_iff, or_and_right, exists_or, and_assoc, exists_and_left, exists_eq_left]

theorem decodeAsmhParam_reserved_eq_false_iff (w : Word) :
    (decodeAsmhParam w).reserved = false ↔ w &&& 0xFFFCE0F8 = 0 := by
  rw [decodeAsmhParam, ← Bool.not_eq_true, paramReserved_eq_true_iff, not_ne_iff]

/-- Settles O26: each rate's bigK with the sizes it supports, and a parameter that fails is refused by validation. -/
theorem asmhAcceptsExactlyTheNinePairs : Obligations.AsmhAcceptsExactlyTheNinePairs :=
  ⟨asmhParamOk_iff_pair, decodeAsmhParam_reserved_eq_false_iff, fun _ _ => decodeAsmhParam_congr,
    fun _ _ _ _ => supportedPair_iff _ _, fun _ _ s hbad => exec_of_param_error s hbad⟩

/-! The templates (R184 to R187, R190) -/

/-- Block row 0 at every rate: the zero blocks of the information columns, then `I | 0 | I⊕Π1` (R184 to R186). -/
theorem template_first_row {rate : BitVec 2} {k : Nat} (h : bigK rate = some k) :
    (template rate).getD 0 [] = List.replicate k zeroBlock ++ [identBlock, zeroBlock, identPlus 1] := by
  rcases (bigK_eq_some_iff rate k).mp h with ⟨rfl, rfl⟩ | ⟨rfl, rfl⟩ | ⟨rfl, rfl⟩ <;> rfl

/-- Settles O32: the blocks are written out in the templates, and dropping a rate's information columns leaves those of P. -/
theorem templatesShareTheParityBlock : Obligations.TemplatesShareTheParityBlock := by
  refine ⟨rfl, rfl, rfl, rfl, rfl, fun rate k h => ?parity, by decide⟩
  case parity => rcases (bigK_eq_some_iff rate k).mp h with ⟨rfl, rfl⟩ | ⟨rfl, rfl⟩ | ⟨rfl, rfl⟩ <;> rfl

/-! What ASMH writes (R183, R187) -/

/-- Settles O38: the result ASMH stores is H, whose elements are those of the template's blocks. -/
theorem asmhWritesTheParityCheckMatrix : Obligations.AsmhWritesTheParityCheckMatrix := by
  intro d p s hwf hc
  obtain ⟨t, ht, hsucc, hdraws, hbits⟩ := exec_writes_resultMatrix hwf hc rfl (by simp [opcodeOf])
  refine ⟨t, ht, hsucc, hdraws, fun r hr c hcol => ?_⟩
  rw [hbits r hr c hcol, resultMatrix, at_assembleH]

/-! The first block row of H (R188, R189) -/

/-- A permutation whose rotation theta[k − 1] is not 0 moves every row to another quadrant (41_permutation.md R164). -/
theorem permColumn_ne_self {p : Params} {k : Nat} (htheta : thetaAt p k % 4 ≠ 0) (mcode i : Nat) :
    permColumn p mcode k i ≠ i := by
  intro h
  have hquadrant := permColumn_div p mcode k i
  rw [h] at hquadrant
  omega

/-- The identity block (R180). -/
@[simp] theorem blockElement_identBlock (p : Params) (mcode i c : Nat) :
    blockElement p mcode identBlock i c = decide (c = i) := Bool.xor_false _

@[simp] theorem blockElement_zeroBlock (p : Params) (mcode i c : Nat) : blockElement p mcode zeroBlock i c = false := rfl

/-- I ⊕ Π_k has both its ones in row i where π_k moves i (R188). -/
theorem blockElement_identPlus {p : Params} {mcode k i : Nat} (h : permColumn p mcode k i ≠ i) (c : Nat) :
    blockElement p mcode (identPlus k) i c = true ↔ c = i ∨ c = permColumn p mcode k i := by
  change (decide (c = i) ^^ (decide (c = permColumn p mcode k i) ^^ false)) = true ↔ _
  by_cases hc : c = i
  · simp [hc, h.symm]
  · simp [hc]

/-- A column is at place `i` of block column `b` exactly when it is `b·M + i` (R180). -/
theorem eq_block_column_iff {m i : Nat} (hi : i < m) (b c : Nat) : c = b * m + i ↔ c / m = b ∧ c % m = i := by
  rw [Nat.div_mod_unique (Nat.zero_lt_of_lt hi), and_iff_left hi, Nat.add_comm i, Nat.mul_comm m, eq_comm]

/-- The ones of a row of block row 0: one in the I block and two in the I⊕Π1 block (R188). -/
theorem hElement_first_block_row_iff {p : Params} {rate : BitVec 2} {k mcode r c : Nat} (hk : bigK rate = some k)
    (hr : r < 128 * 2 ^ mcode) (hmoved : permColumn p mcode 1 r ≠ r) (hc : c < (k + 3) * (128 * 2 ^ mcode)) :
    hElement p rate mcode r c = true ↔
      c = k * (128 * 2 ^ mcode) + r ∨ c = (k + 2) * (128 * 2 ^ mcode) + r ∨
      c = (k + 2) * (128 * 2 ^ mcode) + permColumn p mcode 1 r := by
  have hblock : c / (128 * 2 ^ mcode) < k + 3 := Nat.div_lt_of_lt_mul (by rwa [Nat.mul_comm])
  rw [hElement, Nat.div_eq_of_lt hr, Nat.mod_eq_of_lt hr, template_first_row hk, eq_block_column_iff hr,
    eq_block_column_iff hr, eq_block_column_iff (permColumn_lt p mcode 1 r)]
  generalize c / (128 * 2 ^ mcode) = b at hblock ⊢
  obtain hb | rfl | rfl | rfl : b < k ∨ b = k ∨ b = k + 1 ∨ b = k + 2 := by omega
  · rw [List.getD_append _ _ _ _ (by simpa using hb), List.getD_replicate _ hb]
    simp [show b ≠ k by omega, show b ≠ k + 2 by omega]
  all_goals rw [List.getD_append_right _ _ _ _ (by simp)]
  · simp
  · simp
  · simp [blockElement_identPlus hmoved]

/-- Settles O30: theta[0] = 3 moves every row out of its quadrant, so no two of the three ones of a row cancel. -/
theorem firstBlockRowHasWeightThree : Obligations.FirstBlockRowHasWeightThree := by
  intro p rate k mcode r htheta _ hk hr
  have hrotation : thetaAt p 1 = 3 := htheta
  have hmoved : permColumn p mcode 1 r ≠ r := permColumn_ne_self (by simp [hrotation]) mcode r
  refine ⟨hmoved, permColumn_lt p mcode 1 r, fun c hc => ?_⟩
  rw [at_assembleH]
  exact hElement_first_block_row_iff hk hr hmoved hc

/-- Settles O31: the first block row at rate 4/5, with the worked columns of Π_1. -/
theorem assembledRowsHaveTheWorkedColumns : Obligations.AssembledRowsHaveTheWorkedColumns := by
  rintro p i c ⟨htheta, hphi⟩ hi hc
  obtain ⟨-, -, hrow⟩ := firstBlockRowHasWeightThree p 2 8 0 i htheta (by omega) rfl (by omega)
  obtain ⟨-, -, -, hcolumn⟩ := firstPermutationHasTheWorkedColumns p ⟨htheta, hphi⟩
  rw [hrow c (by omega), hcolumn i hi]
  omega

end Sys2Proof.Machine
end

section
/-! The inverter INV (43_invert.md R200 to R202, R208): every way it can end, said once, and the statements of that chapter. -/

namespace Sys2Proof.Machine

/-! Inverses and dependent rows of a matrix (00_scope.md R13, R202) -/

section
variable {n : Nat} {x x' y y' : Nat → Nat → Bool}

/-- Whether X · Y = I_n depends on the elements of X and Y inside the n × n square alone. -/
theorem isInverse_congr (hx : ∀ r < n, ∀ c < n, x r c = x' r c) (hy : ∀ r < n, ∀ c < n, y r c = y' r c) :
    IsInverse n x y ↔ IsInverse n x' y' := by
  refine forall₂_congr fun i hi => forall₂_congr fun j hj => ?_
  rw [xorSum_congr fun t ht => by rw [hx i hi t ht, hy t ht j hj]]

/-- Whether row i depends on the rows before it depends on the elements inside the n × n square alone. -/
theorem rowDependent_congr (hx : ∀ r < n, ∀ c < n, x r c = x' r c) {i : Nat} (hi : i < n) :
    RowDependent n x i ↔ RowDependent n x' i := by
  refine exists_congr fun coeff => forall₂_congr fun c hc => ?_
  rw [hx i hi c hc, xorSum_congr fun t ht => by rw [hx t (ht.trans hi) c hc]]

/-- No row of an invertible matrix depends on the rows before it: if row i of Y were the sum of the rows t < i that `coeff`
selects, element (i, i) of Y · X would be the sum of the selected elements (t, i), all 0 in the identity. -/
theorem IsInverse.not_rowDependent (h : IsInverse n x y) {i : Nat} (hi : i < n) : ¬ RowDependent n y i := by
  rintro ⟨coeff, hrow⟩
  have hright : IsInverse n y x := IsInverse.comm.mp h
  have hzero : (xorSum n fun k => y i k && x k i) = false := calc
    _ = xorSum n fun k => xorSum i fun t => coeff t && (y t k && x k i) := xorSum_congr fun k hk => by
      simp only [hrow k hk, Bool.and_comm _ (x k i), ← xorSum_and, Bool.and_left_comm]
    _ = xorSum i fun t => coeff t && xorSum n fun k => y t k && x k i := by
      simp only [xorSum_comm n i, xorSum_and]
    _ = xorSum i fun _ => false := xorSum_congr fun t ht => by
      simp [hright t (ht.trans hi) i hi, ht.ne]
    _ = false := xorSum_false i
  simp [hright i hi i hi] at hzero

end

/-! What an INV whose checks pass can do -/

/-- The elements of a matrix that overlaps none of those written are kept. -/
theorem MemoryKept.bit_of_disjoint {s t : State} {ds : List Desc} {e : Desc} (h : MemoryKept s t ds)
    (hdisjoint : ∀ d ∈ ds, d.overlaps e = false) {r c : Nat} (hr : r < e.rows.toNat) (hc : c < e.cols.toNat) :
    t.bit e r c = s.bit e r c := by
  have hi : c % 32 < 32 := Nat.mod_lt _ (by decide)
  refine h _ _ hi fun d hd hholds => ?_
  have hnone : d.elementAt (32 * e.addr r c + c % 32) = none := Desc.elementAt_of_disjoint (hdisjoint d hd) hr hc
  simp [Desc.holds_iff d hi, hnone] at hholds

/-- The overlap check of INV (40_host_interface.md R136): neither D nor S overlaps A, and S does not overlap D. -/
theorem inv_operands_disjoint {s : State} {d a sc : DescIx} (h : ¬ OverlapFails s (.inv d a sc)) :
    (s.operand d).overlaps (s.operand a) = false ∧ (s.operand d).overlaps (s.operand sc) = false ∧
      (s.operand sc).overlaps (s.operand a) = false := by
  rw [Desc.overlaps_comm (s.operand sc)]
  simpa only [OverlapFails, State.Overlap, not_or, Bool.not_eq_true] using h

/-- The two ways INV of the n × n matrix A ends (R200, R202): SINGULAR with the first row that depends on the rows before it,
or success with an inverse of A in D. -/
inductive InvOutcome (n : Nat) (A : Nat → Nat → Bool) (d : Desc) (t : State) : Prop where
  | singular (k : Nat) (inside : k < n) (completed : Completed t .singular (BitVec.ofNat 32 k))
      (dependent : RowDependent n A k) (first : ∀ r < k, ¬ RowDependent n A r)
  | inverted (completed : Completed t .none 0) (inverse : IsInverse n (t.bit d) A)

section
variable {s : State} {d a sc : DescIx} (hwf : Memory.wf s.cfg.mmemWords s.mm) (hc : ChecksPass s (.inv d a sc))
include hwf hc

/-- INV ends in one of these two ways, by what the inverter answers for `Mat(A)` (R203, R204). -/
theorem exec_inv_outcome :
    ∃ t, exec (.inv d a sc) s = .next t ∧ InvOutcome (s.rowsOf a) (s.bit (s.operand a)) (s.operand d) t := by
  have hexec := exec_inv_of_checks hc
  obtain ⟨-, hvalid, ⟨hcolsA, hrowsD, hcolsD, -, -⟩, hoverlap⟩ := hc
  obtain ⟨-, hfree, -⟩ := inv_operands_disjoint hoverlap
  have hlength : (s.mat (s.operand a)).length = s.rowsOf a := State.mat_length ..
  have hinside : ∀ r < s.rowsOf a, ∀ c < s.rowsOf a, (s.mat (s.operand a)).at r c = s.bit (s.operand a) r c := by
    intro r hr c hcol
    have hcol' : c < s.colsOf a := hcolsA ▸ hcol
    simp [State.at_mat, show r < (s.operand a).rows.toNat from hr, show c < (s.operand a).cols.toNat from hcol']
  have houtside : ∀ r c, s.rowsOf a ≤ c → (s.mat (s.operand a)).at r c = false := by
    intro r c hcol
    have hcol' : (s.operand a).cols.toNat ≤ c := (hcolsA.le : s.colsOf a ≤ _).trans hcol
    simp [State.at_mat, hcol'.not_gt]
  cases hanswer : invertMatrix (s.rowsOf a) (s.mat (s.operand a)) with
  | error k =>
    rw [hanswer] at hexec
    obtain ⟨hk, hdep, hfirst⟩ := invertMatrix_error hlength houtside hanswer
    refine ⟨_, hexec, .singular k hk ⟨rfl, rfl, rfl, rfl⟩ ((rowDependent_congr hinside hk).mp hdep) fun r hr => ?_⟩
    exact (rowDependent_congr hinside (hr.trans hk)).not.mp (hfirst r hr)
  | ok inverse =>
    rw [hanswer] at hexec
    obtain ⟨-, hinverse, -⟩ := invertMatrix_ok hlength houtside hanswer
    refine ⟨_, hexec, .inverted (by simp [Completed]) ((isInverse_congr (fun r hr c hcol => ?_) hinside).mp hinverse)⟩
    have hd : (s.operand d).valid s.cfg.mmemWords = true := hvalid d (by simp [rolesUsed])
    exact (State.bit_store_scramble s _ hwf hd hfree (hrowsD.symm ▸ hr : r < s.rowsOf d)
      (hcolsD.symm ▸ hcol : c < s.colsOf d)).symm

/-- However INV ends, it keeps the registers, and MM outside the elements of D and S (R138). -/
theorem exec_inv_kept {t : State} (ht : exec (.inv d a sc) s = .next t) :
    RegistersKept s t ∧ MemoryKept s t [s.operand d, s.operand sc] ∧
      ∀ r < s.rowsOf a, ∀ c < s.rowsOf a, t.bit (s.operand a) r c = s.bit (s.operand a) r c := by
  have hregs : RegistersKept s t := by
    obtain ⟨u, hu, hregs, -⟩ := exec_spec (.inv d a sc) s
    rwa [Host.Outcome.next.inj (ht.symm.trans hu)]
  have hmem : MemoryKept s t [s.operand d, s.operand sc] := exec_memoryKept hwf ht
  obtain ⟨-, -, ⟨hcolsA, -⟩, hoverlap⟩ := hc
  obtain ⟨hda, -, hsca⟩ := inv_operands_disjoint hoverlap
  exact ⟨hregs, hmem, fun r hr c hcol =>
    hmem.bit_of_disjoint (by simp [hda, hsca]) hr (hcolsA.symm ▸ hcol : c < s.colsOf a)⟩

end

/-! The statements -/

/-- Settles O39: an invertible A has no dependent row to report, and a left inverse is a right inverse. -/
theorem invWritesTheInverse : Obligations.InvWritesTheInverse := by
  rintro d a sc s hwf hc ⟨x, hx⟩
  obtain ⟨t, ht, hend⟩ := exec_inv_outcome hwf hc
  obtain ⟨hregs, hmem, hA⟩ := exec_inv_kept hwf hc ht
  cases hend with
  | singular k inside _ dependent _ => exact absurd dependent (hx.not_rowDependent inside)
  | inverted completed inverse => exact ⟨t, ht, ⟨completed, hregs, hmem⟩, inverse, IsInverse.comm.mp inverse, hA⟩

/-- Settles O40: there is one first dependent row, and a matrix with a dependent row has no inverse to store. -/
theorem invReportsTheFirstDependentRow : Obligations.InvReportsTheFirstDependentRow := by
  intro d a sc s i hwf hc hi hdep hfirst
  obtain ⟨t, ht, hend⟩ := exec_inv_outcome hwf hc
  obtain ⟨hregs, hmem, -⟩ := exec_inv_kept hwf hc ht
  cases hend with
  | singular k _ completed dependent first =>
    have hle : i ≤ k := Nat.le_of_not_lt fun hlt => hfirst k hlt dependent
    have hge : k ≤ i := Nat.le_of_not_lt fun hlt => first i hlt hdep
    obtain rfl := Nat.le_antisymm hle hge
    exact ⟨t, ht, completed, hregs, hmem⟩
  | inverted _ inverse => exact absurd hdep (inverse.not_rowDependent hi)

/-- Settles O41: a dependent row excludes an inverse, and where INV succeeds D holds one. -/
theorem invIsSingularExactlyWithoutInverse : Obligations.InvIsSingularExactlyWithoutInverse := by
  intro d a sc s hwf hc
  obtain ⟨t, ht, hend⟩ := exec_inv_outcome hwf hc
  refine ⟨t, ht, ?_⟩
  cases hend with
  | singular k inside completed dependent _ =>
    obtain ⟨hcode, -⟩ := completed
    have hnone : ¬ ∃ x, IsInverse (s.rowsOf a) x (s.bit (s.operand a)) :=
      fun ⟨_, hx⟩ => hx.not_rowDependent inside dependent
    exact ⟨iff_of_true hcode hnone, .inl hcode⟩
  | inverted completed inverse =>
    obtain ⟨hcode, -⟩ := completed
    exact ⟨iff_of_false (by simp [hcode]) (not_not_intro ⟨_, inverse⟩), .inr hcode⟩

end Sys2Proof.Machine
end

section
/-! The multiplier MUL (44_multiply.md R220, R221): the elements of the product, where T puts them in the destination, and the
statement of that chapter. -/

namespace Sys2Proof.Machine

/-- Element (i, j) of the product of two matrices in MM whose inner dimensions agree (00_scope.md R13, R220). -/
theorem State.at_mul_mat (s : State) {e f : Desc} (hinner : e.cols.toNat = f.rows.toNat) {i j : Nat} (hi : i < e.rows.toNat)
    (hj : j < f.cols.toNat) :
    ((s.mat e).mul (s.mat f)).at i j = xorSum e.cols.toNat fun k => s.bit e i k && s.bit f k j := by
  rw [BitMat.at_mul _ _ (by simpa [State.mat_length] using hi), State.mat_length, ← hinner]
  exact xorSum_congr fun k hk => by simp [State.at_mat, hi, hj, hk, hinner ▸ hk]

section
variable {s : State} {d a b : DescIx} {x t : Bool} (hshape : ShapePasses s (.mul d a b x t))
include hshape

/-- Element (i, j) of the product lies inside the destination, at (j, i) with T. -/
theorem mul_element_inside {i j : Nat} (hi : i < s.rowsOf a) (hj : j < s.colsOf b) :
    (if t then j else i) < s.rowsOf d ∧ (if t then i else j) < s.colsOf d := by
  cases t with
  | false =>
    obtain ⟨-, hrows, hcols⟩ := hshape
    exact ⟨hrows ▸ hi, hcols ▸ hj⟩
  | true =>
    obtain ⟨-, hrows, hcols⟩ := hshape
    exact ⟨hrows ▸ hj, hcols ▸ hi⟩

/-- The result without X holds element (i, j) of the product at (i, j), and at (j, i) with T. -/
theorem at_resultMatrix_mul_withoutX {i j : Nat} (hi : i < s.rowsOf a) (hj : j < s.colsOf b) :
    (resultMatrix s (.mul d a b false t)).at (if t then j else i) (if t then i else j) =
      xorSum (s.colsOf a) fun k => s.bit (s.operand a) i k && s.bit (s.operand b) k j := by
  cases t with
  | false =>
    obtain ⟨hinner, -⟩ := hshape
    exact s.at_mul_mat hinner hi hj
  | true =>
    obtain ⟨hinner, -⟩ := hshape
    calc (resultMatrix s (.mul d a b false true)).at j i
      _ = (decide (j < s.colsOf b) && ((s.mat (s.operand a)).mul (s.mat (s.operand b))).at i j) := BitMat.at_transpose ..
      _ = ((s.mat (s.operand a)).mul (s.mat (s.operand b))).at i j := by simp [hj]
      _ = _ := s.at_mul_mat hinner hi hj

/-- The result of MUL is that without X, with the old destination added by X. -/
theorem at_resultMatrix_mul {r c : Nat} (hr : r < s.rowsOf d) (hc : c < s.colsOf d) :
    (resultMatrix s (.mul d a b x t)).at r c =
      ((x && s.bit (s.operand d) r c) ^^ (resultMatrix s (.mul d a b false t)).at r c) := by
  cases x with
  | false => simp
  | true => exact (AccumulatesInto.mul a b t).at_resultMatrix hshape hr hc

end

/-- Settles O42: MUL stores the product at the elements T gives it, added by X to what they held. -/
theorem mulWritesTheProduct : Obligations.MulWritesTheProduct := by
  intro d a b x t s hwf hc
  obtain ⟨u, hu, hsucc, hdraws, hbits⟩ := exec_writes_resultMatrix hwf hc rfl (by simp [opcodeOf])
  obtain ⟨-, -, hshape, -⟩ := hc
  refine ⟨u, hu, hsucc, hdraws, fun i hi j hj => ?_⟩
  obtain ⟨hr, hcol⟩ := mul_element_inside hshape hi hj
  dsimp only
  rw [hbits _ hr _ hcol, at_resultMatrix_mul hshape hr hcol, at_resultMatrix_mul_withoutX hshape hi hj]

end Sys2Proof.Machine
end

section
/-! The matrix utility commands NOP, ZERO, IDENT, COPY and ADD, and the descriptors of blocks (45_matrix_utility.md R240 to
R245; 43_invert.md R206): the elements of each result, and the statements of that chapter. -/

namespace Sys2Proof.Machine

/-! Elements of the results (R242 to R244) -/

/-- The identity has its 1s on the diagonal. -/
theorem BitMat.at_ident_of_lt {n r : Nat} (hr : r < n) (c : Nat) : (BitMat.ident n).at r c = decide (r = c) := by
  rw [BitMat.at_ident, decide_eq_true hr, Bool.true_and, decide_eq_decide]
  exact eq_comm

section
variable {s : State} {d a : DescIx} {t : Bool}

/-- Element (r, c) of the source of COPY lies inside the destination, at (c, r) with T. -/
theorem copy_element_inside (hshape : ShapePasses s (.copy d a t)) {r c : Nat} (hr : r < s.rowsOf a) (hc : c < s.colsOf a) :
    (if t then c else r) < s.rowsOf d ∧ (if t then r else c) < s.colsOf d := by
  cases t with
  | false =>
    obtain ⟨hrows, hcols⟩ := hshape
    exact ⟨hrows ▸ hr, hcols ▸ hc⟩
  | true =>
    obtain ⟨hrows, hcols⟩ := hshape
    exact ⟨hrows ▸ hc, hcols ▸ hr⟩

/-- The result of COPY holds element (r, c) of the source at (r, c), and at (c, r) with T. -/
theorem at_resultMatrix_copy (d : DescIx) (t : Bool) {r c : Nat} (hr : r < s.rowsOf a) (hc : c < s.colsOf a) :
    (resultMatrix s (.copy d a t)).at (if t then c else r) (if t then r else c) = s.bit (s.operand a) r c := by
  have hsource : (s.mat (s.operand a)).at r c = s.bit (s.operand a) r c := by
    simp [State.at_mat, show r < (s.operand a).rows.toNat from hr, show c < (s.operand a).cols.toNat from hc]
  cases t with
  | false => exact hsource
  | true =>
    calc (resultMatrix s (.copy d a true)).at c r
      _ = (decide (c < s.colsOf a) && (s.mat (s.operand a)).at r c) := BitMat.at_transpose ..
      _ = s.bit (s.operand a) r c := by rw [decide_eq_true hc, Bool.true_and, hsource]

/-- The overlap check lets a COPY onto its own source pass only without T (40_host_interface.md R136). -/
theorem copy_identical_not_transposed (hc : ChecksPass s (.copy d a t))
    (hsame : s.Identical d a) : t = false := by
  obtain ⟨-, hvalid, -, hoverlap⟩ := hc
  cases t with
  | false => rfl
  | true =>
    refine absurd ?_ hoverlap
    have hself : (s.operand a).overlaps (s.operand a) = true := Desc.overlaps_self (hvalid a (by simp [rolesUsed]))
    rwa [OverlapFails, State.Overlap, show s.operand d = s.operand a from hsame]

end

/-- Element (r, c) of the XOR of two matrices in MM with the same rows and columns (00_scope.md R13, R244). -/
theorem State.at_xor_mat (s : State) {e f : Desc} (hrows : e.rows.toNat = f.rows.toNat) (hcols : e.cols.toNat = f.cols.toNat)
    {r c : Nat} (hr : r < f.rows.toNat) (hc : c < f.cols.toNat) :
    ((s.mat e).xor (s.mat f)).at r c = (s.bit e r c ^^ s.bit f r c) := by
  have hlength : (s.mat e).length = (s.mat f).length := by rw [State.mat_length, State.mat_length, hrows]
  simp [BitMat.at_xor _ _ hlength, State.at_mat, hrows, hcols, hr, hc]

/-! Blocks (R245) -/

/-- The word of an element of a block is the word of the parent's element, when the block starts at a whole word and its BASE
fits the register. -/
theorem Desc.block_addr {d : Desc} {r0 c0 : Nat} (rows cols : BitVec 24) (r c : Nat) (hword : c0 % 32 = 0)
    (hbase : d.base.toNat + r0 * d.stride.toNat + c0 / 32 < 2 ^ 32) :
    (d.block r0 c0 rows cols).addr r c = d.addr (r0 + r) (c0 + c) := by
  have hcolumn : (c0 + c) / 32 = c0 / 32 + c / 32 := by omega
  simp only [Desc.addr, Desc.block, BitVec.toNat_ofNat, Nat.mod_eq_of_lt hbase, hcolumn, Nat.add_mul]
  ring

/-- An element of a block is the parent's element. -/
theorem State.bit_block (s : State) {d : Desc} {r0 c0 : Nat} (rows cols : BitVec 24) (r c : Nat) (hword : c0 % 32 = 0)
    (hbase : d.base.toNat + r0 * d.stride.toNat + c0 / 32 < 2 ^ 32) :
    s.bit (d.block r0 c0 rows cols) r c = s.bit d (r0 + r) (c0 + c) := by
  have hlane : (c0 + c) % 32 = c % 32 := by omega
  rw [State.bit, State.bit, Desc.block_addr rows cols r c hword hbase, hlane]

/-- Every size M is a whole number of words, and 3M fits ROWS and COLS (30_encoding.md R95). -/
theorem matrix_size_bounds {mcode : Nat} (h : mcode ≤ 6) : 32 ∣ 128 * 2 ^ mcode ∧ 3 * (128 * 2 ^ mcode) < 2 ^ 24 := by
  refine ⟨⟨4 * 2 ^ mcode, by ring⟩, ?_⟩
  have hpow : 2 ^ mcode ≤ 2 ^ 6 := Nat.pow_le_pow_right (by decide) h
  omega

/-! The command START latches (40_host_interface.md R130, R131) -/

/-- After START the engine's turn runs the command of CMD and PARAM. -/
theorem engineTurn_start_of_decoded {s : State} {i : Instr} (h : decode s.cmd s.param = .ok i) :
    s.start.engineTurn = exec i s.start := engineTurn_of_decoded s.start_eng h

/-! The statements -/

/-- Settles O43: the result is the zero matrix. -/
theorem zeroClearsTheMatrix : Obligations.ZeroClearsTheMatrix := by
  intro d s hwf hc
  obtain ⟨t, ht, hsucc, hdraws, hbits⟩ := exec_writes_resultMatrix hwf hc rfl (by simp [opcodeOf])
  exact ⟨t, ht, hsucc, hdraws, fun r hr c hcol => (hbits r hr c hcol).trans (BitMat.at_zero ..)⟩

/-- Settles O44: the result is the identity, or with X the old destination with the identity added. -/
theorem identWritesTheIdentity : Obligations.IdentWritesTheIdentity := by
  intro d x s hwf hc
  obtain ⟨t, ht, hsucc, hdraws, hbits⟩ := exec_writes_resultMatrix hwf hc rfl (by simp [opcodeOf])
  refine ⟨t, ht, hsucc, hdraws, fun r hr c hcol => ?_⟩
  rw [hbits r hr c hcol, resultMatrix, at_accumulated s x (BitMat.ident_length _) hr hcol,
    BitMat.at_ident_of_lt (n := (s.operand d).rows.toNat) hr]

/-- Settles O45: the result holds the source's elements at the places T gives them; onto its own source, which the checks
allow only without T, COPY writes every element back where it was. -/
theorem copyWritesTheSource : Obligations.CopyWritesTheSource := by
  intro d a t s hwf hc
  obtain ⟨u, hu, hsucc, hdraws, hbits⟩ := exec_writes_resultMatrix hwf hc rfl (by simp [opcodeOf])
  have hcopied : ∀ r < s.rowsOf a, ∀ c < s.colsOf a,
      u.bit (s.operand d) (if t then c else r) (if t then r else c) = s.bit (s.operand a) r c := by
    intro r hr c hcol
    obtain ⟨-, -, hshape, -⟩ := hc
    obtain ⟨hr', hcol'⟩ := copy_element_inside hshape hr hcol
    rw [hbits _ hr' _ hcol', at_resultMatrix_copy d t hr hcol]
  refine ⟨u, hu, hsucc, hdraws, hcopied, fun hsame w => ?_⟩
  obtain rfl := copy_identical_not_transposed hc hsame
  obtain ⟨-, -, hkept⟩ := hsucc
  rw [show s.operand d = s.operand a from hsame] at hkept hcopied
  exact hkept.readWord_eq hcopied w

/-- Settles O46: the result is the XOR of two matrices of the destination's shape, read before anything is stored. -/
theorem addWritesTheSum : Obligations.AddWritesTheSum := by
  intro d a b s hwf hc
  obtain ⟨t, ht, hsucc, hdraws, hbits⟩ := exec_writes_resultMatrix hwf hc rfl (by simp [opcodeOf])
  obtain ⟨-, -, ⟨hrows, hrows', hcols, hcols'⟩, -⟩ := hc
  refine ⟨t, ht, hsucc, hdraws, fun r hr c hcol => ?_⟩
  rw [hbits r hr c hcol]
  exact s.at_xor_mat hrows hcols (hrows'.symm ▸ hr : r < s.rowsOf b) (hcols'.symm ▸ hcol : c < s.colsOf b)

/-- Settles O24: the descriptor of P is that of a block at row 0 and at a multiple of a word. -/
theorem blockDescriptorsNameParentElements : Obligations.BlockDescriptorsNameParentElements := by
  refine ⟨fun s d r0 c0 rows cols r c hword hbase => ⟨rfl, rfl, rfl, s.bit_block rows cols r c hword hbase⟩,
    fun s d k mcode r c hmcode hbase => ?_⟩
  obtain ⟨hword, hsize⟩ := matrix_size_bounds hmcode
  have hcolumn : k * (128 * 2 ^ mcode) % 32 = 0 := Nat.mod_eq_zero_of_dvd (hword.mul_left k)
  have hbase' : d.base.toNat + 0 * d.stride.toNat + k * (128 * 2 ^ mcode) / 32 < 2 ^ 32 := by
    rwa [Nat.zero_mul, Nat.add_zero]
  have hfits : (BitVec.ofNat 24 (3 * (128 * 2 ^ mcode))).toNat = 3 * (128 * 2 ^ mcode) := by
    rw [BitVec.toNat_ofNat, Nat.mod_eq_of_lt hsize]
  refine ⟨?_, hfits, hfits, rfl, ?_⟩
  · rw [Desc.parityBlock, Desc.block, BitVec.toNat_ofNat, Nat.mod_eq_of_lt hbase', Nat.zero_mul, Nat.add_zero]
  · rw [Desc.parityBlock, s.bit_block _ _ r c hcolumn hbase', Nat.zero_add]

/-- Settles O36: NOP only completes, and the words of CMD and PARAM after reset decode to it. -/
theorem nopCompletes : Obligations.NopCompletes := by
  refine ⟨fun s => ⟨_, exec_nop s, by simp [Completed], by simp [RegistersKept], rfl, rfl⟩, fun cfg => ?_⟩
  have hdecode : decode (State.powerOnWith cfg).cmd (State.powerOnWith cfg).param = .ok .nop := by
    have hzero : decode 0 0 = .ok .nop := by decide
    rwa [show (State.powerOnWith cfg).cmd = 0 from rfl, show (State.powerOnWith cfg).param = 0 from rfl]
  refine ⟨_, (engineTurn_start_of_decoded hdecode).trans (exec_nop _), ?_⟩
  simp [State.statusWord_eq_ofNat, State.powerOnWith, State.err, State.busy, ErrCode.code]

end Sys2Proof.Machine
end

section
/-! No error of a command stops the engine (60_exceptions.md R271; log 14), and the statement of that chapter. -/

namespace Sys2Proof.Machine

/-- The engine's turn is never stopped: a busy engine ends its command, with or without an error, and an idle one does
nothing (R271, R285). -/
theorem State.engineTurn_has_next (s : State) : ∃ t, s.engineTurn = .next t := by
  cases hb : s.busy with
  | false => exact ⟨s, engineTurn_idle hb⟩
  | true =>
    obtain ⟨t, ht, -⟩ := engineTurn_busy hb
    exact ⟨t, ht⟩

/-- Every input leaves a state: an access and a power-on reset always do, a completion as the engine's turn does. -/
theorem State.handle_has_next (s : State) (i : Input) : ∃ t, s.handle i = .next t := by
  cases i with
  | read w off => exact ⟨_, s.handle_read w off⟩
  | write w off v => exact ⟨_, s.handle_write w off v⟩
  | complete => rw [State.handle_complete]; exact s.engineTurn_has_next
  | powerOn => exact ⟨_, s.handle_powerOn⟩

/-- Settles O50: a step is the engine's turn or what the next input does, and both always leave a state. -/
theorem everyStateHasANextState : Obligations.EveryStateHasANextState := by
  intro s
  cases hi : s.inputs with
  | nil => rw [step_of_inputs_nil hi]; exact s.engineTurn_has_next
  | cons i rest => rw [step_of_inputs_cons hi]; exact State.handle_has_next _ i

end Sys2Proof.Machine
end

section
/-! Power-on reset, soft reset and the end of a run (70_reset_and_hazards.md R300 to R302, R312), and the statements of that
chapter. -/

namespace Sys2Proof.Machine

/-! Registers at their reset values (R301) -/

/-- A register reset leaves every register at its reset value, whatever it held. -/
theorem State.resetRegisters_registersReset (s : State) : RegistersReset s.resetRegisters := by
  refine ⟨rfl, rfl, rfl, rfl, rfl, rfl, rfl, rfl, rfl, fun k => ?descriptor, rfl, rfl, ?status⟩
  case descriptor => simp [State.resetRegisters, Desc.zero]
  case status => exact statusWord_powerOnWith s.cfg

/-- `RegistersReset` speaks of registers alone, so it does not see MM and the model's own fields. -/
theorem RegistersReset.withMemory {t : State} (h : RegistersReset t) (mm : Memory) (resp : Option Response)
    (powerDraw draws : Nat) :
    RegistersReset { t with mm := mm, resp := resp, powerDraw := powerDraw, draws := draws } := h

theorem State.powerOnWith_registersReset (cfg : Params) : RegistersReset (State.powerOnWith cfg) :=
  (State.powerOnWith cfg).resetRegisters_registersReset

theorem State.powerOnReset_registersReset (s : State) : RegistersReset s.powerOnReset :=
  s.resetRegisters_registersReset.withMemory [] none s.draws (s.draws + 1)

/-- Settles O1: the power-on state is a register reset of itself, with nothing listed in MM. -/
theorem resetLeavesRegistersAtResetValues : Obligations.ResetLeavesRegistersAtResetValues :=
  ⟨fun cfg => ⟨State.powerOnWith_registersReset cfg, rfl, rfl⟩, rfl⟩

/-- Settles O3: the input is taken off the list, and the step is `State.powerOnReset`. -/
theorem powerOnResetsAtAnyTime : Obligations.PowerOnResetsAtAnyTime := by
  intro s rest hinputs
  have hstep : step s = .next (State.powerOnReset { s with inputs := rest }) := by
    rw [step_of_inputs_cons hinputs, State.handle_powerOn]
  exact ⟨_, hstep, State.powerOnReset_registersReset _, rfl, rfl, rfl, rfl, rfl⟩

/-! The parameters of the reset state (00_scope.md R9; log 5, log 6) -/

theorem Params.openThetaTable_lt {t : Nat} (h : t ∈ Params.openThetaTable) : t < 4 := by
  rcases List.mem_cons.mp h with rfl | hopen
  · decide
  · obtain ⟨n, -, rfl⟩ := List.mem_map.mp hopen
    exact Nat.mod_lt _ (by decide)

/-- Each entry of phi that the source leaves open is kept below M/4 by its remainder, and the sourced one is 1. -/
theorem Params.openPhiTable_inRange {byM : List (List Nat)} (h : byM ∈ Params.openPhiTable) :
    byM.length = 7 ∧ ∀ m < 7, (byM.getD m []).length = 26 ∧ ∀ v ∈ byM.getD m [], v < 32 * 2 ^ m := by
  obtain ⟨j, -, rfl⟩ := List.mem_map.mp h
  refine ⟨by simp, fun m hm => ?_⟩
  have hpos : 1 ≤ 2 ^ m := Nat.one_le_two_pow
  simp only [List.getD_eq_getElem?_getD, List.getElem?_map, List.getElem?_range hm, Option.map_some, Option.getD_some]
  refine ⟨by simp, fun v hv => ?_⟩
  obtain ⟨n, -, rfl⟩ := List.mem_map.mp hv
  split
  · omega
  · exact Nat.mod_lt _ (by omega)

theorem Params.default_inRange : Params.default.inRange :=
  ⟨⟨by decide, by decide⟩, ⟨rfl, fun _ => Params.openThetaTable_lt⟩, rfl, fun _ => Params.openPhiTable_inRange⟩

theorem Params.default_sourced : Params.default.sourced := ⟨rfl, rfl⟩

/-! The invariant at reset -/

/-- The power-on state is idle, lists nothing in MM, and has used draw 0 alone. -/
theorem State.powerOnWith_inv {cfg : Params} (hrange : cfg.inRange) (hsourced : cfg.sourced) :
    (State.powerOnWith cfg).Inv :=
  .of_idle (Memory.wf_nil _) hrange hsourced rfl rfl Nat.zero_lt_one

/-- Settles O51: the parameters of State.reset are in range and sourced, so it is one of the states of the second clause. -/
theorem resetMeetsTheInvariant : Obligations.ResetMeetsTheInvariant :=
  ⟨State.powerOnWith_inv Params.default_inRange Params.default_sourced, fun _ => State.powerOnWith_inv⟩

/-! Soft reset and the write set of the aborted command (R302) -/

theorem State.softReset_of_busy {s : State} {snap : Snap} (h : s.eng = .busy snap) :
    s.softReset = (s.scramble snap.writeSet).resetRegisters := by
  rw [State.softReset, h]

@[simp] theorem State.softReset_inputs (s : State) : s.softReset.inputs = s.inputs := by rw [State.softReset_eq]; rfl

theorem State.softReset_registersReset (s : State) : RegistersReset s.softReset := by
  rw [State.softReset_eq]
  exact s.resetRegisters_registersReset.withMemory _ s.resp s.powerDraw _

theorem Snap.writeSet_of_decoded {snap : Snap} {i : Instr} (h : decode snap.cmd snap.param = .ok i) :
    snap.writeSet = (writeRoles i).map fun k => snap.md[k] := by
  rw [Snap.writeSet, h]

theorem Snap.writeSet_of_undecodable {snap : Snap} {e : DecodeError} (h : decode snap.cmd snap.param = .error e) :
    snap.writeSet = [] := by
  rw [Snap.writeSet, h]

/-- Words of MM are read from the listed bytes and the power-on draw, so a state that has both of `s` keeps all of MM. -/
theorem MemoryKept.of_mm_eq {s t : State} (hmm : t.mm = s.mm) (hdraw : t.powerDraw = s.powerDraw) (ds : List Desc) :
    MemoryKept s t ds := by
  intro a i _ _
  simp only [State.readWord, State.readByte, hmm, hdraw]

/-- Aborting a command leaves MM outside its write set as it was. -/
theorem State.softReset_memoryKept {s : State} {snap : Snap} (hwf : Memory.wf s.cfg.mmemWords s.mm)
    (h : s.eng = .busy snap) : MemoryKept s s.softReset snap.writeSet := by
  rw [State.softReset_of_busy h]
  exact State.scramble_memoryKept s snap.writeSet hwf

/-- With no write set nothing is stored: MM keeps its listed bytes. -/
theorem State.softReset_mm_of_undecodable {s : State} {snap : Snap} {e : DecodeError} (h : s.eng = .busy snap)
    (hd : decode snap.cmd snap.param = .error e) : s.softReset.mm = s.mm := by
  rw [State.softReset_of_busy h, Snap.writeSet_of_undecodable hd]
  rfl

theorem State.busWrite_ctrl_of_reset (s : State) {v : Word} (h : v.getLsbD 1 = true) :
    s.busWrite .w32 0x008 v = { s.softReset with resp := some ⟨none, false⟩ } := by
  rw [s.busWrite_of_aligned v (by decide), show s.writeReg v (regAt 0x008) = s.writeCtrl v from rfl,
    State.writeCtrl_of_reset h]

/-- Settles O4: the write is a soft reset, which scrambles the write set of a running command and stores nothing where there
is none. -/
theorem softResetClearsRegistersAndKeepsMemoryOutsideWriteSet :
    Obligations.SoftResetClearsRegistersAndKeepsMemoryOutsideWriteSet := by
  intro s v hwf hreset
  have hall (hmm : s.softReset.mm = s.mm) : s.softReset.mm = s.mm ∧ MemoryKept s s.softReset [] :=
    ⟨hmm, .of_mm_eq hmm s.softReset_powerDraw []⟩
  refine ⟨_, s.busWrite_ctrl_of_reset hreset, s.softReset_registersReset, s.softReset_cfg, s.softReset_inputs,
    fun hidle => ?idle, fun snap i hbusy hd => ?decoded, fun snap e hbusy hd => ?undecodable⟩
  case idle => exact hall (State.softReset_mm_of_idle hidle)
  case decoded =>
    rw [← Snap.writeSet_of_decoded hd]
    exact State.softReset_memoryKept hwf hbusy
  case undecodable => exact hall (State.softReset_mm_of_undecodable hbusy hd)

/-! The end of a run (R312; log 1) -/

/-- No input touches the list of what still arrives. -/
theorem InputEffect.inputs_eq {s t : State} {i : Input} (h : InputEffect s i t) : t.inputs = s.inputs := by
  cases h with
  | completed _ _ kept =>
    obtain ⟨_, _, _, _, _, _, _, _, hinputs, _⟩ := kept
    exact hinputs
  | softReset => exact s.softReset_inputs
  | _ => rfl

/-- A step takes at most the head off the list of inputs. -/
theorem step_inputs {s t : State} (h : step s = .next t) : t.inputs = s.inputs.tail := by
  obtain ⟨i, rest, htakes, heff⟩ := step_effect h
  rw [heff.inputs_eq]
  cases htakes with
  | head _ _ hcons => rw [hcons, List.tail_cons]
  | turn hnil => rw [hnil, List.tail_nil]

/-- The engine's turn ends a running command, and leaves an idle engine idle (40_host_interface.md R131). -/
theorem engineTurn_leaves_idle {s t : State} (h : s.engineTurn = .next t) : t.eng = .idle := by
  cases hb : s.busy with
  | false =>
    rw [engineTurn_idle hb] at h
    rw [← Host.Outcome.next.inj h]
    exact State.eng_of_not_busy hb
  | true =>
    obtain ⟨u, hu, -, hidle, -⟩ := engineTurn_busy hb
    rwa [← Host.Outcome.next.inj (hu.symm.trans h)]

/-- A run that is not stopped at its first step goes on from there. -/
theorem run_succ_of_step (M : Host.Core) {s t : M.State} (h : M.step s = .next t) (k : Nat) :
    M.run (k + 1) s = M.run k t := by
  rw [Host.Core.run, h]

/-- Settles O60, by induction on the number of inputs: each step takes one, and the step after the last is the engine's turn. -/
theorem engineIsIdleAfterTheLastInput : Obligations.EngineIsIdleAfterTheLastInput := by
  intro s
  induction hn : s.inputs.length generalizing s with
  | zero =>
    have hnil : s.inputs = [] := List.eq_nil_of_length_eq_zero hn
    obtain ⟨t, hturn⟩ := s.engineTurn_has_next
    have hstep : step s = .next t := (step_of_inputs_nil hnil).trans hturn
    have hend : t.inputs = [] := by rw [step_inputs hstep, hnil, List.tail_nil]
    exact ⟨t, run_succ_of_step Sys2Proof.core hstep 0, engineTurn_leaves_idle hturn, hend⟩
  | succ n ih =>
    obtain ⟨u, hstep⟩ := everyStateHasANextState s
    have hlength : u.inputs.length = n := by rw [step_inputs hstep, List.length_tail, hn, Nat.add_sub_cancel]
    obtain ⟨t, hrun, hend⟩ := ih u hlength
    exact ⟨t, (run_succ_of_step Sys2Proof.core hstep (n + 1)).trans hrun, hend⟩

end Sys2Proof.Machine
end
